-- ==== Sys2Proof/Word.lean ====
section
/-! DEFINITION. Word types and the closed sets of names the spec uses: units, channels, modes, bit orders, widths.
Every value the core handles is a 32-bit command word, a 32-bit word slot, a byte or a single bit (rules R11, R49, R53, R62). -/

namespace Sys2Proof

/-- A 32-bit command word `CMD` or result word `RES` (rules R62, R76). -/
abbrev CmdWord := BitVec 32

/-- A 32-bit container that carries one I2S word in its low `N` bits (rules R47, R72). -/
abbrev Slot := BitVec 32

/-- A serial or SPI byte (rule R49). -/
abbrev Byte := BitVec 8

/-- The three units of the core (rules R1, R3, R63). -/
inductive UnitId where
  | i2s
  | uart
  | spi
deriving DecidableEq, Repr, Inhabited

/-- The channel of an I2S word (rules R14, R92). -/
inductive Side where
  | left
  | right
deriving DecidableEq, Repr, Inhabited

/-- `I2S.CFG.MODE`: 0 is StandardI2S, 1 is LeftJustified (rule R27). -/
inductive I2sMode where
  | standardI2s
  | leftJustified
deriving DecidableEq, Repr, Inhabited

/-- `SPI.CFG.BITORDER`: 0 is MSBFirst, 1 is LSBFirst (rule R29). -/
inductive BitOrder where
  | msbFirst
  | lsbFirst
deriving DecidableEq, Repr, Inhabited

/-- The I2S word widths `WIDTHS` (rules R10, R53). -/
inductive Width where
  | w8
  | w16
  | w32
deriving DecidableEq, Repr, Inhabited

end Sys2Proof
end

