-- ==== Sys2Proof/Config.lean ====
section
/-! DEFINITION. What an implementation fixes (rule R10) and the free values: constants without a body, for what the spec
leaves to the environment or leaves unspecified. Nothing in Lean can evaluate a free value or prove which one it is. -/

namespace Sys2Proof

/-- `E_PIN`, the payload of a line-port error (rules R10, R19). Its type is open in the spec; the model carries a number it
never inspects. DESIGN CHOICE (log 3), safe. -/
structure PinError where
  code : Nat
deriving DecidableEq, Repr, Inhabited

/-- `E_TIM`, the payload of a tick-port error (rules R10, R21). As `PinError`. DESIGN CHOICE (log 3), safe. -/
structure TimError where
  code : Nat
deriving DecidableEq, Repr, Inhabited

/-- `TIMER_FAIL_POLICY` (rules R10, R150). -/
inductive TimerFailPolicy where
  | reference
  | alwaysFatal
deriving DecidableEq, Repr, Inhabited

/-- `UART_RX_ORDER` (rules R10, R116). -/
inductive UartRxOrder where
  | lsbFirst
  | msbFill
deriving DecidableEq, Repr, Inhabited

/-- `TICK_LATCH` (rules R10, R178): whether a tick that came while no wait was running is remembered. -/
inductive TickLatch where
  | latched
  | nextEdge
deriving DecidableEq, Repr, Inhabited

/-- The named parameters of rule R10 that the trace semantics reads. A machine's parameters never change
(`State.params`); a claim says which values it assumes. -/
structure Params where
  ljWsPerFrame       : Bool
  stdWsPrologue      : Bool
  timerFailPolicy    : TimerFailPolicy
  uartRxOrder        : UartRxOrder
  spiDefaultBitOrder : BitOrder
deriving DecidableEq, Repr

/-- The spec's default of every parameter that has one (rule R10). -/
def Params.default : Params where
  ljWsPerFrame       := true
  stdWsPrologue      := false
  timerFailPolicy    := .reference
  uartRxOrder        := .lsbFirst
  spiDefaultBitOrder := .msbFirst

/-- The answer of the output line port to one `Drive` (rule R19). -/
inductive DriveAnswer where
  | ok
  | err (e : PinError)
deriving DecidableEq, Repr, Inhabited

/-- The answer of the input line port to one `Sample` (rule R20): `level true` is high. -/
inductive SampleAnswer where
  | level (v : Bool)
  | err (e : PinError)
deriving DecidableEq, Repr, Inhabited

/-- The answer of the tick port to one `WaitTick` (rule R21). `never` is the timer that stops, which the fairness of
rule R22 rules out and 93_implementation_defined.md I23 calls stuck. -/
inductive TickAnswer where
  | ok
  | err (t : TimError)
  | never
deriving DecidableEq, Repr, Inhabited

/-- The answer of a host producer to one `Pull` (rule R48). -/
abbrev PullAnswer := Option Slot

/-- Who moves in the next step (rules R15, R59). `auto` is the running unit if there is one, and the host otherwise. -/
inductive Turn where
  | host
  | unit (u : UnitId)
  | auto
deriving DecidableEq, Repr, Inhabited

/-- FREE: the environment's answer to the k-th undetermined `Drive` of a unit (rule R22). -/
opaque Config.freeDrive : UnitId → Nat → DriveAnswer

/-- FREE: the environment's answer to the k-th undetermined `Sample` of a unit (rules R20, R22). -/
opaque Config.freeSample : UnitId → Nat → SampleAnswer

/-- FREE: whether the k-th undetermined `WaitTick` of a unit fails, and with what (rule R22). It always returns: the
fairness of rule R22. -/
opaque Config.freeTickError : UnitId → Nat → Option TimError

/-- FREE: what a host producer whose words the model does not list yields on its k-th `Pull` (rule R48). -/
opaque Config.freePull : Side → Nat → PullAnswer

/-- FREE: who moves when nothing determines it (rule R59: a model interleaves the units freely). -/
opaque Config.freeTurn : Nat → Turn

/-- FREE: an unspecified 8-bit register (rules R38, R42, R44). -/
opaque Config.freeByte : UnitId → Nat → Byte

/-- FREE: an unspecified 4-bit counter (rule R44). -/
opaque Config.freeCount : UnitId → Nat → BitVec 4

/-- FREE: an unspecified 32-bit word pattern (rule R44). -/
opaque Config.freeSlot : UnitId → Nat → Slot

/-- FREE: an unspecified unbounded counter (rule R44). -/
opaque Config.freeNat : UnitId → Nat → Nat

/-- FREE: `I2S.CUR.bit_offset` from the start of a transfer until its first word starts, before reduction to the range of rule
R28 (log 20). -/
opaque Config.freeOffset : Nat → Nat

/-- FREE: an unspecified width (rule R44). -/
opaque Config.freeWidth : UnitId → Nat → Width

/-- FREE: an unspecified 1-bit control field (rule R42). -/
opaque Config.freeBit : UnitId → Nat → Bool

/-- FREE: an unspecified `I2S.CFG.MODE` (rule R42). -/
opaque Config.freeMode : Nat → I2sMode

/-- FREE: an unspecified `SPI.CFG.BITORDER` (rule R42). -/
opaque Config.freeBitOrder : Nat → BitOrder

/-- PARAMETER: `T_TICK` of a unit less one, so that the period is positive (rules R10, R21). -/
opaque Config.tickPeriodPred : UnitId → Nat

/-- PARAMETER: `TICK_LATCH` (rules R10, R178). No rule of the trace semantics reads it. -/
opaque Config.tickLatch : TickLatch

end Sys2Proof
end

