-- ==== Sys2Proof/Syntax.lean ====
section
/-! DEFINITION. The 13 commands of rule R75, one constructor per row of spec/opcode_table.json, each with the immediate
fields of its command word as they stand there (rule R74). Out-of-band operands (rules R72, R73) are no part of the word:
they are handed to the unit beside it (`Machine.HostCmd`). -/

namespace Sys2Proof

/-- A command word's command and immediate fields (rules R62 to R75). -/
inductive Instr where
  /-- `I2S.INIT` (rule R66). -/
  | i2sInit (mode : BitVec 1)
  /-- `I2S.WRITE` (rule R67). -/
  | i2sWrite (wid : BitVec 2)
  /-- `I2S.WRITE_STREAM` (rule R67). -/
  | i2sWriteStream (wid : BitVec 2)
  /-- `I2S.RELEASE` (rule R71). -/
  | i2sRelease
  /-- `UART.INIT` (rule R71). -/
  | uartInit
  /-- `UART.WRITE` (rule R68). -/
  | uartWrite (byte : Byte)
  /-- `UART.READ` (rule R71). -/
  | uartRead
  /-- `UART.RELEASE` (rule R71). -/
  | uartRelease
  /-- `SPI.INIT` (rule R69). -/
  | spiInit (bo : BitVec 2) (mode2 : BitVec 2)
  /-- `SPI.SEND` (rule R68). -/
  | spiSend (byte : Byte)
  /-- `SPI.READ` (rule R71). -/
  | spiRead
  /-- `SPI.SET_BIT_ORDER` (rule R70). -/
  | spiSetBitOrder (bo1 : BitVec 1)
  /-- `SPI.RELEASE` (rule R71). -/
  | spiRelease
deriving DecidableEq, Repr

/-- The unit a command is for (rule R63). -/
def Instr.unit : Instr → UnitId
  | .i2sInit _ | .i2sWrite _ | .i2sWriteStream _ | .i2sRelease => .i2s
  | .uartInit | .uartWrite _ | .uartRead | .uartRelease => .uart
  | .spiInit _ _ | .spiSend _ | .spiRead | .spiSetBitOrder _ | .spiRelease => .spi

end Sys2Proof
end

