-- ==== Sys2Proof/WellFormed.lean ====
section
/-! DEFINITION. The reserved field values of rule R77: a command that holds one is refused as `ReservedEncoding`. -/

namespace Sys2Proof

/-- `WID = 0b11` asks for a width outside 8, 16 and 32 bits (rule R77 (d)). -/
def widOk (wid : BitVec 2) : Bool := wid != 3#2

/-- `BO = 0b11` is reserved (rule R77 (e)). -/
def boOk (bo : BitVec 2) : Bool := bo != 3#2

/-- No field of the command holds a reserved value (rule R77 (d), (e)). -/
def Instr.wellFormed : Instr → Bool
  | .i2sInit _ => true
  | .i2sWrite wid => widOk wid
  | .i2sWriteStream wid => widOk wid
  | .i2sRelease => true
  | .uartInit => true
  | .uartWrite _ => true
  | .uartRead => true
  | .uartRelease => true
  | .spiInit bo _ => boOk bo
  | .spiSend _ => true
  | .spiRead => true
  | .spiSetBitOrder _ => true
  | .spiRelease => true

end Sys2Proof
end

