-- ==== Sys2Proof/Decode.lean ====
section
/-! DEFINITION. The decoder of rule R80, total on every 32-bit word, and after it the encoder (rules R62 to R75), the
serialised form of the operands of `I2S.WRITE` (rule R72) and the word the host asks about. -/

namespace Sys2Proof

/-- Field `CMD[lo+len-1 : lo]`, unsigned (rules R11, R74). -/
def cmdField (c : CmdWord) (lo len : Nat) : BitVec len := BitVec.extractLsb' lo len c

/-- One row of the opcode map (rule R75): the command's mnemonic, its fixed bits and how its fields are read. -/
structure OpRow where
  mnemonic : String
  pattern  : CmdWord
  mask     : CmdWord
  read     : CmdWord → Instr

/-- The complete command set (rule R75). -/
def opcodeMap : List OpRow :=
  [ ⟨"I2S.INIT",          0x10000000#32, 0xFFFFFFFE#32, fun c => .i2sInit (cmdField c 0 1)⟩,
    ⟨"I2S.WRITE",         0x11000000#32, 0xFFFFFFFC#32, fun c => .i2sWrite (cmdField c 0 2)⟩,
    ⟨"I2S.WRITE_STREAM",  0x12000000#32, 0xFFFFFFFC#32, fun c => .i2sWriteStream (cmdField c 0 2)⟩,
    ⟨"I2S.RELEASE",       0x1F000000#32, 0xFFFFFFFF#32, fun _ => .i2sRelease⟩,
    ⟨"UART.INIT",         0x20000000#32, 0xFFFFFFFF#32, fun _ => .uartInit⟩,
    ⟨"UART.WRITE",        0x21000000#32, 0xFFFFFF00#32, fun c => .uartWrite (cmdField c 0 8)⟩,
    ⟨"UART.READ",         0x22000000#32, 0xFFFFFFFF#32, fun _ => .uartRead⟩,
    ⟨"UART.RELEASE",      0x2F000000#32, 0xFFFFFFFF#32, fun _ => .uartRelease⟩,
    ⟨"SPI.INIT",          0x30000000#32, 0xFFFFFFF0#32, fun c => .spiInit (cmdField c 2 2) (cmdField c 0 2)⟩,
    ⟨"SPI.SEND",          0x31000000#32, 0xFFFFFF00#32, fun c => .spiSend (cmdField c 0 8)⟩,
    ⟨"SPI.READ",          0x32000000#32, 0xFFFFFFFF#32, fun _ => .spiRead⟩,
    ⟨"SPI.SET_BIT_ORDER", 0x33000000#32, 0xFFFFFFFE#32, fun c => .spiSetBitOrder (cmdField c 0 1)⟩,
    ⟨"SPI.RELEASE",       0x3F000000#32, 0xFFFFFFFF#32, fun _ => .spiRelease⟩ ]

/-- A word selects a row when its fixed bits are the row's (rule R75). -/
def OpRow.selects (r : OpRow) (c : CmdWord) : Bool := c &&& r.mask == r.pattern

/-- Why a word has no command: the clauses of rule R77. All of them are the one refusal `ReservedEncoding`. -/
inductive DecodeError where
  /-- (a) `UNIT` is reserved. -/
  | reservedUnit
  /-- (b) `OP` is not listed for the unit. -/
  | reservedOp
  /-- (c) a bit of `ARG` outside the command's fields is 1. -/
  | argBits
  /-- (d), (e) a field holds its reserved value. -/
  | reservedValue
deriving DecidableEq, Repr

/-- `UNIT = CMD[31:28]` (rule R63). -/
def unitField (c : CmdWord) : Option UnitId :=
  let u := cmdField c 28 4
  if u = 1#4 then some .i2s else if u = 2#4 then some .uart else if u = 3#4 then some .spi else none

/-- Some row of the map has the word's `UNIT` and `OP` (rules R63, R64). -/
def opListed (c : CmdWord) : Bool :=
  opcodeMap.any (fun r => cmdField c 24 8 == cmdField r.pattern 24 8)

/-- Which clause of rule R77 refuses a word that selects no row. -/
def decodeErrorOf (c : CmdWord) : DecodeError :=
  if unitField c = none then .reservedUnit else if opListed c then .argBits else .reservedOp

/-- The decoder (rule R80): the command a word selects, or the clause of rule R77 that refuses it. -/
def decode (c : CmdWord) : Except DecodeError Instr :=
  match opcodeMap.find? (fun r => r.selects c) with
  | some r => if (r.read c).wellFormed then .ok (r.read c) else .error .reservedValue
  | none => .error (decodeErrorOf c)

/-- The command word of fields `UNIT`, `OP` and `ARG` (rules R62 to R65). -/
def commandWord (unit op : BitVec 4) (arg : BitVec 24) : CmdWord := unit ++ op ++ arg

/-- The encoder: the command word of a command, by the formats of rule R65. -/
def encode : Instr → CmdWord
  | .i2sInit mode         => commandWord 1#4 0#4 (mode.setWidth 24)
  | .i2sWrite wid         => commandWord 1#4 1#4 (wid.setWidth 24)
  | .i2sWriteStream wid   => commandWord 1#4 2#4 (wid.setWidth 24)
  | .i2sRelease           => commandWord 1#4 15#4 0#24
  | .uartInit             => commandWord 2#4 0#4 0#24
  | .uartWrite byte       => commandWord 2#4 1#4 (byte.setWidth 24)
  | .uartRead             => commandWord 2#4 2#4 0#24
  | .uartRelease          => commandWord 2#4 15#4 0#24
  | .spiInit bo mode2     => commandWord 3#4 0#4 ((bo ++ mode2).setWidth 24)
  | .spiSend byte         => commandWord 3#4 1#4 (byte.setWidth 24)
  | .spiRead              => commandWord 3#4 2#4 0#24
  | .spiSetBitOrder bo1   => commandWord 3#4 3#4 (bo1.setWidth 24)
  | .spiRelease           => commandWord 3#4 15#4 0#24

/-- The operands of `I2S.WRITE` as 32-bit words: `nL`, `nR`, the slots of `L`, the slots of `R` (rule R72). A sequence of
2^32 words or more has no count in this layout and no rule bounds a sequence (N12): its count is written here modulo 2^32.
DESIGN CHOICE (log 21). No command reads this form, so the machine runs sequences of any length. -/
def serialiseOperands (left right : List Slot) : List Slot :=
  BitVec.ofNat 32 left.length :: BitVec.ofNat 32 right.length :: (left ++ right)

/-- Reads the layout of rule R72: `L`, `R` and what follows, or `none` where words are missing. The counts are taken as
written, so the sequences read are shorter than 2^32 words (log 21). -/
def parseOperands : List Slot → Option (List Slot × List Slot × List Slot)
  | nl :: nr :: ws =>
    if nl.toNat + nr.toNat ≤ ws.length then
      some (ws.take nl.toNat, (ws.drop nl.toNat).take nr.toNat, ws.drop (nl.toNat + nr.toNat))
    else none
  | _ => none

/-- The command word whose bits are `w`, numbered as spec/opcode_table.json numbers them: one 32-bit word handed over
whole (rules R51, R62), every bit above `nbits` zero. -/
def tableWord (nbits w : Nat) : CmdWord := BitVec.ofNat 32 (w % 2 ^ nbits)

/-- What the decoder reads from the word `w` of `nbits` bits. -/
def decodeTableWord (nbits w : Nat) : Option Instr := (decode (tableWord nbits w)).toOption

end Sys2Proof
end

