-- ==== Sys2Proof/Machine/State.lean ====
section
/-! DEFINITION. The machine's state as plain data: the three units of rule R23 with every register the spec gives them,
their observation state, and beside them the host's commands and the environment's answers (rules R15, R16, R22). -/

namespace Sys2Proof.Machine

/-! ### Lines, events and outcomes -/

/-- The output lines (rule R18). -/
inductive OutLine where
  | i2sSck
  | i2sSd
  | i2sWs
  | uartTx
  | spiSck
  | spiMosi
deriving DecidableEq, Repr

/-- The input lines (rule R18). -/
inductive InLine where
  | uartRx
  | spiMiso
deriving DecidableEq, Repr

/-- `LVL[line]`: 0, 1 or unknown (rule R26). -/
inductive Level where
  | low
  | high
  | x
deriving DecidableEq, Repr

/-- A port event with the environment's answer (rule R13): `D(L,v)`, `S(L)=v` or `W`, an answered error being the `!`. A wait
whose failure is ignored is a plain `W` (rule R185, log 19). -/
inductive Event where
  | drive (l : OutLine) (v : Bool) (a : DriveAnswer)
  | sample (l : InLine) (a : SampleAnswer)
  | wait (failed : Option TimError)
deriving DecidableEq, Repr

/-- What a command ends with (rule R146). -/
inductive CmdOutcome where
  | ok
  | okByte (b : Byte)
  | busError (e : PinError)
  | timerError (t : TimError)
  | noData
deriving DecidableEq, Repr

/-! ### Answers still to come -/

/-- What follows a list of answers: the free values from number `drawn` on, or one answer for ever. -/
inductive Rest (α : Type) where
  | free (drawn : Nat)
  | always (a : α)
deriving DecidableEq, Repr

/-- Answers an agent outside the unit gives, in order (rules R20, R22, R48, R59): first the listed ones, then `rest`. -/
structure Draws (α : Type) where
  script : List α
  rest   : Rest α
deriving DecidableEq, Repr

/-- A host producer (rule R48), as the answers it gives to `Pull`. -/
abbrev Producer := Draws PullAnswer

/-! ### What every unit has -/

/-- `LIFE` (rule R24): UNCONFIGURED = 0, CONFIGURED = 1. -/
inductive Life where
  | unconfigured
  | configured
deriving DecidableEq, Repr

/-- `SEQ` (rule R32): IDLE, or the running command and the index of its next port event. -/
inductive Seq (c : Type) where
  | idle
  | running (cmd : c) (i : Nat)
deriving DecidableEq, Repr

/-- The part every unit has: its lifecycle, its sequencer, its output and tick ports, and what the environment and the
host see of it. `c` is the unit's commands that make port events. -/
structure UnitIo (c : Type) where
  /-- `LIFE` (rule R24). -/
  life     : Life
  /-- `SEQ` (rule R32). -/
  seq      : Seq c
  /-- The environment's answers to this unit's drives (rules R19, R22). -/
  drives   : Draws DriveAnswer
  /-- The environment's answers to this unit's tick waits (rules R21, R22). -/
  ticks    : Draws TickAnswer
  /-- The port events so far, oldest first (rule R13). -/
  trace    : List Event
  /-- The outcomes handed to the host so far, oldest first (rules R16, R146). -/
  outcomes : List CmdOutcome
  /-- How many free register values this unit has taken (log 6). -/
  fresh    : Nat
deriving DecidableEq, Repr

/-! ### The I2S unit -/

/-- The I2S commands that make port events. -/
inductive I2sRun where
  | write
  | writeStream
deriving DecidableEq, Repr

/-- One port event of an I2S command, as the rules R89, R93, R94 and R96 name it. `k` is the emission, from 1 to `N`. -/
inductive I2sAct where
  | ws (v : Bool)
  | sd (side : Side) (k : Nat)
  | tick
  | sckHigh
  | sckLow (k : Nat)
deriving DecidableEq, Repr

/-- `I2S.CUR`, the transient cursor (rule R28). -/
structure Cursor where
  /-- `N`, the command's word width. -/
  n         : Width
  /-- `frame`, the number of frames completed. -/
  frame     : Nat
  /-- `uL`, the pattern of the current left word. -/
  uL        : Slot
  /-- `uR`, the pattern of the current right word. -/
  uR        : Slot
  /-- `bit_offset`, the number of bits of the current word already emitted. -/
  bitOffset : Nat
deriving DecidableEq, Repr

/-- The I2S unit (rules R23, R84). -/
structure I2sUnit where
  io     : UnitIo I2sRun
  /-- `LVL[SCK]` (rule R26). -/
  lvlSck : Level
  /-- `LVL[SD]` (rule R26). -/
  lvlSd  : Level
  /-- `LVL[WS]` (rule R26). -/
  lvlWs  : Level
  /-- `I2S.CFG.MODE` (rule R27). -/
  mode   : I2sMode
  /-- `I2S.CUR` (rule R28). -/
  cur    : Cursor
  /-- `L`, the left sequence handed over with the last `I2S.WRITE` (rule R46). -/
  seqL   : List Slot
  /-- `R`, the right sequence handed over with the last `I2S.WRITE` (rule R46). -/
  seqR   : List Slot
  /-- `PL`, the left producer handed over with the last `I2S.WRITE_STREAM` (rule R48). -/
  prodL  : Producer
  /-- `PR`, the right producer handed over with the last `I2S.WRITE_STREAM` (rule R48). -/
  prodR  : Producer
deriving DecidableEq, Repr

/-! ### The UART unit -/

/-- The UART commands that make port events. -/
inductive UartRun where
  | write (byte : Byte)
  | read
deriving DecidableEq, Repr

/-- One port event of a UART command (rules R110, R114). -/
inductive UartAct where
  | start
  | data
  | stop
  | poll
  | sample
  /-- A wait that only paces. -/
  | tick
  /-- The wait after a data bit: `TXSR` shifts and `BITCNT` counts when it returns. -/
  | shiftTick
  /-- The wait past the start bit: `RXACC` is cleared when it returns. -/
  | openTick
  /-- The wait after a data sample: `BITCNT` counts when it returns. -/
  | countTick
deriving DecidableEq, Repr

/-- The UART unit (rules R23, R31). -/
structure UartUnit where
  io     : UnitIo UartRun
  /-- `LVL[TX]` (rule R26). -/
  lvlTx  : Level
  /-- The environment's answers to samples of `RX` (rule R20). -/
  rx     : Draws SampleAnswer
  /-- `UART.TXSR` (rule R31). -/
  txsr   : Byte
  /-- `UART.RXACC` (rule R31). -/
  rxacc  : Byte
  /-- `UART.BITCNT` (rule R31). -/
  bitcnt : BitVec 4
deriving DecidableEq, Repr

/-! ### The SPI unit -/

/-- The SPI commands that make port events. -/
inductive SpiRun where
  | init (bo : BitVec 2) (mode2 : BitVec 2)
  | send (byte : Byte)
deriving DecidableEq, Repr

/-- One port event of an SPI command (rules R122, R126 to R129, R133). -/
inductive SpiAct where
  | construct (bo : BitVec 2) (mode2 : BitVec 2)
  | mosi (byte : Byte) (i : Nat)
  | sck (v : Bool)
  | tick
  | sample
deriving DecidableEq, Repr

/-- The SPI unit (rules R23, R121). -/
structure SpiUnit where
  io       : UnitIo SpiRun
  /-- `LVL[SCK]` (rule R26). -/
  lvlSck   : Level
  /-- `LVL[MOSI]` (rule R26). -/
  lvlMosi  : Level
  /-- The environment's answers to samples of `MISO` (rule R20). -/
  miso     : Draws SampleAnswer
  /-- `SPI.CFG.CPOL` (rule R29). -/
  cpol     : Bool
  /-- `SPI.CFG.CPHA` (rule R29). -/
  cpha     : Bool
  /-- `SPI.CFG.BITORDER` (rule R29). -/
  bitOrder : BitOrder
  /-- `SPI.RXBUF` (rule R30). -/
  rxbuf    : Byte
  /-- `SPI.RXVALID` (rules R30, R34). -/
  rxvalid  : Bool
  /-- `SPI.RXACC` (rule R30). -/
  rxacc    : Byte
  /-- `SPI.BITCNT` (rule R30). -/
  bitcnt   : BitVec 4
deriving DecidableEq, Repr

/-! ### The host and the whole machine -/

/-- One command as the host hands it over (rules R16, R62, R72, R73): the command word and its out-of-band operands. -/
structure HostCmd where
  word  : CmdWord
  left  : List Slot
  right : List Slot
  prodL : Producer
  prodR : Producer
deriving DecidableEq, Repr

/-- The machine: its parameters, the three units, the commands the host is about to issue in the order it issues them,
and whose turn it is (rules R15, R16, R59). -/
structure State where
  params : Params
  i2s    : I2sUnit
  uart   : UartUnit
  spi    : SpiUnit
  host   : List HostCmd
  sched  : Draws Turn
deriving DecidableEq, Repr

/-! ### How a step can stop -/

/-- Why the machine stops. The spec treats nothing as a fault (93_implementation_defined.md); the one case here is the
one it calls stuck. -/
inductive Fault where
  /-- Raised by the tick wait of a running unit whose timer stopped for ever: no next step (93_implementation_defined.md
  I23, rule R168 (e)). SAFE: the rules give such a run no outcome. -/
  | timerStopped (u : UnitId)
deriving DecidableEq, Repr

/-- Why a command has no meaning (rules R147, R148). -/
inductive Refusal where
  /-- Raised by an arm of `exec` for an instruction not modelled yet. SAFE: nothing can be proved of it. -/
  | notModelled (mnemonic : String)
  /-- Raised by `step` for a word that `decode` refuses and by a meaning for a reserved field value (rule R77). SAFE. -/
  | reservedEncoding
  /-- Raised by every command but INIT on an UNCONFIGURED unit (rule R24). SAFE. -/
  | notConfigured
  /-- Raised by INIT on a CONFIGURED unit (rule R24). SAFE. -/
  | alreadyConfigured
  /-- Raised by `I2S.WRITE` for sequences of unequal length (rule R95). SAFE. -/
  | lengthMismatch
  /-- Raised by `exec` for a command given to a unit that runs one. No step does this: the host issues a command only
  after the last outcome (rule R16). SAFE. -/
  | unitBusy
deriving DecidableEq, Repr

/-- How one port event of a running command ends: with its effect (`done`), with its effect and the position kept (`again`,
the poll of rule R114), with an error of rule R146 (`raised`), or not at all (`stuck`). -/
inductive EventEnd (σ : Type) where
  | done (s : σ)
  | again (s : σ)
  | raised (o : CmdOutcome) (s : σ)
  | stuck (f : Fault)
deriving DecidableEq, Repr

/-! ### Power-on -/

/-- Answers that nothing determines. -/
def Draws.undetermined {α : Type} : Draws α := ⟨[], .free 0⟩

/-- A producer that yields nothing. -/
def Producer.empty : Producer := ⟨[], .always none⟩

/-- A unit at power-on: UNCONFIGURED and IDLE (rule R38). -/
def UnitIo.reset {c : Type} : UnitIo c where
  life     := .unconfigured
  seq      := .idle
  drives   := .undetermined
  ticks    := .undetermined
  trace    := []
  outcomes := []
  fresh    := 0

/-- The I2S unit at power-on (rule R38). Registers the spec leaves unspecified are 0: DESIGN CHOICE (log 5), unsafe. -/
def I2sUnit.reset : I2sUnit where
  io     := .reset
  lvlSck := .x
  lvlSd  := .x
  lvlWs  := .x
  mode   := .standardI2s
  cur    := ⟨.w8, 0, 0#32, 0#32, 0⟩
  seqL   := []
  seqR   := []
  prodL  := .empty
  prodR  := .empty

/-- The UART unit at power-on (rule R38), unspecified registers as in `I2sUnit.reset`. -/
def UartUnit.reset : UartUnit where
  io     := .reset
  lvlTx  := .x
  rx     := .undetermined
  txsr   := 0#8
  rxacc  := 0#8
  bitcnt := 0#4

/-- The SPI unit at power-on (rule R38): `RXVALID = 0`, unspecified registers as in `I2sUnit.reset`. -/
def SpiUnit.reset : SpiUnit where
  io       := .reset
  lvlSck   := .x
  lvlMosi  := .x
  miso     := .undetermined
  cpol     := false
  cpha     := false
  bitOrder := .msbFirst
  rxbuf    := 0#8
  rxvalid  := false
  rxacc    := 0#8
  bitcnt   := 0#4

/-- The machine at power-on, before any command (rule R38), with the default parameters (rule R10), no command handed
over and every choice of the environment and the schedule undetermined (log 2, log 4). -/
def State.reset : State where
  params := .default
  i2s    := .reset
  uart   := .reset
  spi    := .reset
  host   := []
  sched  := .undetermined

end Sys2Proof.Machine
end

