-- ==== Sys2Proof/Machine/Ops.lean ====
section
/-! DEFINITION. The operations every unit shares: the environment's answers, the three primitives of rule R12 (`Drive`,
`Sample`, `WaitTick`) under `try`, the end of a command with an outcome (`return`, `raise`) and the refusal checks. -/

namespace Sys2Proof.Machine

/-! ### Answers -/

/-- The next answer and the answers after it (rule R22). `free k` is the k-th undetermined one. -/
def Draws.next {α : Type} (free : Nat → α) : Draws α → α × Draws α
  | ⟨a :: as, r⟩       => (a, ⟨as, r⟩)
  | ⟨[], .free k⟩      => (free k, ⟨[], .free (k + 1)⟩)
  | ⟨[], .always a⟩    => (a, ⟨[], .always a⟩)

/-- The answers left after `n` of them. -/
def Draws.skip {α : Type} (free : Nat → α) : Nat → Draws α → Draws α
  | 0, d     => d
  | n + 1, d => Draws.skip free n (d.next free).2

/-- The next `n` answers. -/
def Draws.first {α : Type} (free : Nat → α) : Nat → Draws α → List α
  | 0, _     => []
  | n + 1, d => (d.next free).1 :: Draws.first free n (d.next free).2

/-- An undetermined tick wait returns: with a tick or with a failure, never not at all (the fairness of rule R22). -/
def freeTick (u : UnitId) (k : Nat) : TickAnswer :=
  match Config.freeTickError u k with
  | none   => .ok
  | some t => .err t

/-! ### Lines -/

/-- The unit of an output line (rule R18). -/
def OutLine.unit : OutLine → UnitId
  | .i2sSck | .i2sSd | .i2sWs => .i2s
  | .uartTx                   => .uart
  | .spiSck | .spiMosi        => .spi

/-- The unit of an input line (rule R18). -/
def InLine.unit : InLine → UnitId
  | .uartRx  => .uart
  | .spiMiso => .spi

/-- The level a successful `Drive(line, v)` leaves (rule R26). -/
def Level.ofBit (v : Bool) : Level := if v then .high else .low

/-- The level `Drive(line, v)` leaves: `v` on success, X on failure (rule R26). -/
def levelAfter (v : Bool) : DriveAnswer → Level
  | .ok    => Level.ofBit v
  | .err _ => .x

/-! ### The primitives -/

variable {c σ : Type}

/-- The event is part of the trace (rules R13, R58). -/
def UnitIo.record (e : Event) (io : UnitIo c) : UnitIo c := { io with trace := io.trace ++ [e] }

/-- `Drive(line, v)` (rule R19): an event whatever the line's level is. -/
def UnitIo.drive (l : OutLine) (v : Bool) (io : UnitIo c) : DriveAnswer × UnitIo c :=
  let d := io.drives.next (Config.freeDrive l.unit)
  (d.1, UnitIo.record (.drive l v d.1) { io with drives := d.2 })

/-- `try Drive(line, v)` (rules R12, R149): `put` stores the unit's part and the level of the line. -/
def UnitIo.tryDrive (l : OutLine) (v : Bool) (put : UnitIo c → Level → σ) (io : UnitIo c) : EventEnd σ :=
  let r := io.drive l v
  match r.1 with
  | .ok    => .done (put r.2 (levelAfter v .ok))
  | .err e => .raised (.busError e) (put r.2 (levelAfter v (.err e)))

/-- `Sample(line)` (rule R20), with the answers still to come on that line. -/
def UnitIo.sample (l : InLine) (ds : Draws SampleAnswer) (io : UnitIo c) : SampleAnswer × Draws SampleAnswer × UnitIo c :=
  let d := ds.next (Config.freeSample l.unit)
  (d.1, d.2, io.record (.sample l d.1))

/-- `try Sample(line)` (rules R12, R149): `put` stores the unit's part and the answers still to come, `use` then takes
the level. -/
def UnitIo.trySample (l : InLine) (ds : Draws SampleAnswer) (put : UnitIo c → Draws SampleAnswer → σ)
    (use : Bool → σ → EventEnd σ) (io : UnitIo c) : EventEnd σ :=
  let r := io.sample l ds
  match r.1 with
  | .level v => use v (put r.2.2 r.2.1)
  | .err e   => .raised (.busError e) (put r.2.2 r.2.1)

/-- Whether a failed `WaitTick` ends the command: the table of rule R150. -/
def tickFatal (p : Params) : UnitId → Bool
  | .i2s  => true
  | .uart => p.timerFailPolicy == .alwaysFatal
  | .spi  => p.timerFailPolicy == .alwaysFatal

/-- `try WaitTick()`, `WaitU()` and `WaitS()` (rules R12, R90, R109, R124, R150): `put` stores the unit's part when the
wait ends and the command goes on, `keep` when it does not. An ignored failure is a plain `W` of the trace, as if the wait had
succeeded (rule R185); only a failure that ends the command is a `W!` (rule R13). DEDUCED (log 19). -/
def UnitIo.tryWait (u : UnitId) (p : Params) (put keep : UnitIo c → σ) (io : UnitIo c) : EventEnd σ :=
  let d := io.ticks.next (freeTick u)
  let io' := { io with ticks := d.2 }
  match d.1 with
  | .ok    => .done (put (io'.record (.wait none)))
  | .err t =>
    if tickFatal p u then .raised (.timerError t) (keep (io'.record (.wait (some t))))
    else .done (put (io'.record (.wait none)))
  | .never => .stuck (.timerStopped u)

/-! ### The sequencer and the end of a command -/

/-- No command runs (rule R32). -/
def Seq.isIdle : Seq c → Bool
  | .idle        => true
  | .running _ _ => false

/-- A command starts at its first port event (rule R32). -/
def UnitIo.start (cmd : c) (io : UnitIo c) : UnitIo c := { io with seq := .running cmd 0 }

/-- The position after a completed port event (rule R32). -/
def UnitIo.goto (cmd : c) (i : Nat) (io : UnitIo c) : UnitIo c := { io with seq := .running cmd i }

/-- The command ends with an outcome, handed to the host: `return` and `raise` alike (rules R12, R146, R152). `SEQ` is IDLE
(rule R43); `n` registers become unspecified, so `n` free values are taken. -/
def UnitIo.close (o : CmdOutcome) (n : Nat) (io : UnitIo c) : UnitIo c :=
  { io with seq := .idle, outcomes := io.outcomes ++ [o], fresh := io.fresh + n }

/-- What a command adds to a port event's effect when the event succeeded (rule R122: construction writes no field before). -/
def EventEnd.andThen (f : σ → σ) : EventEnd σ → EventEnd σ
  | .done s     => .done (f s)
  | .again s    => .again s
  | .raised o s => .raised o s
  | .stuck e    => .stuck e

/-- A port event's end as the unit goes on: `adv` after a completed event, `fin` after an error (rules R32, R152). -/
def EventEnd.settle (adv : σ → σ) (fin : CmdOutcome → σ → σ) : EventEnd σ → Except Fault σ
  | .done s     => .ok (adv s)
  | .again s    => .ok s
  | .raised o s => .ok (fin o s)
  | .stuck f    => .error f

/-! ### Refusals -/

/-- Whether INIT, or any other command, is refused on a unit, and why (rules R16, R24, R148). -/
def UnitIo.refusal (isInit : Bool) (io : UnitIo c) : Option Refusal :=
  if !io.seq.isIdle then some .unitBusy
  else if isInit then (if io.life = .configured then some .alreadyConfigured else none)
  else (if io.life = .configured then none else some .notConfigured)

/-- A refused command has no meaning; any other has the next state given (rules R12, R147). -/
def unlessRefused (r : Option Refusal) (s : State) : Host.Outcome State Fault Refusal :=
  match r with
  | some r => .refused r
  | none   => .next s

end Sys2Proof.Machine
end

