-- ==== Sys2Proof/Machine/Operands.lean ====
section
/-! DEFINITION. Operands and the operations on data of rule R196: widths and word patterns, bit extraction and bit assembly,
the optional bit order of construction, the host's sequences and producers. -/

namespace Sys2Proof.Machine

/-! ### I2S words -/

/-- `N = 8 << WID`; `WID = 0b11` is reserved (rule R67). -/
def widthOf (wid : BitVec 2) : Option Width :=
  if wid = 0#2 then some .w8 else if wid = 1#2 then some .w16 else if wid = 2#2 then some .w32 else none

/-- The width in bits (rule R53). -/
def widthBits : Width → Nat
  | .w8  => 8
  | .w16 => 16
  | .w32 => 32

/-- `u_N(w)`: the low `N` bits of a slot (rules R11, R47, R87). -/
def wordPattern (n : Width) (w : Slot) : Slot := w &&& BitVec.ofNat 32 (2 ^ widthBits n - 1)

/-- `bitAt(u, N, k) = (u >> (N - k)) & 1`, the k-th emission of a word (rule R88). -/
def bitAt (n : Width) (u : Slot) (k : Nat) : Bool := (u >>> (widthBits n - k)).getLsbD 0

/-- `I2S.CFG.MODE` from the field `MODE` (rule R66). -/
def i2sModeOf (mode : BitVec 1) : I2sMode := if mode = 0#1 then .standardI2s else .leftJustified

/-! ### Producers -/

/-- `Pull(P)`: the next word or `none`; a producer that returned `none` is exhausted (rule R48). -/
def pull (side : Side) (p : Producer) : PullAnswer × Producer :=
  let d := p.next (Config.freePull side)
  match d.1 with
  | some w => (some w, d.2)
  | none   => (none, .empty)

/-! ### UART bits -/

/-- `Assemble(acc, s)` (rule R116). -/
def assemble (order : UartRxOrder) (acc : Byte) (s : Bool) : Byte :=
  match order with
  | .lsbFirst => (acc >>> 1) ||| ((BitVec.ofBool s).setWidth 8 <<< 7)
  | .msbFill  => (acc <<< 1) ||| (BitVec.ofBool s).setWidth 8

/-! ### SPI bits -/

/-- `TxBit(byte, i)` (rule R125). -/
def txBit (order : BitOrder) (byte : Byte) (i : Nat) : Bool :=
  match order with
  | .msbFirst => (byte >>> (7 - i)).getLsbD 0
  | .lsbFirst => (byte >>> i).getLsbD 0

/-- `(SPI.RXACC << 1) | s` (rule R131). -/
def shiftIn (acc : Byte) (s : Bool) : Byte := (acc <<< 1) ||| (BitVec.ofBool s).setWidth 8

/-- `BITORDER` from the field `BO1` (rule R70). -/
def bitOrderOf (bo1 : BitVec 1) : BitOrder := if bo1 = 0#1 then .msbFirst else .lsbFirst

/-- `BITORDER` from the field `BO` of construction, the default where none is given (rules R69, R122). -/
def initBitOrder (p : Params) (bo : BitVec 2) : BitOrder :=
  if bo = 1#2 then .msbFirst else if bo = 2#2 then .lsbFirst else p.spiDefaultBitOrder

/-- `CPOL = MODE2[1]` (rule R69). -/
def cpolOf (mode2 : BitVec 2) : Bool := mode2.getLsbD 1

/-- `CPHA = MODE2[0]` (rule R69). -/
def cphaOf (mode2 : BitVec 2) : Bool := mode2.getLsbD 0

/-! ### Results -/

/-- The result word `RES`: `STATUS[31:28]` and `DATA[7:0]` (rule R76). The error payload is out of band. -/
def resultWord : CmdOutcome → CmdWord
  | .ok           => 0x00000000#32
  | .okByte b     => b.setWidth 32
  | .busError _   => 0x10000000#32
  | .timerError _ => 0x20000000#32
  | .noData       => 0x30000000#32

/-- `I2S.CFG[0] = MODE` (rule R37). -/
def I2sUnit.cfgWord (u : I2sUnit) : BitVec 1 := if u.mode = .standardI2s then 0#1 else 1#1

/-- `SPI.CFG[2:0] = {BITORDER, CPOL, CPHA}` (rule R37). -/
def SpiUnit.cfgWord (u : SpiUnit) : BitVec 3 :=
  (if u.bitOrder = .msbFirst then 0#1 else 1#1) ++ BitVec.ofBool u.cpol ++ BitVec.ofBool u.cpha

/-- The SPI mode number `2*CPOL + CPHA` (rule R29). -/
def SpiUnit.modeNumber (u : SpiUnit) : Nat := 2 * u.cpol.toNat + u.cpha.toNat

end Sys2Proof.Machine
end

