-- ==== Sys2Proof/Machine/Flags.lean ====
section
/-! DEFINITION. The one status flag, `SPI.RXVALID` (rule R34), with the register it qualifies, `SPI.RXBUF`: every operation
that writes them or reads them. -/

namespace Sys2Proof.Machine

/-- `SampleBit()` (rules R131, R132): the sampled bit enters `RXACC`, and the eighth one completes the byte. -/
def SpiUnit.takeBit (s : Bool) (u : SpiUnit) : SpiUnit :=
  let acc := shiftIn u.rxacc s
  let cnt := u.bitcnt + 1#4
  if cnt = 8#4 then { u with rxacc := acc, bitcnt := cnt, rxbuf := acc, rxvalid := true }
  else { u with rxacc := acc, bitcnt := cnt }

/-- Construction (rule R40): `RXVALID` is 0 and `RXBUF` unspecified, a free value. -/
def SpiUnit.clearReceived (u : SpiUnit) : SpiUnit :=
  { u with rxvalid := false, rxbuf := Config.freeByte .spi u.io.fresh, io := { u.io with fresh := u.io.fresh + 1 } }

/-- What `SPI.READ` answers (rules R136, R151). -/
def SpiUnit.received (u : SpiUnit) : CmdOutcome := if u.rxvalid then .okByte u.rxbuf else .noData

/-- `SPI.RX[8:0] = {RXVALID, RXBUF}` (rule R37). -/
def SpiUnit.rxWord (u : SpiUnit) : BitVec 9 := BitVec.ofBool u.rxvalid ++ u.rxbuf

end Sys2Proof.Machine
end

