-- ==== Sys2Proof/Machine/I2s.lean ====
section
/-! DEFINITION. The I2S bitstream framer: construction, the frames and their port events, the transfer commands and the
release (40_i2s.md). -/

namespace Sys2Proof.Machine

/-! ### Frames as sequences of port events -/

/-- `EmitBit` for emission `k` of a word (rules R89, R91). -/
def emitBit (side : Side) (k : Nat) : List I2sAct := [.sd side k, .tick, .sckHigh, .tick, .sckLow k]

/-- `EmitBits(u, N, k1, k2)` (rule R91). -/
def emitBits (side : Side) (k1 k2 : Nat) : List I2sAct := (List.range' k1 (k2 + 1 - k1)).flatMap (emitBit side)

/-- `StdFrame` for words of `n` bits (rule R93). -/
def stdFrame (n : Nat) : List I2sAct :=
  emitBits .left 1 (n - 1) ++ (.ws true :: emitBits .left n n) ++
    (emitBits .right 1 (n - 1) ++ (.ws false :: emitBits .right n n))

/-- `LjFrame` for words of `n` bits (rule R94). -/
def ljFrame (wsPerFrame : Bool) (n : Nat) : List I2sAct :=
  (if wsPerFrame then [.ws false] else []) ++ emitBits .left 1 n ++ (.ws true :: emitBits .right 1 n)

/-- The port events of one frame (rules R93, R94, R95). -/
def frameActs (p : Params) (mode : I2sMode) (n : Width) : List I2sAct :=
  match mode with
  | .standardI2s   => stdFrame (widthBits n)
  | .leftJustified => ljFrame p.ljWsPerFrame (widthBits n)

/-- `Prologue()` (rule R96). -/
def prologueActs (p : Params) (mode : I2sMode) : List I2sAct :=
  match mode with
  | .standardI2s   => if p.stdWsPrologue then [.ws false] else []
  | .leftJustified => if p.ljWsPerFrame then [] else [.ws false]

/-- The position at which the current frame starts: after the prologue and the frames completed. -/
def I2sUnit.frameStart (p : Params) (u : I2sUnit) : Nat :=
  (prologueActs p u.mode).length + u.cur.frame * (frameActs p u.mode u.cur.n).length

/-- The port event at position `i` of the running command (rule R32). -/
def I2sUnit.actAt (p : Params) (u : I2sUnit) (i : Nat) : Option I2sAct :=
  if i < (prologueActs p u.mode).length then (prologueActs p u.mode)[i]?
  else (frameActs p u.mode u.cur.n)[i - u.frameStart p]?

/-! ### One port event -/

/-- The word the unit emits on a side (rule R28). -/
def Cursor.word (side : Side) (c : Cursor) : Slot :=
  match side with
  | .left  => c.uL
  | .right => c.uR

/-- The port event is the drive of a word's first bit. -/
def I2sAct.firstBit : I2sAct → Bool
  | .sd _ k   => k == 1
  | .ws _     => false
  | .tick     => false
  | .sckHigh  => false
  | .sckLow _ => false

/-- The next port event is the drive of a word's first bit. -/
def I2sUnit.startsWord (p : Params) (u : I2sUnit) : Bool :=
  match u.io.seq with
  | .idle        => false
  | .running _ i => (u.actAt p i).any I2sAct.firstBit

/-- `bit_offset` is set to 0 at the start of every word, which is after the drive of WS that a frame may make before it
(rules R91, R93, R94). That this happens with the port event before the word is log 10. -/
def I2sUnit.enterWord (p : Params) (u : I2sUnit) : I2sUnit :=
  { u with cur := { u.cur with bitOffset := if u.startsWord p then 0 else u.cur.bitOffset } }

/-- One port event of a frame or prologue, with what it does to the registers (rules R89 to R96). -/
def I2sUnit.perform (p : Params) (a : I2sAct) (u : I2sUnit) : EventEnd I2sUnit :=
  match a with
  | .ws v      => u.io.tryDrive .i2sWs v (fun io l => { u with io := io, lvlWs := l })
  | .sd side k =>
    u.io.tryDrive .i2sSd (bitAt u.cur.n (u.cur.word side) k)
      (fun io l => { u with io := io, lvlSd := l })
  | .tick      => u.io.tryWait .i2s p (fun io => { u with io := io }) (fun io => { u with io := io })
  | .sckHigh   => u.io.tryDrive .i2sSck true (fun io l => { u with io := io, lvlSck := l })
  | .sckLow k  =>
    u.io.tryDrive .i2sSck false
      (fun io l => { u with io := io, lvlSck := l, cur := { u.cur with bitOffset := k } })

/-! ### From frame to frame -/

/-- The command ends: `SEQ` is IDLE and the cursor is discarded, so its registers are free values (rules R43, R44, R152). -/
def I2sUnit.finish (o : CmdOutcome) (u : I2sUnit) : I2sUnit :=
  { u with
    io  := u.io.close o 2
    cur := ⟨Config.freeWidth .i2s u.io.fresh, Config.freeNat .i2s u.io.fresh, Config.freeSlot .i2s u.io.fresh,
            Config.freeSlot .i2s (u.io.fresh + 1), Config.freeNat .i2s (u.io.fresh + 1)⟩ }

/-- The words of a frame become the current pair (rules R87, R95, R97). `bit_offset` is 0 where the frame opens with the left
word, and stays as it is where a drive of WS comes first (rules R93, R94): then it is `N` of the word before, or in a command's
first frame the free value of `I2sUnit.begin` (log 20). -/
def I2sUnit.load (p : Params) (l r : Slot) (u : I2sUnit) : I2sUnit :=
  I2sUnit.enterWord p { u with cur := { u.cur with uL := wordPattern u.cur.n l, uR := wordPattern u.cur.n r } }

/-- The start of frame `frame`, or the end of the command: no port event (rules R46, R48, R95, R97). -/
def I2sUnit.startFrame (p : Params) (cmd : I2sRun) (u : I2sUnit) : I2sUnit :=
  match cmd with
  | .write =>
    match u.seqL[u.cur.frame]?, u.seqR[u.cur.frame]? with
    | some l, some r => u.load p l r
    | _, _           => u.finish .ok
  | .writeStream =>
    let a := pull .left u.prodL
    match a.1 with
    | none   => I2sUnit.finish .ok { u with prodL := a.2 }
    | some l =>
      let b := pull .right u.prodR
      match b.1 with
      | none   => I2sUnit.finish .ok { u with prodL := a.2, prodR := b.2 }
      | some r => I2sUnit.load p l r { u with prodL := a.2, prodR := b.2 }

/-- After the port event at position `i`: the next one, and where the prologue or a frame is over, the next frame
(rules R32, R95, R97). -/
def I2sUnit.advance (p : Params) (cmd : I2sRun) (i : Nat) (u : I2sUnit) : I2sUnit :=
  let v := { u with io := u.io.goto cmd (i + 1) }
  if i + 1 = (prologueActs p u.mode).length then v.startFrame p cmd
  else if i + 1 = u.frameStart p + (frameActs p u.mode u.cur.n).length then
    I2sUnit.startFrame p cmd { v with cur := { v.cur with frame := v.cur.frame + 1 } }
  else v.enterWord p

/-- The next port event of the running command (rules R32, R58); nothing outside a command (rule R17). -/
def I2sUnit.event (p : Params) (u : I2sUnit) : Except Fault I2sUnit :=
  match u.io.seq with
  | .idle          => .ok u
  | .running cmd i =>
    match u.actAt p i with
    | none   => .ok (u.finish .ok)
    | some a => (u.perform p a).settle (I2sUnit.advance p cmd i) I2sUnit.finish

/-- A transfer command starts: the cursor is set up, and without a prologue the first frame starts at once
(rules R44, R95, R96, R97). Rules R95 and R97 set `N` and `frame` alone, and where a drive of WS comes first no rule gives
`bit_offset` a value before it: a free value in the range of rule R28, DESIGN CHOICE (log 20). -/
def I2sUnit.begin (p : Params) (cmd : I2sRun) (n : Width) (u : I2sUnit) : I2sUnit :=
  let v :=
    { u with
      io  := u.io.start cmd
      cur := { u.cur with n := n, frame := 0, bitOffset := Config.freeOffset u.io.fresh % (widthBits n + 1) } }
  if (prologueActs p u.mode).length = 0 then v.startFrame p cmd else v

/-! ### The commands -/

/-- `I2S.INIT` (rule R86). -/
def execI2sInit (mode : BitVec 1) (s : State) : Host.Outcome State Fault Refusal :=
  unlessRefused (s.i2s.io.refusal true)
    { s with i2s := { s.i2s with io := { s.i2s.io.close .ok 0 with life := .configured }, mode := i2sModeOf mode } }

/-- Unequal lengths are refused (rules R46, R95, R148). -/
def I2sUnit.lengthRefusal (u : I2sUnit) : Option Refusal :=
  if u.seqL.length = u.seqR.length then none else some .lengthMismatch

/-- `I2S.WRITE` (rule R95), with the refusals in the order of rule R148. -/
def execI2sWrite (wid : BitVec 2) (s : State) : Host.Outcome State Fault Refusal :=
  match widthOf wid with
  | none   => .refused .reservedEncoding
  | some n =>
    unlessRefused ((s.i2s.io.refusal false).or s.i2s.lengthRefusal) { s with i2s := s.i2s.begin s.params .write n }

/-- `I2S.WRITE_STREAM` (rule R97). -/
def execI2sWriteStream (wid : BitVec 2) (s : State) : Host.Outcome State Fault Refusal :=
  match widthOf wid with
  | none   => .refused .reservedEncoding
  | some n => unlessRefused (s.i2s.io.refusal false) { s with i2s := s.i2s.begin s.params .writeStream n }

/-- `I2S.RELEASE` (rules R42, R99): `MODE` becomes unspecified, a free value. -/
def execI2sRelease (s : State) : Host.Outcome State Fault Refusal :=
  unlessRefused (s.i2s.io.refusal false)
    { s with i2s := { s.i2s with
        io   := { s.i2s.io.close .ok 1 with life := .unconfigured }
        mode := Config.freeMode s.i2s.io.fresh } }

end Sys2Proof.Machine
end

