-- ==== Sys2Proof/Machine/Spi.lean ====
section
/-! DEFINITION. The SPI mode sequencer and full-duplex byte shifter: construction, the four mode sequences, the commands
and the release (42_spi.md). -/

namespace Sys2Proof.Machine

/-- `Seq0` to `Seq3`, by `{CPOL, CPHA}` (rules R126 to R129). -/
def modeSeq (cpol cpha : Bool) : List SpiAct :=
  match cpol, cpha with
  | false, false => [.tick, .sck true, .sample, .tick, .sck false]
  | false, true  => [.sck true, .tick, .sample, .sck false, .tick]
  | true, false  => [.tick, .sck false, .sample, .tick, .sck true]
  | true, true   => [.sck false, .tick, .sample, .sck true, .tick]

/-- The port events of `SPI.SEND` (rule R133). -/
def spiSendActs (cpol cpha : Bool) (byte : Byte) : List SpiAct :=
  (List.range' 0 8).flatMap (fun i => .mosi byte i :: modeSeq cpol cpha)

/-- The port events of a running command (rule R32). -/
def SpiUnit.acts (cmd : SpiRun) (u : SpiUnit) : List SpiAct :=
  match cmd with
  | .init bo mode2 => [.construct bo mode2]
  | .send byte     => spiSendActs u.cpol u.cpha byte

/-- What a successful construction writes (rules R40, R122). -/
def SpiUnit.constructed (p : Params) (bo mode2 : BitVec 2) (u : SpiUnit) : SpiUnit :=
  SpiUnit.clearReceived
    { u with
      io       := { u.io with life := .configured }
      cpol     := cpolOf mode2
      cpha     := cphaOf mode2
      bitOrder := initBitOrder p bo }

/-- `try Drive(SCK, v)` (rules R122, R126 to R129). -/
def SpiUnit.driveSck (v : Bool) (u : SpiUnit) : EventEnd SpiUnit :=
  u.io.tryDrive .spiSck v (fun io l => { u with io := io, lvlSck := l })

/-- `try Drive(MOSI, v)` (rule R133). -/
def SpiUnit.driveMosi (v : Bool) (u : SpiUnit) : EventEnd SpiUnit :=
  u.io.tryDrive .spiMosi v (fun io l => { u with io := io, lvlMosi := l })

/-- One port event of an SPI command, with what it does to the registers (rules R122 to R133). -/
def SpiUnit.perform (p : Params) (a : SpiAct) (u : SpiUnit) : EventEnd SpiUnit :=
  match a with
  | .construct bo mode2 => (u.driveSck (cpolOf mode2)).andThen (SpiUnit.constructed p bo mode2)
  | .mosi byte i        => u.driveMosi (txBit u.bitOrder byte i)
  | .sck v              => u.driveSck v
  | .tick               => u.io.tryWait .spi p (fun io => { u with io := io }) (fun io => { u with io := io })
  | .sample             =>
    u.io.trySample .spiMiso u.miso (fun io ds => { u with io := io, miso := ds }) (fun v u => .done (u.takeBit v))

/-- The command ends: `SEQ` is IDLE and the transient registers are discarded, so they are free values (rules R43, R44,
R132, R152). -/
def SpiUnit.finish (o : CmdOutcome) (u : SpiUnit) : SpiUnit :=
  { u with
    io     := u.io.close o 1
    rxacc  := Config.freeByte .spi u.io.fresh
    bitcnt := Config.freeCount .spi u.io.fresh }

/-- After the port event at position `i`: the next one, or the end of the command (rule R32). -/
def SpiUnit.advance (cmd : SpiRun) (i : Nat) (u : SpiUnit) : SpiUnit :=
  if i + 1 < (u.acts cmd).length then { u with io := u.io.goto cmd (i + 1) } else u.finish .ok

/-- The next port event of the running command (rules R32, R58); nothing outside a command (rule R17). -/
def SpiUnit.event (p : Params) (u : SpiUnit) : Except Fault SpiUnit :=
  match u.io.seq with
  | .idle          => .ok u
  | .running cmd i =>
    match (u.acts cmd)[i]? with
    | none   => .ok (u.finish .ok)
    | some a => (u.perform p a).settle (SpiUnit.advance cmd i) SpiUnit.finish

/-! ### The commands -/

/-- `SPI.INIT` (rule R122): the unit is to drive `SCK`, and it is constructed when that drive succeeds. -/
def execSpiInit (bo mode2 : BitVec 2) (s : State) : Host.Outcome State Fault Refusal :=
  if boOk bo then
    unlessRefused (s.spi.io.refusal true) { s with spi := { s.spi with io := s.spi.io.start (.init bo mode2) } }
  else .refused .reservedEncoding

/-- `SPI.SEND` (rule R133). -/
def execSpiSend (byte : Byte) (s : State) : Host.Outcome State Fault Refusal :=
  unlessRefused (s.spi.io.refusal false)
    { s with spi := { s.spi with io := s.spi.io.start (.send byte), rxacc := 0#8, bitcnt := 0#4 } }

/-- `SPI.READ` (rules R136, R151): no port event and no register changes. -/
def execSpiRead (s : State) : Host.Outcome State Fault Refusal :=
  unlessRefused (s.spi.io.refusal false) { s with spi := { s.spi with io := s.spi.io.close s.spi.received 0 } }

/-- `SPI.SET_BIT_ORDER` (rule R137). -/
def execSpiSetBitOrder (bo1 : BitVec 1) (s : State) : Host.Outcome State Fault Refusal :=
  unlessRefused (s.spi.io.refusal false)
    { s with spi := { s.spi with io := s.spi.io.close .ok 0, bitOrder := bitOrderOf bo1 } }

/-- What a release leaves unspecified, a free value each; `RXVALID` is 0 (rules R42, R138). -/
def SpiUnit.released (u : SpiUnit) : SpiUnit :=
  SpiUnit.clearReceived
    { u with
      io       := { u.io.close .ok 2 with life := .unconfigured }
      cpol     := Config.freeBit .spi u.io.fresh
      cpha     := Config.freeBit .spi (u.io.fresh + 1)
      bitOrder := Config.freeBitOrder u.io.fresh }

/-- `SPI.RELEASE` (rule R138). -/
def execSpiRelease (s : State) : Host.Outcome State Fault Refusal :=
  unlessRefused (s.spi.io.refusal false) { s with spi := s.spi.released }

end Sys2Proof.Machine
end

