-- ==== Sys2Proof/Machine/Uart.lean ====
section
/-! DEFINITION. The UART bit encoder/decoder: construction, the port events of a sent and of a received frame, the commands
and the release (41_uart.md). -/

namespace Sys2Proof.Machine

/-- The port events of `UART.WRITE` (rule R110). -/
def uartWriteActs : List UartAct :=
  [.start, .tick] ++ (List.replicate 8 [UartAct.data, UartAct.shiftTick]).flatten ++ [.stop, .tick]

/-- The port events of `UART.READ` from the sample that reads low (rules R113, R114). -/
def uartReadActs : List UartAct :=
  [.poll, .openTick] ++ (List.replicate 8 [UartAct.sample, UartAct.countTick]).flatten ++ [.tick]

/-- The port events of a running command (rule R32). -/
def uartActs : UartRun → List UartAct
  | .write _ => uartWriteActs
  | .read    => uartReadActs

/-- `WaitU()` (rule R109), with what the registers do when the wait ends and the command goes on. -/
def UartUnit.wait (p : Params) (after : UartUnit → UartUnit) (u : UartUnit) : EventEnd UartUnit :=
  u.io.tryWait .uart p (fun io => after { u with io := io }) (fun io => { u with io := io })

/-- `try Drive(TX, v)` (rule R110). -/
def UartUnit.driveTx (v : Bool) (u : UartUnit) : EventEnd UartUnit :=
  u.io.tryDrive .uartTx v (fun io l => { u with io := io, lvlTx := l })

/-- `try Sample(RX)` (rules R113, R114). -/
def UartUnit.sampleRx (use : Bool → UartUnit → EventEnd UartUnit) (u : UartUnit) : EventEnd UartUnit :=
  u.io.trySample .uartRx u.rx (fun io ds => { u with io := io, rx := ds }) use

/-- After a data bit: `TXSR` shifts right by one and one more bit is counted (rules R31, R110). -/
def UartUnit.shiftOut (u : UartUnit) : UartUnit := { u with txsr := u.txsr >>> 1, bitcnt := u.bitcnt + 1#4 }

/-- One port event of a UART command, with what it does to the registers (rules R108 to R116). -/
def UartUnit.perform (p : Params) (a : UartAct) (u : UartUnit) : EventEnd UartUnit :=
  match a with
  | .start     => u.driveTx false
  | .data      => u.driveTx (u.txsr.getLsbD 0)
  | .stop      => u.driveTx true
  | .poll      => u.sampleRx (fun v u => if v then .again u else .done u)
  | .sample    => u.sampleRx (fun v u => .done { u with rxacc := assemble p.uartRxOrder u.rxacc v })
  | .tick      => u.wait p id
  | .shiftTick => u.wait p UartUnit.shiftOut
  | .openTick  => u.wait p (fun u => { u with rxacc := 0#8 })
  | .countTick => u.wait p (fun u => { u with bitcnt := u.bitcnt + 1#4 })

/-- The command ends: `SEQ` is IDLE and the transient registers are discarded, so they are free values (rules R43, R44,
R152). -/
def UartUnit.finish (o : CmdOutcome) (u : UartUnit) : UartUnit :=
  { u with
    io     := u.io.close o 2
    txsr   := Config.freeByte .uart u.io.fresh
    rxacc  := Config.freeByte .uart (u.io.fresh + 1)
    bitcnt := Config.freeCount .uart u.io.fresh }

/-- The outcome of a command whose events are over: the byte received for `UART.READ` (rules R110, R114). -/
def UartUnit.outcome (cmd : UartRun) (u : UartUnit) : CmdOutcome :=
  match cmd with
  | .write _ => .ok
  | .read    => .okByte u.rxacc

/-- After the port event at position `i`: the next one, or the end of the command (rule R32). -/
def UartUnit.advance (cmd : UartRun) (i : Nat) (u : UartUnit) : UartUnit :=
  if i + 1 < (uartActs cmd).length then { u with io := u.io.goto cmd (i + 1) } else u.finish (u.outcome cmd)

/-- The next port event of the running command (rules R32, R58); nothing outside a command (rule R17). -/
def UartUnit.event (p : Params) (u : UartUnit) : Except Fault UartUnit :=
  match u.io.seq with
  | .idle          => .ok u
  | .running cmd i =>
    match (uartActs cmd)[i]? with
    | none   => .ok (u.finish (u.outcome cmd))
    | some a => (u.perform p a).settle (UartUnit.advance cmd i) UartUnit.finish

/-! ### The commands -/

/-- `UART.INIT` (rule R107). -/
def execUartInit (s : State) : Host.Outcome State Fault Refusal :=
  unlessRefused (s.uart.io.refusal true)
    { s with uart := { s.uart with io := { s.uart.io.close .ok 0 with life := .configured } } }

/-- `UART.WRITE` (rule R110). -/
def execUartWrite (byte : Byte) (s : State) : Host.Outcome State Fault Refusal :=
  unlessRefused (s.uart.io.refusal false)
    { s with uart := { s.uart with io := s.uart.io.start (.write byte), txsr := byte, bitcnt := 0#4 } }

/-- `UART.READ` (rule R114). -/
def execUartRead (s : State) : Host.Outcome State Fault Refusal :=
  unlessRefused (s.uart.io.refusal false)
    { s with uart := { s.uart with io := s.uart.io.start .read, bitcnt := 0#4 } }

/-- `UART.RELEASE` (rules R42, R119). -/
def execUartRelease (s : State) : Host.Outcome State Fault Refusal :=
  unlessRefused (s.uart.io.refusal false)
    { s with uart := { s.uart with io := { s.uart.io.close .ok 0 with life := .unconfigured } } }

end Sys2Proof.Machine
end

