-- ==== Sys2Proof/Machine/Dispatch.lean ====
section
/-! DEFINITION. The one match from a command to its meaning, an arm per row of spec/opcode_table.json. -/

namespace Sys2Proof.Machine

/-- The host gives a unit one command (rule R16): what the unit does before the command's first port event, which for a
command without port events is all of it. -/
def exec (i : Instr) (s : State) : Host.Outcome State Fault Refusal :=
  match i with
  | .i2sInit mode => Sys2Proof.Machine.execI2sInit mode s
  | .i2sWrite wid => Sys2Proof.Machine.execI2sWrite wid s
  | .i2sWriteStream wid => Sys2Proof.Machine.execI2sWriteStream wid s
  | .i2sRelease => Sys2Proof.Machine.execI2sRelease s
  | .uartInit => Sys2Proof.Machine.execUartInit s
  | .uartWrite byte => Sys2Proof.Machine.execUartWrite byte s
  | .uartRead => Sys2Proof.Machine.execUartRead s
  | .uartRelease => Sys2Proof.Machine.execUartRelease s
  | .spiInit bo mode2 => Sys2Proof.Machine.execSpiInit bo mode2 s
  | .spiSend byte => Sys2Proof.Machine.execSpiSend byte s
  | .spiRead => Sys2Proof.Machine.execSpiRead s
  | .spiSetBitOrder bo1 => Sys2Proof.Machine.execSpiSetBitOrder bo1 s
  | .spiRelease => Sys2Proof.Machine.execSpiRelease s

end Sys2Proof.Machine
end

