-- ==== Sys2Proof/Machine/Turn.lean ====
section
/-! DEFINITION. The turns a step is made of: a unit's port event, the host's next command with its operands (rules R15, R16,
R58, R59), and how a command word is put before the host. -/

namespace Sys2Proof.Machine

/-- A command runs on the unit (rule R32). -/
def State.busy (s : State) : UnitId → Bool
  | .i2s  => !s.i2s.io.seq.isIdle
  | .uart => !s.uart.io.seq.isIdle
  | .spi  => !s.spi.io.seq.isIdle

/-- Who moves: `auto` is the first unit that runs a command, and the host when none does (rule R59, log 4). -/
def State.mover (s : State) : Turn → Option UnitId
  | .host   => none
  | .unit u => some u
  | .auto   =>
    if s.busy .i2s then some .i2s else if s.busy .uart then some .uart else if s.busy .spi then some .spi else none

/-- A unit's event makes the next state, or the unit is stuck. -/
def afterEvent {α : Type} (put : α → State) : Except Fault α → Host.Outcome State Fault Refusal
  | .ok x    => .next (put x)
  | .error f => .fault f

/-- The unit's next port event (rule R58). No other unit's state takes part (rules R3, R25). -/
def unitTurn (u : UnitId) (s : State) : Host.Outcome State Fault Refusal :=
  match u with
  | .i2s  => afterEvent (fun x => { s with i2s := x }) (s.i2s.event s.params)
  | .uart => afterEvent (fun x => { s with uart := x }) (s.uart.event s.params)
  | .spi  => afterEvent (fun x => { s with spi := x }) (s.spi.event s.params)

/-- `k` port events of one unit, stopping at the first fault. -/
def runUnit (u : UnitId) : Nat → State → Host.Outcome State Fault Refusal
  | 0, s     => .next s
  | k + 1, s =>
    match unitTurn u s with
    | .next t    => runUnit u k t
    | .fault f   => .fault f
    | .refused r => .refused r

/-- The out-of-band operands reach the unit with the command that takes them (rules R46, R48, R72, R73). Each command brings
producers of its own: whether a producer handed to two streams goes on where the first left it no rule says, and here the second
stream pulls from what its own command carries. DESIGN CHOICE (log 15). -/
def State.handOver (i : Instr) (c : HostCmd) (s : State) : State :=
  match i with
  | .i2sWrite _       => { s with i2s := { s.i2s with seqL := c.left, seqR := c.right } }
  | .i2sWriteStream _ => { s with i2s := { s.i2s with prodL := c.prodL, prodR := c.prodR } }
  | _                 => s

/-- The host's turn: it issues its next command, unless the command's unit still runs one, for whose outcome it waits
(rules R16, R77, R148). A reserved word is refused at once, also where its `UNIT` names a unit that runs a command: the host
does not wait for that unit's outcome. DESIGN CHOICE (log 7): no rule says when such a word is refused. -/
def hostTurn (s : State) : Host.Outcome State Fault Refusal :=
  match s.host with
  | []      => .next s
  | c :: cs =>
    match decode c.word with
    | .error _ => .refused .reservedEncoding
    | .ok i    => if s.busy i.unit then .next s else exec i (State.handOver i c { s with host := cs })

/-- The agent whose turn it is moves (rules R15, R59). -/
def takeTurn (t : Turn) (s : State) : Host.Outcome State Fault Refusal :=
  match s.mover t with
  | none   => hostTurn s
  | some u => unitTurn u s

/-- A command word without operands: empty sequences, producers that yield nothing. -/
def HostCmd.ofWord (c : CmdWord) : HostCmd := ⟨c, [], [], .empty, .empty⟩

/-- No command runs on the unit. -/
def State.idleUnit (u : UnitId) (s : State) : State :=
  match u with
  | .i2s  => { s with i2s := { s.i2s with io := { s.i2s.io with seq := .idle } } }
  | .uart => { s with uart := { s.uart with io := { s.uart.io with seq := .idle } } }
  | .spi  => { s with spi := { s.spi with io := { s.spi.io with seq := .idle } } }

/-- The host's next command is the command word `c`, it is the host's turn, and the unit the word is for is IDLE. -/
def State.withCommandWord (c : CmdWord) (s : State) : State :=
  let s' : State :=
    { s with host := HostCmd.ofWord c :: s.host, sched := ⟨.host :: s.sched.script, s.sched.rest⟩ }
  match decode c with
  | .ok i    => s'.idleUnit i.unit
  | .error _ => s'

end Sys2Proof.Machine
end

