-- ==== Sys2Proof/Machine/Step.lean ====
section
/-! DEFINITION. One step of the whole machine (rules R15, R16, R58, R59). There is no instruction memory (rule R61): the next
command is the first of `State.host`. -/

namespace Sys2Proof.Machine

/-- One step: a turn is taken from the schedule, and the agent whose turn it is moves (rules R15, R59). -/
def step (s : State) : Host.Outcome State Fault Refusal :=
  let d := s.sched.next Config.freeTurn
  takeTurn d.1 { s with sched := d.2 }

/-- The state whose next step issues the command word `w` of `nbits` bits (log 1). -/
def State.withFetchWord (s : State) (nbits w : Nat) : State := s.withCommandWord (tableWord nbits w)

end Sys2Proof.Machine
end

