-- ==== Sys2Proof/Machine/Assembler.lean ====
section
/-! DEFINITION. The assembler of rules R81 to R83: lines, the commands they stand for, the pseudo-instructions. -/

namespace Sys2Proof.Machine

/-- One line of assembler: the commands of rule R81 and the pseudo-instructions of rule R82 whose operands can be written. -/
inductive Asm where
  | i2sInit (mode : I2sMode)
  | i2sWrite (n : Width) (l r : List Int)
  | i2sWriteStream (n : Width) (pl pr : Producer)
  | i2sRelease
  | uartInit
  | uartWrite (imm8 : Byte)
  | uartRead
  | uartRelease
  | spiInit (k : BitVec 2) (bo : Option BitOrder)
  | spiSend (imm8 : Byte)
  | spiRead
  | spiSetBitOrder (bo : BitOrder)
  | spiRelease
  | i2sFrame (n : Width) (l r : Int)
  | spiTransfer (imm8 : Byte)
deriving DecidableEq, Repr

/-- `WID` of a width (rule R67). -/
def widOf : Width → BitVec 2
  | .w8  => 0#2
  | .w16 => 1#2
  | .w32 => 2#2

/-- The bit of `MODE` (rule R66). -/
def modeBit : I2sMode → BitVec 1
  | .standardI2s   => 0#1
  | .leftJustified => 1#1

/-- The bit of `BO1` (rule R70). -/
def orderBit : BitOrder → BitVec 1
  | .msbFirst => 0#1
  | .lsbFirst => 1#1

/-- `BO` of construction: 0 when omitted, 1 for msb, 2 for lsb (rules R69, R81). -/
def orderField : Option BitOrder → BitVec 2
  | none           => 0#2
  | some .msbFirst => 1#2
  | some .lsbFirst => 2#2

/-- A list element fits the width as a signed or unsigned number (rule R83). -/
def fits (n : Width) (w : Int) : Bool := -(2 ^ (widthBits n - 1) : Int) ≤ w && w < (2 ^ widthBits n : Int)

/-- The 32-bit slot of a word (rules R47, R72). -/
def slotOf (w : Int) : Slot := BitVec.ofInt 32 w

/-- The command of an instruction without out-of-band operands. -/
def plainCmd (i : Instr) : HostCmd := ⟨encode i, [], [], .empty, .empty⟩

/-- `i2s.write` with the sequences given; an element that does not fit is an assembler error (rules R72, R83). -/
def writeCmd (n : Width) (l r : List Int) : Option HostCmd :=
  if l.all (fits n) && r.all (fits n) then
    some { plainCmd (.i2sWrite (widOf n)) with left := l.map slotOf, right := r.map slotOf }
  else none

/-- The commands a line stands for, or `none` for an assembler error (rules R81, R82, R83). -/
def assembleLine : Asm → Option (List HostCmd)
  | .i2sInit mode           => some [plainCmd (.i2sInit (modeBit mode))]
  | .i2sWrite n l r         => (writeCmd n l r).map (fun c => [c])
  | .i2sWriteStream n pl pr => some [{ plainCmd (.i2sWriteStream (widOf n)) with prodL := pl, prodR := pr }]
  | .i2sRelease             => some [plainCmd .i2sRelease]
  | .uartInit               => some [plainCmd .uartInit]
  | .uartWrite b            => some [plainCmd (.uartWrite b)]
  | .uartRead               => some [plainCmd .uartRead]
  | .uartRelease            => some [plainCmd .uartRelease]
  | .spiInit k bo           => some [plainCmd (.spiInit (orderField bo) k)]
  | .spiSend b              => some [plainCmd (.spiSend b)]
  | .spiRead                => some [plainCmd .spiRead]
  | .spiSetBitOrder bo      => some [plainCmd (.spiSetBitOrder (orderBit bo))]
  | .spiRelease             => some [plainCmd .spiRelease]
  | .i2sFrame n l r         => (writeCmd n [l] [r]).map (fun c => [c])
  | .spiTransfer b          => some [plainCmd (.spiSend b), plainCmd .spiRead]

/-- The commands of a program, or `none` if a line is an assembler error. -/
def assembleProgram : List Asm → Option (List HostCmd)
  | []      => some []
  | a :: as => (assembleLine a).bind (fun cs => (assembleProgram as).map (fun ds => cs ++ ds))

/-- `uart.echo`, first command (rule R82). -/
def echoRead : HostCmd := plainCmd .uartRead

/-- `uart.echo`, second command: the host forwards the byte the read returned (rule R82). -/
def echoWrite : CmdOutcome → Option HostCmd
  | .okByte b     => some (plainCmd (.uartWrite b))
  | .ok           => none
  | .busError _   => none
  | .timerError _ => none
  | .noData       => none

/-! ### Written form (rule R81) -/

/-- A word list `{w, w, ...}`. -/
def listText (ws : List Int) : String :=
  String.singleton (Char.ofNat 123) ++ String.intercalate ", " (ws.map toString) ++ String.singleton (Char.ofNat 125)

/-- `w8`, `w16` or `w32`. -/
def widthText (n : Width) : String := "w" ++ toString (widthBits n)

/-- `std` or `lj`. -/
def modeText : I2sMode → String
  | .standardI2s   => "std"
  | .leftJustified => "lj"

/-- `msb` or `lsb`. -/
def orderText : BitOrder → String
  | .msbFirst => "msb"
  | .lsbFirst => "lsb"

/-- The written form of a line (rules R81, R82), bytes in decimal. -/
def Asm.text : Asm → String
  | .i2sInit mode         => "i2s.init " ++ modeText mode
  | .i2sWrite n l r       => "i2s.write " ++ widthText n ++ ", " ++ listText l ++ ", " ++ listText r
  | .i2sWriteStream n _ _ => "i2s.write_stream " ++ widthText n ++ ", <PL>, <PR>"
  | .i2sRelease           => "i2s.release"
  | .uartInit             => "uart.init"
  | .uartWrite b          => "uart.write " ++ toString b.toNat
  | .uartRead             => "uart.read"
  | .uartRelease          => "uart.release"
  | .spiInit k none       => "spi.init mode" ++ toString k.toNat
  | .spiInit k (some bo)  => "spi.init mode" ++ toString k.toNat ++ ", " ++ orderText bo
  | .spiSend b            => "spi.send " ++ toString b.toNat
  | .spiRead              => "spi.read"
  | .spiSetBitOrder bo    => "spi.set_bit_order " ++ orderText bo
  | .spiRelease           => "spi.release"
  | .i2sFrame n l r       => "i2s.frame " ++ widthText n ++ ", " ++ toString l ++ ", " ++ toString r
  | .spiTransfer b        => "spi.transfer " ++ toString b.toNat

end Sys2Proof.Machine
end

