-- ==== Sys2Proof/Machine/Timing.lean ====
section
/-! DEFINITION. The timer as far as the spec speaks of time: the tick period, the ticks of a bit and of a frame, when a wait
returns, where a serial sample falls. No rule of the trace semantics reads any of it (rules R178, R188). Times are natural
numbers of one unit that divides every period: DESIGN CHOICE (log 12). -/

namespace Sys2Proof.Machine

/-- `T_TICK > 0` of a unit's timer (rules R10, R21). -/
def tickPeriod (u : UnitId) : Nat := Config.tickPeriodPred u + 1

/-- The ticks of one bit (rule R186). -/
def bitTicks : UnitId → Nat
  | .i2s  => 2
  | .uart => 1
  | .spi  => 2

/-- How long a bit lasts, the first of a command apart (rules R175, R176, R186). -/
def bitTime (u : UnitId) : Nat := bitTicks u * tickPeriod u

/-- How long an I2S frame of words of `n` bits lasts (rule R175). -/
def i2sFrameTime (n : Nat) : Nat := 4 * n * tickPeriod .i2s

/-- How long a serial frame lasts (rule R176). -/
def uartFrameTime : Nat := 10 * tickPeriod .uart

/-- How long an SPI byte lasts (rule R176). -/
def spiByteTime : Nat := 16 * tickPeriod .spi

/-- The first tick after time `t` of a timer of period `T` that ticks at `φ`, `φ + T`, and so on, for `φ < T` (rule R21). A tick
at `t` itself is not it: DESIGN CHOICE (log 12). -/
def nextTickAfter (T φ t : Nat) : Nat := t + (T - (t + T - φ) % T)

/-- When a `WaitTick` called at `now` returns, the last one having returned at `last` (rules R177, R178): at the next tick, or
with `Latched` at once if a tick came since. Rule R177 leaves open what a tick at the instant of the call does. Here it does not
end a `NextEdge` wait, and it has already come for a `Latched` one; a tick at `last` ended the wait before: DESIGN CHOICE
(log 12). -/
def waitReturn (latch : TickLatch) (T φ last now : Nat) : Nat :=
  match latch with
  | .nextEdge => nextTickAfter T φ now
  | .latched  => if nextTickAfter T φ last ≤ now then now else nextTickAfter T φ now

/-- When a serial read takes sample `k`: the poll sees the start edge of time 0 at `ε`, and the first wait returns `δ` later
(rule R183). -/
def uartSampleTime (T ε δ k : Nat) : Nat := ε + δ + k * T

/-- The bit of a peer's frame at a time after its start edge: 0 is the start bit, `i + 1` is data bit `i` (rule R183). -/
def peerBitAt (T t : Nat) : Nat := t / T

end Sys2Proof.Machine
end

