-- ==== Sys2Proof/Machine/Trace.lean ====
section
/-! DEFINITION. What the environment sees of a trace (rule R13): ticks, slots, line levels and edges (rule R26), and the trace
macros of the spec, written from its rules and not from the units' port events. Nothing here is read by the machine. -/

namespace Sys2Proof.Machine

/-! ### Observations -/

/-- The event is a `W`. -/
def Event.isWait : Event → Bool
  | .wait _     => true
  | .drive ..   => false
  | .sample ..  => false

/-- The ticks of a trace: its `W` events (rule R187). -/
def ticksIn (tr : List Event) : Nat := tr.countP Event.isWait

/-- The level of an output line after one event (rule R26). -/
def levelThrough (l : OutLine) (lvl : Level) : Event → Level
  | .drive l' v a => if l' = l then levelAfter v a else lvl
  | .sample ..    => lvl
  | .wait _       => lvl

/-- The level of an output line after a trace that starts at level `lvl` (rule R26). -/
def levelOf (l : OutLine) (lvl : Level) (tr : List Event) : Level := tr.foldl (levelThrough l) lvl

/-- The events up to the end of slot `j`, the `(j+1)`-th `W` left out (rule R13). -/
def upToSlot : Nat → List Event → List Event
  | _, []      => []
  | j, e :: es =>
    if e.isWait then
      match j with
      | 0     => []
      | j + 1 => e :: upToSlot j es
    else e :: upToSlot j es

/-- The level of an output line during slot `j` (rule R13). -/
def slotLevel (l : OutLine) (lvl : Level) (tr : List Event) (j : Nat) : Level := levelOf l lvl (upToSlot j tr)

/-- What a successful drive makes on a line (rule R26): `unknown` where the level before it was X. -/
inductive Edge where
  | rising
  | falling
  | unknown
deriving DecidableEq, Repr

/-- The edge one event makes on an output line at level `lvl` (rule R26). -/
def edgeOf (l : OutLine) (lvl : Level) : Event → Option Edge
  | .drive l' v .ok =>
    if l' = l then
      match lvl, v with
      | .low, true   => some .rising
      | .high, false => some .falling
      | .x, _        => some .unknown
      | .low, false  => none
      | .high, true  => none
    else none
  | .drive _ _ (.err _) => none
  | .sample ..          => none
  | .wait _             => none

/-- The edges a trace makes on an output line that starts at level `lvl` (rule R26). -/
def edgesIn (l : OutLine) : Level → List Event → List Edge
  | _, []        => []
  | lvl, e :: es => (edgeOf l lvl e).toList ++ edgesIn l (levelThrough l lvl e) es

/-! ### The spec's trace macros -/

/-- `D(L,v)` with the answer `ok`. -/
def dOk (l : OutLine) (v : Bool) : Event := .drive l v .ok

/-- `W` with the answer `ok`. -/
def wOk : Event := .wait none

/-- `B(b) = D(SD,b) W D(SCK,1) W D(SCK,0)` (rule R89). -/
def bitTrace (b : Bool) : List Event := [dOk .i2sSd b, wOk, dOk .i2sSck true, wOk, dOk .i2sSck false]

/-- The bits of a word from bit `hi - 1` down to bit `lo`: `B(u[hi-1]) .. B(u[lo])` (rules R88, R93). -/
def bitsTrace (u : Slot) (hi lo : Nat) : List Event :=
  ((List.range' lo (hi - lo)).reverse.map (fun j => bitTrace (u.getLsbD j))).flatten

/-- `B(uL[N-1]) .. B(uL[1]) D(WS,1) B(uL[0]) B(uR[N-1]) .. B(uR[1]) D(WS,0) B(uR[0])` (rule R93). -/
def stdFrameTrace (n : Nat) (l r : Slot) : List Event :=
  bitsTrace l n 1 ++ [dOk .i2sWs true] ++ bitsTrace l 1 0 ++ bitsTrace r n 1 ++ [dOk .i2sWs false] ++ bitsTrace r 1 0

/-- `D(WS,0) B(uL[N-1]) .. B(uL[0]) D(WS,1) B(uR[N-1]) .. B(uR[0])`, without the first drive where WS is driven low once per
command (rule R94). -/
def ljFrameTrace (wsPerFrame : Bool) (n : Nat) (l r : Slot) : List Event :=
  (if wsPerFrame then [dOk .i2sWs false] else []) ++ bitsTrace l n 0 ++ [dOk .i2sWs true] ++ bitsTrace r n 0

/-- The trace of one frame (rules R93, R94). -/
def frameTrace (p : Params) (mode : I2sMode) (n : Width) (l r : Slot) : List Event :=
  match mode with
  | .standardI2s   => stdFrameTrace (widthBits n) l r
  | .leftJustified => ljFrameTrace p.ljWsPerFrame (widthBits n) l r

/-- The prologue's events (rule R96). -/
def prologueTrace (p : Params) (mode : I2sMode) : List Event :=
  if (mode = .leftJustified ∧ p.ljWsPerFrame = false) ∨ (mode = .standardI2s ∧ p.stdWsPrologue = true) then
    [dOk .i2sWs false]
  else []

/-- The trace of an I2S transfer of the given frames (rules R95, R97). -/
def transferTrace (p : Params) (mode : I2sMode) (n : Width) (frames : List (Slot × Slot)) : List Event :=
  prologueTrace p mode ++ (frames.map (fun f => frameTrace p mode n f.1 f.2)).flatten

/-- `D(TX,v) W` (rule R110). -/
def txSlot (v : Bool) : List Event := [dOk .uartTx v, wOk]

/-- `D(TX,0) W D(TX,b0) W ... D(TX,b7) W D(TX,1) W` (rule R110). -/
def uartWriteTrace (b : Byte) : List Event :=
  txSlot false ++ ((List.range' 0 8).map (fun i => txSlot (b.getLsbD i))).flatten ++ txSlot true

/-- `S(L)=v` (rule R13). -/
def sAt (l : InLine) (v : Bool) : Event := .sample l (.level v)

/-- `S(RX)=1` `p` times, then `S(RX)=0 W S(RX)=s0 W ... S(RX)=s7 W W` (rule R114). -/
def uartReadTrace (p : Nat) (s : List Bool) : List Event :=
  List.replicate p (sAt .uartRx true) ++ [sAt .uartRx false, wOk] ++
    (s.map (fun v => [sAt .uartRx v, wOk])).flatten ++ [wOk]

/-- `PK(t,s)`: one SPI bit in the mode given (rules R126 to R129). -/
def spiBitTrace (cpol cpha : Bool) (t s : Bool) : List Event :=
  match cpol, cpha with
  | false, false => [dOk .spiMosi t, wOk, dOk .spiSck true, sAt .spiMiso s, wOk, dOk .spiSck false]
  | false, true  => [dOk .spiMosi t, dOk .spiSck true, wOk, sAt .spiMiso s, dOk .spiSck false, wOk]
  | true, false  => [dOk .spiMosi t, wOk, dOk .spiSck false, sAt .spiMiso s, wOk, dOk .spiSck true]
  | true, true   => [dOk .spiMosi t, dOk .spiSck false, wOk, sAt .spiMiso s, dOk .spiSck true, wOk]

/-- `PK(t_0,s_0) ... PK(t_7,s_7)` (rule R133). -/
def spiSendTrace (cpol cpha : Bool) (t s : List Bool) : List Event :=
  (List.zipWith (spiBitTrace cpol cpha) t s).flatten

end Sys2Proof.Machine
end

