-- ==== Sys2Proof/Safety.lean ====
section
/-! DEFINITION. What counts as a good run (rule R147), the environment in which every port event is answered `ok`, and the
invariants of the machine that claims use: every counter and position in its range, every line level the one of the trace. -/

namespace Sys2Proof.Machine

/-! ### Runs -/

/-- A good run of `k` steps: no refusal and no stuck unit (rule R147). -/
def GoodRun (k : Nat) (s : State) : Prop := ∃ t, Host.Core.run Sys2Proof.core k s = .next t

/-- The state after a refused step: the refused command is gone, nothing else happened (rule R147). -/
def State.dropRefused (s : State) : State :=
  { s with sched := (s.sched.next Config.freeTurn).2, host := s.host.tail }

/-- A run that goes on past refusals, with the marks it collects: the refusals' reasons in order (rule R147). It ends early
where a unit is stuck. -/
def runMarked : Nat → State → State × List Refusal
  | 0, s     => (s, [])
  | k + 1, s =>
    match step s with
    | .next t    => runMarked k t
    | .fault _   => (s, [])
    | .refused r =>
      let m := runMarked k s.dropRefused
      (m.1, r :: m.2)

/-! ### Environments -/

/-- Every answer still to come satisfies `P`. -/
def Draws.All {α : Type} (P : α → Prop) (free : Nat → α) (d : Draws α) : Prop :=
  (∀ a ∈ d.script, P a) ∧
    match d.rest with
    | .free k   => ∀ j, k ≤ j → P (free j)
    | .always a => P a

/-- Every drive and every tick wait of a unit is answered `ok` (rule R187). -/
def UnitIo.AllOk {c : Type} (u : UnitId) (io : UnitIo c) : Prop :=
  io.drives.All (fun a => a = .ok) (Config.freeDrive u) ∧ io.ticks.All (fun a => a = .ok) (freeTick u)

/-- The next `n` samples of a line are answered with the levels given. -/
def Draws.Levels (l : InLine) (vs : List Bool) (d : Draws SampleAnswer) : Prop :=
  d.first (Config.freeSample l.unit) vs.length = vs.map .level

/-! ### Invariants of the units -/

/-- While an I2S command runs: the unit is CONFIGURED, `bit_offset` is at most `N` (rule R28, log 20), the position is in the
prologue before any frame or in the current frame (rule R32), the current pair is a pair of `N`-bit patterns, and for `I2S.WRITE`
the one the sequences have there (rules R46, R95). That the pair is there from a frame's first position on is log 10. -/
def I2sUnit.Inv (p : Params) (u : I2sUnit) : Prop :=
  match u.io.seq with
  | .idle          => True
  | .running cmd i =>
    u.io.life = .configured ∧ u.cur.bitOffset ≤ widthBits u.cur.n ∧
    (cmd = .write → u.seqL.length = u.seqR.length) ∧
    ((i < (prologueActs p u.mode).length ∧ u.cur.frame = 0) ∨
      (u.frameStart p ≤ i ∧ i < u.frameStart p + (frameActs p u.mode u.cur.n).length ∧
        u.cur.uL.toNat < 2 ^ widthBits u.cur.n ∧ u.cur.uR.toNat < 2 ^ widthBits u.cur.n ∧
        (cmd = .write → ∃ l r, u.seqL[u.cur.frame]? = some l ∧ u.seqR[u.cur.frame]? = some r ∧
          u.cur.uL = wordPattern u.cur.n l ∧ u.cur.uR = wordPattern u.cur.n r)))

/-- While a UART command runs: the unit is CONFIGURED, the position is one of the command's port events, `BITCNT` is the number
of data bits done, and `TXSR` is the byte shifted by as many (rules R31, R32, R110, R114). At which event they count is log 10. -/
def UartUnit.Inv (u : UartUnit) : Prop :=
  match u.io.seq with
  | .idle               => True
  | .running (.write b) i =>
    u.io.life = .configured ∧ i < 20 ∧ u.bitcnt.toNat = (i - 2) / 2 ∧ u.txsr = b >>> ((i - 2) / 2)
  | .running .read i    => u.io.life = .configured ∧ i < 19 ∧ u.bitcnt.toNat = (i - 2) / 2

/-- `RXVALID` is 0 on an UNCONFIGURED unit (rules R38, R42); while a send runs, `BITCNT` is the number of samples taken and a
completed byte is in `RXBUF` (rules R30, R131, R132), from the sample on (log 10); a construction is at its one drive
(rule R122). -/
def SpiUnit.Inv (u : SpiUnit) : Prop :=
  (u.io.life = .unconfigured → u.rxvalid = false) ∧
  match u.io.seq with
  | .idle                   => True
  | .running (.init bo _) i => u.io.life = .unconfigured ∧ boOk bo = true ∧ i = 0
  | .running (.send _) i    =>
    u.io.life = .configured ∧ i < 48 ∧ u.bitcnt.toNat = (i + 2) / 6 ∧
      (u.bitcnt = 8#4 → u.rxvalid = true ∧ u.rxbuf = u.rxacc)

/-- The invariant of the machine: no position, counter or flag leaves the range the spec gives it. -/
def State.Inv (s : State) : Prop := s.i2s.Inv s.params ∧ s.uart.Inv ∧ s.spi.Inv

/-- Every `LVL[line]` is the level the unit's trace leaves, from X at power-on (rules R26, R38). -/
def State.LinesFollow (s : State) : Prop :=
  s.i2s.lvlSck = levelOf .i2sSck .x s.i2s.io.trace ∧ s.i2s.lvlSd = levelOf .i2sSd .x s.i2s.io.trace ∧
  s.i2s.lvlWs = levelOf .i2sWs .x s.i2s.io.trace ∧ s.uart.lvlTx = levelOf .uartTx .x s.uart.io.trace ∧
  s.spi.lvlSck = levelOf .spiSck .x s.spi.io.trace ∧ s.spi.lvlMosi = levelOf .spiMosi .x s.spi.io.trace

/-! ### What a unit shows, whichever unit it is -/

/-- The port events of a unit so far (rule R13). -/
def State.traceOf (s : State) : UnitId → List Event
  | .i2s  => s.i2s.io.trace
  | .uart => s.uart.io.trace
  | .spi  => s.spi.io.trace

/-- The outcomes a unit has handed to the host so far (rule R146). -/
def State.outcomesOf (s : State) : UnitId → List CmdOutcome
  | .i2s  => s.i2s.io.outcomes
  | .uart => s.uart.io.outcomes
  | .spi  => s.spi.io.outcomes

/-- The environment's answer to the next tick wait of a unit (rule R21). -/
def State.tickAnswer (s : State) : UnitId → TickAnswer
  | .i2s  => (s.i2s.io.ticks.next (freeTick .i2s)).1
  | .uart => (s.uart.io.ticks.next (freeTick .uart)).1
  | .spi  => (s.spi.io.ticks.next (freeTick .spi)).1

/-- `LIFE` of a unit (rule R24). -/
def State.lifeOf (s : State) : UnitId → Life
  | .i2s  => s.i2s.io.life
  | .uart => s.uart.io.life
  | .spi  => s.spi.io.life

/-- The command constructs its unit (rule R64). -/
def isInit : Instr → Bool
  | .i2sInit _ | .uartInit | .spiInit _ _ => true
  | .i2sWrite _ | .i2sWriteStream _ | .i2sRelease | .uartWrite _ | .uartRead | .uartRelease | .spiSend _ | .spiRead
  | .spiSetBitOrder _ | .spiRelease => false

/-! ### When a command may start -/

/-- The unit takes any command but INIT: no command runs, and it is CONFIGURED (rules R16, R24). -/
def UnitIo.Ready {c : Type} (io : UnitIo c) : Prop := io.seq = .idle ∧ io.life = .configured

/-- The unit takes INIT: no command runs, and it is UNCONFIGURED (rules R16, R24). -/
def UnitIo.Constructible {c : Type} (io : UnitIo c) : Prop := io.seq = .idle ∧ io.life = .unconfigured

/-- The host moves in the next step, and `h` is the command it is about to issue. -/
def State.HostMoves (s : State) (h : HostCmd) (rest : List HostCmd) : Prop :=
  s.host = h :: rest ∧ s.mover (s.sched.next Config.freeTurn).1 = none

/-- The state with one turn taken from its schedule. -/
def State.tookTurn (s : State) : State := { s with sched := (s.sched.next Config.freeTurn).2 }

/-! ### Reserved words, by the numbers of rules R63 to R71 -/

/-- How many low bits of `ARG` the format of a unit's command assigns, and `none` for an `OP` the unit does not list
(rules R65, R75). -/
def argWidth : Nat → Nat → Option Nat
  | 1, 0  => some 1
  | 1, 1  => some 2
  | 1, 2  => some 2
  | 1, 15 => some 0
  | 2, 0  => some 0
  | 2, 1  => some 8
  | 2, 2  => some 0
  | 2, 15 => some 0
  | 3, 0  => some 4
  | 3, 1  => some 8
  | 3, 2  => some 0
  | 3, 3  => some 1
  | 3, 15 => some 0
  | _, _  => none

/-- A clause of rule R77 holds of the word: (a) `UNIT` is reserved, (b) `OP` is not listed, (c) a bit of `ARG` outside the
fields is 1, (d) `WID = 0b11`, (e) `BO = 0b11`. -/
def ReservedWord (c : CmdWord) : Prop :=
  let unit := c.toNat / 2 ^ 28
  let op := c.toNat / 2 ^ 24 % 16
  let arg := c.toNat % 2 ^ 24
  unit = 0 ∨ 4 ≤ unit ∨ argWidth unit op = none ∨ (∃ w, argWidth unit op = some w ∧ 2 ^ w ≤ arg) ∨
    (unit = 1 ∧ (op = 1 ∨ op = 2) ∧ arg % 4 = 3) ∨ (unit = 3 ∧ op = 0 ∧ arg / 4 % 4 = 3)

/-! ### What an I2S transfer sends -/

/-- The producer's next answers are the words `ws`. -/
def Producer.Yields (side : Side) (ws : List Slot) (p : Producer) : Prop :=
  p.first (Config.freePull side) ws.length = ws.map some

/-- The producer's next answers are the words `ws` and then `none`. -/
def Producer.YieldsThenEnds (side : Side) (ws : List Slot) (p : Producer) : Prop :=
  p.first (Config.freePull side) (ws.length + 1) = ws.map some ++ [none]

/-- The frames' words are `l` and `r`, and the producers are `pl` and `pr` afterwards (rules R48, R97): either `PL` ends
first, and `PR` is not pulled again, or `PR` ends first, and one more word of `PL` is pulled and dropped. -/
def I2sUnit.StreamFrames (u : I2sUnit) (l r : List Slot) (pl pr : Producer) : Prop :=
  l.length = r.length ∧
    ((u.prodL.YieldsThenEnds .left l ∧ u.prodR.Yields .right r ∧ pl = .empty ∧
        pr = u.prodR.skip (Config.freePull .right) r.length) ∨
      (∃ x, u.prodL.Yields .left (l ++ [x]) ∧ u.prodR.YieldsThenEnds .right r ∧
        pl = u.prodL.skip (Config.freePull .left) (l.length + 1) ∧ pr = .empty))

/-- The pairs of `N`-bit patterns of two sequences (rules R87, R95). -/
def wordPairs (n : Width) (l r : List Slot) : List (Slot × Slot) :=
  (l.map (wordPattern n)).zip (r.map (wordPattern n))

/-- `i` is a transfer of words of width `n` that sends the frames `fs` (rules R95, R97). -/
def State.I2sTransfer (s : State) (i : Instr) (n : Width) (fs : List (Slot × Slot)) : Prop :=
  match i with
  | .i2sWrite wid       =>
    widthOf wid = some n ∧ s.i2s.seqL.length = s.i2s.seqR.length ∧ fs = wordPairs n s.i2s.seqL s.i2s.seqR
  | .i2sWriteStream wid =>
    widthOf wid = some n ∧ ∃ l r pl pr, s.i2s.StreamFrames l r pl pr ∧ fs = wordPairs n l r
  | .i2sInit _ | .i2sRelease | .uartInit | .uartWrite _ | .uartRead | .uartRelease | .spiInit _ _ | .spiSend _ | .spiRead
  | .spiSetBitOrder _ | .spiRelease => False

/-! ### Events and outcomes -/

/-- The payload of a failed drive or sample (rule R149). -/
def Event.pinError : Event → Option PinError
  | .drive _ _ (.err e)   => some e
  | .sample _ (.err e)    => some e
  | .drive _ _ .ok        => none
  | .sample _ (.level _)  => none
  | .wait _               => none

/-- The level a drive of `MOSI` asks for. -/
def Event.mosiBit : Event → Option Bool
  | .drive .spiMosi v _ => some v
  | .drive _ _ _        => none
  | .sample ..          => none
  | .wait _             => none

/-- The event with the level on `MOSI` left out. -/
def Event.withoutMosi : Event → Event
  | .drive .spiMosi _ a => .drive .spiMosi false a
  | .drive l v a        => .drive l v a
  | .sample l a         => .sample l a
  | .wait f             => .wait f

/-- The outcome is an error of a failed port event (rules R149, R150). -/
def CmdOutcome.isPortError : CmdOutcome → Bool
  | .busError _   => true
  | .timerError _ => true
  | .ok           => false
  | .okByte _     => false
  | .noData       => false

/-- The level of an output line as the state holds it (rule R26). -/
def State.lvl (s : State) : OutLine → Level
  | .i2sSck  => s.i2s.lvlSck
  | .i2sSd   => s.i2s.lvlSd
  | .i2sWs   => s.i2s.lvlWs
  | .uartTx  => s.uart.lvlTx
  | .spiSck  => s.spi.lvlSck
  | .spiMosi => s.spi.lvlMosi

/-- The state with other line levels. -/
def State.relevel (f : OutLine → Level) (s : State) : State :=
  { s with
    i2s  := { s.i2s with lvlSck := f .i2sSck, lvlSd := f .i2sSd, lvlWs := f .i2sWs }
    uart := { s.uart with lvlTx := f .uartTx }
    spi  := { s.spi with lvlSck := f .spiSck, lvlMosi := f .spiMosi } }

/-- The outcome of a step with the next state changed. -/
def mapNext (f : State → State) : Host.Outcome State Fault Refusal → Host.Outcome State Fault Refusal
  | .next s    => .next (f s)
  | .fault e   => .fault e
  | .refused r => .refused r

/-! ### States that differ where the spec leaves a register unspecified (rules R38, R42, R44, R173) -/

/-- Two I2S units that agree but in the cursor while none runs, in its words during the prologue, in `bit_offset` while a drive
of WS is the command's first event (log 20), and in `MODE` while UNCONFIGURED. -/
def I2sUnit.AgreesWith (p : Params) (u v : I2sUnit) : Prop :=
  ∃ mode cur, v = { u with mode := mode, cur := cur } ∧
    (u.io.life = .configured ∨ u.io.seq ≠ .idle → mode = u.mode) ∧
    (∀ cmd i, u.io.seq = .running cmd i →
      cur.n = u.cur.n ∧ cur.frame = u.cur.frame ∧
      (i ≠ 0 ∨ u.actAt p 0 ≠ some (.ws false) → cur.bitOffset = u.cur.bitOffset) ∧
      ((prologueActs p u.mode).length ≤ i → cur.uL = u.cur.uL ∧ cur.uR = u.cur.uR))

/-- Two UART units that agree but in the transient registers the running command does not hold. -/
def UartUnit.AgreesWith (u v : UartUnit) : Prop :=
  ∃ txsr rxacc bitcnt, v = { u with txsr := txsr, rxacc := rxacc, bitcnt := bitcnt } ∧
    (∀ b i, u.io.seq = .running (.write b) i → txsr = u.txsr ∧ bitcnt = u.bitcnt) ∧
    (∀ i, u.io.seq = .running .read i → bitcnt = u.bitcnt ∧ (2 ≤ i → rxacc = u.rxacc))

/-- Two SPI units that agree but in the transient registers while no send runs, in the control fields while UNCONFIGURED,
and in `RXBUF` while `RXVALID` is 0. -/
def SpiUnit.AgreesWith (u v : SpiUnit) : Prop :=
  ∃ cpol cpha bitOrder rxbuf rxacc bitcnt,
    v = { u with
          cpol := cpol, cpha := cpha, bitOrder := bitOrder, rxbuf := rxbuf, rxacc := rxacc, bitcnt := bitcnt } ∧
    (u.io.life = .configured → cpol = u.cpol ∧ cpha = u.cpha ∧ bitOrder = u.bitOrder) ∧
    (u.rxvalid = true → rxbuf = u.rxbuf) ∧
    (∀ b i, u.io.seq = .running (.send b) i → rxacc = u.rxacc ∧ bitcnt = u.bitcnt)

/-- Two states that agree but in registers the spec leaves unspecified. -/
def State.AgreesWith (s t : State) : Prop :=
  s.i2s.AgreesWith s.params t.i2s ∧ s.uart.AgreesWith t.uart ∧ s.spi.AgreesWith t.spi ∧
    t.params = s.params ∧ t.host = s.host ∧ t.sched = s.sched

end Sys2Proof.Machine
end

