-- ==== Sys2Proof/Certificates/Slice0/Obligations.lean ====
section
/-! DEFINITION. The statements for the provers. Each names the rules of spec/ it formalises or rests on. Values the spec leaves
unspecified are bound by an existential: a statement holds whatever they are. -/

section

open Sys2Proof Sys2Proof.Machine

/-! ### Encoding -/

/-- One word of each of the 13 commands, written out from rules R66 to R71. -/
def Obligations.DecodeSpecWords : Prop :=
  decode 0x10000001#32 = .ok (.i2sInit 1#1) ∧ decode 0x11000001#32 = .ok (.i2sWrite 1#2) ∧
  decode 0x12000002#32 = .ok (.i2sWriteStream 2#2) ∧ decode 0x1F000000#32 = .ok .i2sRelease ∧
  decode 0x20000000#32 = .ok .uartInit ∧ decode 0x21000041#32 = .ok (.uartWrite 0x41#8) ∧
  decode 0x22000000#32 = .ok .uartRead ∧ decode 0x2F000000#32 = .ok .uartRelease ∧
  decode 0x30000009#32 = .ok (.spiInit 2#2 1#2) ∧ decode 0x310000A5#32 = .ok (.spiSend 0xA5#8) ∧
  decode 0x32000000#32 = .ok .spiRead ∧ decode 0x33000001#32 = .ok (.spiSetBitOrder 1#1) ∧
  decode 0x3F000000#32 = .ok .spiRelease

/-- Decoding an encoded command gives it back, with every field at every value the encoding admits (rules R65 to R75, R80). -/
def Obligations.DecodeEncode : Prop := ∀ i : Instr, i.wellFormed = true → decode (encode i) = .ok i

/-- A word that decodes is the word of its command, so no two words mean the same command (rules R65, R75, R80). -/
def Obligations.EncodeDecode : Prop :=
  ∀ (c : CmdWord) (i : Instr), decode c = .ok i → encode i = c ∧ i.wellFormed = true

/-- A word with one of the clauses (a) to (e) of rule R77 is refused with `ReservedEncoding`, and no other word is. That the
refusal does not wait where `UNIT` names a unit that runs a command is the model's choice (log 7). -/
def Obligations.ReservedWordsRefused : Prop :=
  ∀ (s : State) (h : HostCmd) (rest : List HostCmd), s.HostMoves h rest →
    (ReservedWord h.word → step s = .refused .reservedEncoding) ∧
    (¬ ReservedWord h.word → ∃ i, decode h.word = .ok i)

/-- No word selects two rows of the opcode map (rule R75). -/
def Obligations.RowsDisjoint : Prop :=
  ∀ (c : CmdWord) (r q : OpRow), r ∈ opcodeMap → q ∈ opcodeMap → r.selects c = true → q.selects c = true →
    r.mnemonic = q.mnemonic ∧ r.pattern = q.pattern ∧ r.mask = q.mask

/-- The serialised operands of `I2S.WRITE` read back as the two sequences (rule R72). The premises hold the lengths to what the
32-bit counts of that rule can say; what is written for a longer sequence is the model's choice (log 21). -/
def Obligations.OperandLayout : Prop :=
  ∀ l r rest : List Slot, l.length < 2 ^ 32 → r.length < 2 ^ 32 →
    (serialiseOperands l r).length = 2 + l.length + r.length ∧
    parseOperands (serialiseOperands l r ++ rest) = some (l, r, rest)

/-- Every line of rules R81 and R82: the command words it stands for with the operands handed over beside them, and what they
decode to; a width suffix and a list element that fits it (rule R83) are premises only where the line has them. The slot of a
word is its two's-complement pattern (log 17), and the assembler is the model's function from lines to commands (log 18). -/
def Obligations.AssembledWordsDecode : Prop :=
  (∀ a : Asm,
    match a with
    | .i2sInit .standardI2s =>
      assembleLine a = some [.ofWord 0x10000000#32] ∧ decode 0x10000000#32 = .ok (.i2sInit 0#1)
    | .i2sInit .leftJustified =>
      assembleLine a = some [.ofWord 0x10000001#32] ∧ decode 0x10000001#32 = .ok (.i2sInit 1#1)
    | .i2sWrite n l r =>
      let wid : BitVec 2 := match n with | .w8 => 0#2 | .w16 => 1#2 | .w32 => 2#2
      ((∀ w, w ∈ l ∨ w ∈ r → -(2 ^ (widthBits n - 1) : Int) ≤ w ∧ w < 2 ^ widthBits n) →
        assembleLine a =
          some [⟨0x11000000#32 ||| wid.setWidth 32, l.map (BitVec.ofInt 32), r.map (BitVec.ofInt 32), .empty,
            .empty⟩]) ∧
      ((∃ w, (w ∈ l ∨ w ∈ r) ∧ (w < -(2 ^ (widthBits n - 1) : Int) ∨ 2 ^ widthBits n ≤ w)) → assembleLine a = none) ∧
      decode (0x11000000#32 ||| wid.setWidth 32) = .ok (.i2sWrite wid)
    | .i2sWriteStream n pl pr =>
      let wid : BitVec 2 := match n with | .w8 => 0#2 | .w16 => 1#2 | .w32 => 2#2
      assembleLine a = some [⟨0x12000000#32 ||| wid.setWidth 32, [], [], pl, pr⟩] ∧
      decode (0x12000000#32 ||| wid.setWidth 32) = .ok (.i2sWriteStream wid)
    | .i2sRelease => assembleLine a = some [.ofWord 0x1F000000#32] ∧ decode 0x1F000000#32 = .ok .i2sRelease
    | .uartInit => assembleLine a = some [.ofWord 0x20000000#32] ∧ decode 0x20000000#32 = .ok .uartInit
    | .uartWrite b =>
      assembleLine a = some [.ofWord (0x21000000#32 ||| b.setWidth 32)] ∧
      decode (0x21000000#32 ||| b.setWidth 32) = .ok (.uartWrite b)
    | .uartRead => assembleLine a = some [.ofWord 0x22000000#32] ∧ decode 0x22000000#32 = .ok .uartRead
    | .uartRelease => assembleLine a = some [.ofWord 0x2F000000#32] ∧ decode 0x2F000000#32 = .ok .uartRelease
    | .spiInit k bo =>
      let field : BitVec 2 := match bo with | none => 0#2 | some .msbFirst => 1#2 | some .lsbFirst => 2#2
      assembleLine a = some [.ofWord (0x30000000#32 ||| (field.setWidth 32 <<< 2) ||| k.setWidth 32)] ∧
      decode (0x30000000#32 ||| (field.setWidth 32 <<< 2) ||| k.setWidth 32) = .ok (.spiInit field k)
    | .spiSend b =>
      assembleLine a = some [.ofWord (0x31000000#32 ||| b.setWidth 32)] ∧
      decode (0x31000000#32 ||| b.setWidth 32) = .ok (.spiSend b)
    | .spiRead => assembleLine a = some [.ofWord 0x32000000#32] ∧ decode 0x32000000#32 = .ok .spiRead
    | .spiSetBitOrder .msbFirst =>
      assembleLine a = some [.ofWord 0x33000000#32] ∧ decode 0x33000000#32 = .ok (.spiSetBitOrder 0#1)
    | .spiSetBitOrder .lsbFirst =>
      assembleLine a = some [.ofWord 0x33000001#32] ∧ decode 0x33000001#32 = .ok (.spiSetBitOrder 1#1)
    | .spiRelease => assembleLine a = some [.ofWord 0x3F000000#32] ∧ decode 0x3F000000#32 = .ok .spiRelease
    | .i2sFrame n l r => assembleLine a = assembleLine (.i2sWrite n [l] [r])
    | .spiTransfer b =>
      assembleLine a = some [.ofWord (0x31000000#32 ||| b.setWidth 32), .ofWord 0x32000000#32]) ∧
  echoRead = .ofWord 0x22000000#32 ∧
  (∀ b, echoWrite (.okByte b) = some (.ofWord (0x21000000#32 ||| b.setWidth 32))) ∧
  (∀ o, (∀ b, o ≠ .okByte b) → echoWrite o = none)

/-- The fields of the result word of every outcome (rule R76). -/
def Obligations.ResultWordFields : Prop :=
  ∀ o : CmdOutcome,
    (resultWord o).extractLsb' 28 4 =
      (match o with
        | .ok | .okByte _ => 0#4
        | .busError _     => 1#4
        | .timerError _   => 2#4
        | .noData         => 3#4) ∧
    (resultWord o).extractLsb' 0 8 =
      (match o with
        | .okByte b                                      => b
        | .ok | .busError _ | .timerError _ | .noData => 0#8) ∧
    (resultWord o).extractLsb' 8 20 = 0#20

/-! ### A step -/

/-- A step of the host runs the command its next word decodes to, with its operands handed over, when the command's unit is
IDLE (rules R16, R80). -/
def Obligations.StepRunsCommand : Prop :=
  ∀ (s : State) (h : HostCmd) (rest : List HostCmd) (i : Instr), s.HostMoves h rest → decode h.word = .ok i →
    s.busy i.unit = false → step s = exec i (State.handOver i h { s.tookTurn with host := rest })

/-- A step of a unit is the unit's next port event (rules R15, R58). -/
def Obligations.StepRunsEvent : Prop :=
  ∀ (s : State) (u : UnitId), s.mover (s.sched.next Config.freeTurn).1 = some u → step s = unitTurn u s.tookTurn

/-- While a unit runs a command the host does not issue it another: it waits (rule R16; log 7 of the model). -/
def Obligations.HostWaitsForOutcome : Prop :=
  ∀ (s : State) (h : HostCmd) (rest : List HostCmd) (i : Instr), s.HostMoves h rest → decode h.word = .ok i →
    s.busy i.unit = true → step s = .next s.tookTurn

/-- The word given to `withFetchWord` is the one the next step runs, on a unit that is IDLE (log 1 of the model). -/
def Obligations.FetchWordRuns : Prop :=
  ∀ (s : State) (nbits w : Nat) (i : Instr), decodeTableWord nbits w = some i →
    step (s.withFetchWord nbits w) =
      exec i (State.handOver i (HostCmd.ofWord (tableWord nbits w)) (s.idleUnit i.unit))

/-- Rule R17: outside a command a unit makes no port event and changes no state, and its lines keep their levels. -/
def Obligations.IdleUnitSilent : Prop :=
  ∀ (u : UnitId) (s : State), s.busy u = false → unitTurn u s = .next s

/-- The refusals of rule R148 and their order; a command that meets none of them starts. That a reserved word is refused without
waiting where `UNIT` names a unit that runs a command is the model's choice (log 7). -/
def Obligations.RefusalOrder : Prop :=
  ∀ (s : State) (h : HostCmd) (rest : List HostCmd), s.HostMoves h rest →
    (ReservedWord h.word → step s = .refused .reservedEncoding) ∧
    ∀ i, decode h.word = .ok i → s.busy i.unit = false →
      (isInit i = false → s.lifeOf i.unit = .unconfigured → step s = .refused .notConfigured) ∧
      (isInit i = true → s.lifeOf i.unit = .configured → step s = .refused .alreadyConfigured) ∧
      ((∃ wid, i = .i2sWrite wid) → s.lifeOf i.unit = .configured → h.left.length ≠ h.right.length →
        step s = .refused .lengthMismatch) ∧
      ((isInit i = true ∧ s.lifeOf i.unit = .unconfigured ∨
          isInit i = false ∧ s.lifeOf i.unit = .configured ∧
            ((∃ wid, i = .i2sWrite wid) → h.left.length = h.right.length)) →
        ∃ t, step s = .next t)

/-- A command completes or starts exactly when rules R16, R24, R77 and R95 admit it, and no command faults. -/
def Obligations.ExecNextIff : Prop :=
  ∀ (i : Instr) (s : State),
    ((∃ t, exec i s = .next t) ↔
      i.wellFormed = true ∧ s.busy i.unit = false ∧
        s.lifeOf i.unit = (if isInit i then .unconfigured else .configured) ∧
        ((∃ wid, i = .i2sWrite wid) → s.i2s.seqL.length = s.i2s.seqR.length)) ∧
    ∀ f, exec i s ≠ .fault f

/-- A run with a refusal carries its mark, and a run without one carries none (rule R147). -/
def Obligations.RefusalIsMarked : Prop :=
  ∀ (k : Nat) (s : State),
    (∃ t, Host.Core.run Sys2Proof.core k s = .next t ∧ runMarked k s = (t, [])) ∨
    (∃ f, Host.Core.run Sys2Proof.core k s = .fault f ∧ (runMarked k s).2 = []) ∨
    (∃ r rest, Host.Core.run Sys2Proof.core k s = .refused r ∧ (runMarked k s).2 = r :: rest)

/-! ### The I2S unit -/

/-- `I2S.INIT` (rules R39, R86). -/
def Obligations.I2sInitResult : Prop :=
  ∀ (mode : BitVec 1) (s : State), s.i2s.io.Constructible →
    exec (.i2sInit mode) s = .next
      { s with i2s := { s.i2s with
          io   := { s.i2s.io with life := .configured, seq := .idle, outcomes := s.i2s.io.outcomes ++ [.ok] }
          mode := if mode = 0#1 then .standardI2s else .leftJustified } }

/-- `I2S.WRITE` with every port event answered `ok` (rules R46, R47, R87, R88, R93 to R96): its outcome, its whole trace, the
levels, and everything else as it was. The trace is over the slots as handed over: of each it takes the low `N` bits. -/
def Obligations.I2sWriteResult : Prop :=
  ∀ (wid : BitVec 2) (n : Width) (s : State), widthOf wid = some n → s.i2s.io.Ready → s.i2s.io.AllOk .i2s →
    s.i2s.seqL.length = s.i2s.seqR.length →
    ∃ t t' cur fresh, exec (.i2sWrite wid) s = .next t ∧
      (let tr := transferTrace s.params s.i2s.mode n (s.i2s.seqL.zip s.i2s.seqR)
       runUnit .i2s tr.length t = .next t' ∧
        t' = { s with i2s := { s.i2s with
          io     := { s.i2s.io with
            drives   := s.i2s.io.drives.skip (Config.freeDrive .i2s) (tr.length - ticksIn tr)
            ticks    := s.i2s.io.ticks.skip (freeTick .i2s) (ticksIn tr)
            trace    := s.i2s.io.trace ++ tr
            outcomes := s.i2s.io.outcomes ++ [.ok]
            fresh    := fresh }
          lvlSck := levelOf .i2sSck s.i2s.lvlSck tr
          lvlSd  := levelOf .i2sSd s.i2s.lvlSd tr
          lvlWs  := levelOf .i2sWs s.i2s.lvlWs tr
          cur    := cur } })

/-- `I2S.WRITE_STREAM` with every port event answered `ok` (rules R47, R48, R97): the frames of the words both producers yield,
until either ends. The trace is over the slots as pulled: of each it takes the low `N` bits. -/
def Obligations.I2sWriteStreamResult : Prop :=
  ∀ (wid : BitVec 2) (n : Width) (s : State) (l r : List Slot) (pl pr : Producer), widthOf wid = some n →
    s.i2s.io.Ready → s.i2s.io.AllOk .i2s → s.i2s.StreamFrames l r pl pr →
    ∃ t t' cur fresh, exec (.i2sWriteStream wid) s = .next t ∧
      (let tr := transferTrace s.params s.i2s.mode n (l.zip r)
       runUnit .i2s tr.length t = .next t' ∧
        t' = { s with i2s := { s.i2s with
          io     := { s.i2s.io with
            drives   := s.i2s.io.drives.skip (Config.freeDrive .i2s) (tr.length - ticksIn tr)
            ticks    := s.i2s.io.ticks.skip (freeTick .i2s) (ticksIn tr)
            trace    := s.i2s.io.trace ++ tr
            outcomes := s.i2s.io.outcomes ++ [.ok]
            fresh    := fresh }
          lvlSck := levelOf .i2sSck s.i2s.lvlSck tr
          lvlSd  := levelOf .i2sSd s.i2s.lvlSd tr
          lvlWs  := levelOf .i2sWs s.i2s.lvlWs tr
          cur    := cur
          prodL  := pl
          prodR  := pr } })

/-- A stream over producers that yield the sequences and then end makes the trace of the write of the sequences: the sentence of
rule R97 that the spec marks as its own inference from rules R97 and R95. -/
def Obligations.StreamTraceIsWriteTrace : Prop :=
  ∀ (wid : BitVec 2) (s : State), widOk wid = true → s.i2s.io.Ready → s.i2s.io.AllOk .i2s →
    s.i2s.seqL.length = s.i2s.seqR.length → s.i2s.prodL.YieldsThenEnds .left s.i2s.seqL →
    s.i2s.prodR.YieldsThenEnds .right s.i2s.seqR →
    ∃ k a a' b b', exec (.i2sWrite wid) s = .next a ∧ exec (.i2sWriteStream wid) s = .next b ∧
      runUnit .i2s k a = .next a' ∧ runUnit .i2s k b = .next b' ∧ a'.i2s.io.trace = b'.i2s.io.trace ∧
      a'.i2s.io.outcomes = s.i2s.io.outcomes ++ [.ok] ∧ b'.i2s.io.outcomes = s.i2s.io.outcomes ++ [.ok]

/-- A stream over producers that never end has no outcome, however long it runs, and is no fault (rules R97, R168 (d)). -/
def Obligations.EndlessStream : Prop :=
  ∀ (wid : BitVec 2) (s : State), widOk wid = true → s.i2s.io.Ready → s.i2s.io.AllOk .i2s →
    s.i2s.prodL.All (fun a => a ≠ none) (Config.freePull .left) →
    s.i2s.prodR.All (fun a => a ≠ none) (Config.freePull .right) →
    ∃ t, exec (.i2sWriteStream wid) s = .next t ∧ ∀ k, ∃ t', runUnit .i2s k t = .next t' ∧ t'.busy .i2s = true ∧
      t'.i2s.io.outcomes = s.i2s.io.outcomes ∧ t'.i2s.io.trace.length = s.i2s.io.trace.length + k

/-- The line levels after a transfer: rule R98, which the spec marks as its own inference from rules R89, R93, R94 and R96. -/
def Obligations.FinalI2sLevels : Prop :=
  ∀ (i : Instr) (n : Width) (fs : List (Slot × Slot)) (s : State), s.I2sTransfer i n fs → s.i2s.io.Ready →
    s.i2s.io.AllOk .i2s →
    ∃ k t t', exec i s = .next t ∧ runUnit .i2s k t = .next t' ∧ t'.i2s.io.outcomes = s.i2s.io.outcomes ++ [.ok] ∧
      (∀ l r, fs.getLast? = some (l, r) →
        t'.i2s.lvlSck = .low ∧ t'.i2s.lvlSd = Level.ofBit (r.getLsbD 0) ∧
        t'.i2s.lvlWs = (if s.i2s.mode = .standardI2s then .low else .high)) ∧
      (fs = [] →
        t'.i2s.lvlSck = s.i2s.lvlSck ∧ t'.i2s.lvlSd = s.i2s.lvlSd ∧
        t'.i2s.lvlWs = (if prologueTrace s.params s.i2s.mode = [] then s.i2s.lvlWs else .low))

/-- The WS edges of a StandardI2S frame, for each level WS may have before it: rule R101, which the spec marks as its own
inference from rules R93 and R26. -/
def Obligations.StandardWsEdges : Prop :=
  ∀ (s : State) (cmd : I2sRun), s.i2s.mode = .standardI2s → s.i2s.io.AllOk .i2s →
    s.i2s.io.seq = .running cmd (s.i2s.frameStart s.params) →
    ∃ t tr, (let N := widthBits s.i2s.cur.n
      runUnit .i2s (10 * N + 2) s = .next t ∧ t.i2s.io.trace = s.i2s.io.trace ++ tr ∧ tr.length = 10 * N + 2 ∧
      (s.i2s.lvlWs = .low →
        edgesIn .i2sWs .low (tr.take (5 * (N - 1))) = [] ∧
        edgesIn .i2sWs .low (tr.take (5 * (N - 1) + 1)) = [.rising] ∧
        edgesIn .i2sWs .low (tr.take (5 * N + 1 + 5 * (N - 1))) = [.rising] ∧
        edgesIn .i2sWs .low (tr.take (5 * N + 1 + 5 * (N - 1) + 1)) = [.rising, .falling] ∧
        edgesIn .i2sWs .low tr = [.rising, .falling]) ∧
      (s.i2s.lvlWs = .high → edgesIn .i2sWs .high tr = [.falling]) ∧
      (s.i2s.lvlWs = .x → edgesIn .i2sWs .x tr = [.unknown, .falling]))

/-- The WS levels and edges of a LeftJustified frame with `LJ_WS_PER_FRAME`: rule R102, which the spec marks as its own inference
from rule R94. -/
def Obligations.LeftJustifiedWs : Prop :=
  ∀ (s : State) (cmd : I2sRun), s.i2s.mode = .leftJustified → s.params.ljWsPerFrame = true → s.i2s.io.AllOk .i2s →
    s.i2s.io.seq = .running cmd (s.i2s.frameStart s.params) →
    ∃ t tr, (let N := widthBits s.i2s.cur.n
      runUnit .i2s (10 * N + 2) s = .next t ∧ t.i2s.io.trace = s.i2s.io.trace ++ tr ∧ tr.length = 10 * N + 2 ∧
      (∀ j, 1 ≤ j → j ≤ 5 * N + 1 → levelOf .i2sWs s.i2s.lvlWs (tr.take j) = .low) ∧
      (∀ j, 5 * N + 2 ≤ j → j ≤ 10 * N + 2 → levelOf .i2sWs s.i2s.lvlWs (tr.take j) = .high) ∧
      edgesIn .i2sWs .low ((tr.drop 1).take (5 * N)) = [] ∧ edgesIn .i2sWs .high ((tr.drop (5 * N + 2)).take (5 * N)) = [])

/-! ### The UART unit -/

/-- `UART.INIT` (rules R41, R107). -/
def Obligations.UartInitResult : Prop :=
  ∀ s : State, s.uart.io.Constructible →
    exec .uartInit s = .next
      { s with uart := { s.uart with
          io := { s.uart.io with life := .configured, seq := .idle, outcomes := s.uart.io.outcomes ++ [.ok] } } }

/-- `UART.WRITE` with every port event answered `ok` (rules R108, R110): 20 port events, its outcome, and everything else as it
was. -/
def Obligations.UartWriteResult : Prop :=
  ∀ (byte : Byte) (s : State), s.uart.io.Ready → s.uart.io.AllOk .uart →
    ∃ t t' txsr rxacc bitcnt fresh, exec (.uartWrite byte) s = .next t ∧ runUnit .uart 20 t = .next t' ∧
      t' = { s with uart := { s.uart with
        io     := { s.uart.io with
          drives   := s.uart.io.drives.skip (Config.freeDrive .uart) 10
          ticks    := s.uart.io.ticks.skip (freeTick .uart) 10
          trace    := s.uart.io.trace ++ uartWriteTrace byte
          outcomes := s.uart.io.outcomes ++ [.ok]
          fresh    := fresh }
        lvlTx  := .high
        txsr   := txsr
        rxacc  := rxacc
        bitcnt := bitcnt } }

/-- The level of TX in each slot of `UART.WRITE`: the start bit, the data bits, the stop bit. Rule R111, which the spec marks as
its own inference from rules R110 and R13. -/
def Obligations.UartSlotLevels : Prop :=
  ∀ (byte : Byte) (s : State), s.uart.io.Ready → s.uart.io.AllOk .uart →
    ∃ t t' tr, exec (.uartWrite byte) s = .next t ∧ runUnit .uart 20 t = .next t' ∧
      t'.uart.io.trace = s.uart.io.trace ++ tr ∧ ticksIn tr = 10 ∧
      slotLevel .uartTx s.uart.lvlTx tr 0 = .low ∧
      (∀ i, i < 8 → slotLevel .uartTx s.uart.lvlTx tr (1 + i) = Level.ofBit (byte.getLsbD i)) ∧
      slotLevel .uartTx s.uart.lvlTx tr 9 = .high ∧ t'.uart.lvlTx = .high

/-- `UART.READ` with every port event answered `ok` (rules R113 to R116): `p` high polls, the low one, eight samples, its
outcome, and everything else as it was. -/
def Obligations.UartReadResult : Prop :=
  ∀ (p : Nat) (samples : List Bool) (s : State), samples.length = 8 → s.uart.io.Ready → s.uart.io.AllOk .uart →
    s.uart.rx.Levels .uartRx (List.replicate p true ++ false :: samples) →
    ∃ t t' byte txsr rxacc bitcnt fresh, exec .uartRead s = .next t ∧ runUnit .uart (p + 19) t = .next t' ∧
      (∀ k, k < 8 →
        samples[k]? = some (byte.getLsbD (if s.params.uartRxOrder = .lsbFirst then k else 7 - k))) ∧
      t' = { s with uart := { s.uart with
        io     := { s.uart.io with
          ticks    := s.uart.io.ticks.skip (freeTick .uart) 10
          trace    := s.uart.io.trace ++ uartReadTrace p samples
          outcomes := s.uart.io.outcomes ++ [.okByte byte]
          fresh    := fresh }
        rx     := s.uart.rx.skip (Config.freeSample .uart) (p + 9)
        txsr   := txsr
        rxacc  := rxacc
        bitcnt := bitcnt } }

/-- Rule R116: how a sample enters the accumulator, and what eight samples assemble to, in both orders, whatever it held. -/
def Obligations.UartAssembly : Prop :=
  ∀ acc : Byte,
    (∀ v : Bool,
      (assemble .lsbFirst acc v).getLsbD 7 = v ∧ (assemble .msbFill acc v).getLsbD 0 = v ∧
      ∀ k, k < 7 → (assemble .lsbFirst acc v).getLsbD k = acc.getLsbD (k + 1) ∧
        (assemble .msbFill acc v).getLsbD (k + 1) = acc.getLsbD k) ∧
    ∀ samples : List Bool, samples.length = 8 → ∀ k, k < 8 →
      samples[k]? = some ((samples.foldl (assemble .lsbFirst) acc).getLsbD k) ∧
      samples[k]? = some ((samples.foldl (assemble .msbFill) acc).getLsbD (7 - k))

/-- Rule R117: a read on a line that never samples low runs on for ever, without outcome, fault or refusal. -/
def Obligations.UartReadUnbounded : Prop :=
  ∀ s : State, s.uart.io.Ready → s.uart.rx.All (fun a => a = .level true) (Config.freeSample .uart) →
    ∃ t, exec .uartRead s = .next t ∧ ∀ k, ∃ t', runUnit .uart k t = .next t' ∧ t'.uart.io.seq = .running .read 0 ∧
      t'.uart.io.trace = s.uart.io.trace ++ List.replicate k (sAt .uartRx true) ∧
      t'.uart.io.outcomes = s.uart.io.outcomes

/-- A read whose samples are the writer's data bits returns the byte sent, or its reversal: rule R118, which the spec marks as its
own inference from rules R110, R114 and R116. -/
def Obligations.UartRoundTrip : Prop :=
  (∀ (byte : Byte) (w r : State) (p : Nat) (samples : List Bool), w.uart.io.Ready → w.uart.io.AllOk .uart →
    r.uart.io.Ready → r.uart.io.AllOk .uart → samples.length = 8 →
    r.uart.rx.Levels .uartRx (List.replicate p true ++ false :: samples) →
    (∀ t t' tr, exec (.uartWrite byte) w = .next t → runUnit .uart 20 t = .next t' →
      t'.uart.io.trace = w.uart.io.trace ++ tr →
      ∀ k v, samples[k]? = some v → slotLevel .uartTx w.uart.lvlTx tr (1 + k) = Level.ofBit v) →
    ∃ t t', exec .uartRead r = .next t ∧ runUnit .uart (p + 19) t = .next t' ∧
      t'.uart.io.outcomes = r.uart.io.outcomes ++
        [.okByte (if r.params.uartRxOrder = .lsbFirst then byte else byte.reverse)]) ∧
  ((List.range 256).filter (fun b => (BitVec.ofNat 8 b).reverse = BitVec.ofNat 8 b)).length = 16

/-! ### The SPI unit -/

/-- `SPI.INIT` with its drive answered `ok` (rules R40, R122). -/
def Obligations.SpiInitResult : Prop :=
  ∀ (bo mode2 : BitVec 2) (s : State), boOk bo = true → s.spi.io.Constructible →
    (s.spi.io.drives.next (Config.freeDrive .spi)).1 = .ok →
    ∃ t t' rxbuf rxacc bitcnt fresh, exec (.spiInit bo mode2) s = .next t ∧ unitTurn .spi t = .next t' ∧
      t' = { s with spi := { s.spi with
        io       := { s.spi.io with
          life     := .configured
          drives   := s.spi.io.drives.skip (Config.freeDrive .spi) 1
          trace    := s.spi.io.trace ++ [dOk .spiSck (mode2.getLsbD 1)]
          outcomes := s.spi.io.outcomes ++ [.ok]
          fresh    := fresh }
        lvlSck   := Level.ofBit (mode2.getLsbD 1)
        cpol     := mode2.getLsbD 1
        cpha     := mode2.getLsbD 0
        bitOrder := if bo = 1#2 then .msbFirst else if bo = 2#2 then .lsbFirst else s.params.spiDefaultBitOrder
        rxbuf    := rxbuf
        rxvalid  := false
        rxacc    := rxacc
        bitcnt   := bitcnt } }

/-- `SPI.INIT` whose drive fails (rule R122): `BusError`, `SCK` unknown, the unit UNCONFIGURED and no field written. -/
def Obligations.SpiInitFailure : Prop :=
  ∀ (bo mode2 : BitVec 2) (s : State) (e : PinError), boOk bo = true → s.spi.io.Constructible →
    (s.spi.io.drives.next (Config.freeDrive .spi)).1 = .err e →
    ∃ t t' rxacc bitcnt fresh, exec (.spiInit bo mode2) s = .next t ∧ unitTurn .spi t = .next t' ∧
      t' = { s with spi := { s.spi with
        io     := { s.spi.io with
          drives   := s.spi.io.drives.skip (Config.freeDrive .spi) 1
          trace    := s.spi.io.trace ++ [.drive .spiSck (mode2.getLsbD 1) (.err e)]
          outcomes := s.spi.io.outcomes ++ [.busError e]
          fresh    := fresh }
        lvlSck := .x
        rxacc  := rxacc
        bitcnt := bitcnt } }

/-- Two constructions with the same polarity make the same drive and leave the same level: rule R123, which the spec marks as its
own inference from rule R122. -/
def Obligations.SpiInitIdempotent : Prop :=
  ∀ (bo bo' m m' : BitVec 2) (s s' : State), boOk bo = true → boOk bo' = true → s.spi.io.Constructible →
    s'.spi.io.Constructible → (s.spi.io.drives.next (Config.freeDrive .spi)).1 = .ok →
    (s'.spi.io.drives.next (Config.freeDrive .spi)).1 = .ok → m.getLsbD 1 = m'.getLsbD 1 →
    ∃ a b a' b', exec (.spiInit bo m) s = .next a ∧ unitTurn .spi a = .next b ∧
      exec (.spiInit bo' m') s' = .next a' ∧ unitTurn .spi a' = .next b' ∧
      b.spi.io.trace = s.spi.io.trace ++ [dOk .spiSck (m.getLsbD 1)] ∧
      b'.spi.io.trace = s'.spi.io.trace ++ [dOk .spiSck (m.getLsbD 1)] ∧
      b.spi.lvlSck = (if m.getLsbD 1 then .high else .low) ∧ b'.spi.lvlSck = b.spi.lvlSck

/-- `SPI.SEND` with every port event answered `ok` (rules R125 to R133): 48 port events, bit 7 first on MOSI for MSBFirst and bit 0
first for LSBFirst, the received byte, its outcome, and everything else as it was. The levels at the end are rule R134, which the
spec marks as its own inference from rules R126 to R129 and R133. -/
def Obligations.SpiSendResult : Prop :=
  ∀ (byte : Byte) (samples : List Bool) (s : State), samples.length = 8 → s.spi.io.Ready → s.spi.io.AllOk .spi →
    s.spi.miso.Levels .spiMiso samples →
    ∃ t t' received rxacc bitcnt fresh, exec (.spiSend byte) s = .next t ∧ runUnit .spi 48 t = .next t' ∧
      (∀ k, k < 8 → samples[k]? = some (received.getLsbD (7 - k))) ∧
      t' = { s with spi := { s.spi with
        io      := { s.spi.io with
          drives   := s.spi.io.drives.skip (Config.freeDrive .spi) 24
          ticks    := s.spi.io.ticks.skip (freeTick .spi) 16
          trace    := s.spi.io.trace ++
            spiSendTrace s.spi.cpol s.spi.cpha
              ((List.range 8).map (fun i => byte.getLsbD (if s.spi.bitOrder = .msbFirst then 7 - i else i))) samples
          outcomes := s.spi.io.outcomes ++ [.ok]
          fresh    := fresh }
        lvlSck  := Level.ofBit s.spi.cpol
        lvlMosi := Level.ofBit (byte.getLsbD (if s.spi.bitOrder = .msbFirst then 0 else 7))
        miso    := s.spi.miso.skip (Config.freeSample .spi) 8
        rxbuf   := received
        rxvalid := true
        rxacc   := rxacc
        bitcnt  := bitcnt } }

/-- A send writes `RXBUF` and `RXVALID` exactly at its eighth sample, in every mode the event at position 45, and one
drive of `SCK` and one wait follow (rule R132). -/
def Obligations.SpiByteCompletion : Prop :=
  ∀ (byte : Byte) (i : Nat) (s t : State), s.spi.Inv → s.spi.io.seq = .running (.send byte) i → unitTurn .spi s = .next t →
    ((∃ v, i = 45 ∧ t.spi.io.trace = s.spi.io.trace ++ [sAt .spiMiso v] ∧ t.spi.rxvalid = true ∧
        t.spi.rxbuf = shiftIn s.spi.rxacc v) ∨
      ((∀ v, i = 45 → t.spi.io.trace ≠ s.spi.io.trace ++ [sAt .spiMiso v]) ∧ t.spi.rxvalid = s.spi.rxvalid ∧
        t.spi.rxbuf = s.spi.rxbuf)) ∧
    ((s.spi.acts (.send byte)).take 46).countP (· == .sample) = 8 ∧
    ((s.spi.acts (.send byte)).drop 46 = [.sck s.spi.cpol, .tick] ∨
      (s.spi.acts (.send byte)).drop 46 = [.tick, .sck s.spi.cpol])

/-- MSBFirst and LSBFirst send reversed bits on MOSI, MSBFirst bit 7 first, and the events agree otherwise: rule R135, which the
spec marks as its own inference from rule R125. -/
def Obligations.SpiBitOrderReversal : Prop :=
  ∀ (byte : Byte) (s : State), s.spi.io.Ready → s.spi.io.AllOk .spi → (∃ samples : List Bool, samples.length = 8 ∧
      s.spi.miso.Levels .spiMiso samples) →
    ∃ a a' b b' ma la,
      exec (.spiSend byte) { s with spi := { s.spi with bitOrder := .msbFirst } } = .next a ∧
      exec (.spiSend byte) { s with spi := { s.spi with bitOrder := .lsbFirst } } = .next b ∧
      runUnit .spi 48 a = .next a' ∧ runUnit .spi 48 b = .next b' ∧
      a'.spi.io.trace = s.spi.io.trace ++ ma ∧ b'.spi.io.trace = s.spi.io.trace ++ la ∧
      ma.filterMap Event.mosiBit = (la.filterMap Event.mosiBit).reverse ∧ (ma.filterMap Event.mosiBit).length = 8 ∧
      ma.filterMap Event.mosiBit = (List.range 8).map (fun i => byte.getLsbD (7 - i)) ∧
      ma.map Event.withoutMosi = la.map Event.withoutMosi

/-- `SPI.READ` (rules R136, R151, R55): the byte or `NoData`, and nothing else changes. -/
def Obligations.SpiReadResult : Prop :=
  ∀ s : State, s.spi.io.Ready →
    exec .spiRead s = .next
      { s with spi := { s.spi with
          io := { s.spi.io with
            outcomes := s.spi.io.outcomes ++ [if s.spi.rxvalid = true then .okByte s.spi.rxbuf else .noData] } } }

/-- `SPI.SET_BIT_ORDER` (rule R137). -/
def Obligations.SpiSetBitOrderResult : Prop :=
  ∀ (bo1 : BitVec 1) (s : State), s.spi.io.Ready →
    exec (.spiSetBitOrder bo1) s = .next
      { s with spi := { s.spi with
          io       := { s.spi.io with outcomes := s.spi.io.outcomes ++ [.ok] }
          bitOrder := if bo1 = 0#1 then .msbFirst else .lsbFirst } }

/-! ### Release -/

/-- The state after the release of each unit (rule R42). -/
def Obligations.ReleaseResult : Prop :=
  ∀ s : State,
    (s.i2s.io.Ready → ∃ mode fresh, exec .i2sRelease s = .next
      { s with i2s := { s.i2s with
          io   := { s.i2s.io with life := .unconfigured, outcomes := s.i2s.io.outcomes ++ [.ok], fresh := fresh }
          mode := mode } }) ∧
    (s.uart.io.Ready → exec .uartRelease s = .next
      { s with uart := { s.uart with
          io := { s.uart.io with life := .unconfigured, outcomes := s.uart.io.outcomes ++ [.ok] } } }) ∧
    (s.spi.io.Ready → ∃ cpol cpha bitOrder rxbuf fresh, exec .spiRelease s = .next
      { s with spi := { s.spi with
          io       := { s.spi.io with life := .unconfigured, outcomes := s.spi.io.outcomes ++ [.ok], fresh := fresh }
          cpol     := cpol
          cpha     := cpha
          bitOrder := bitOrder
          rxbuf    := rxbuf
          rxvalid  := false } })

/-! ### Errors -/

/-- Rule R149: a failed drive or sample ends the command at that event with `BusError`, and nothing else does. -/
def Obligations.PinErrorEndsCommand : Prop :=
  ∀ (u : UnitId) (s t : State) (ev : Event), unitTurn u s = .next t → t.traceOf u = s.traceOf u ++ [ev] →
    (∀ e, ev.pinError = some e → t.outcomesOf u = s.outcomesOf u ++ [.busError e] ∧ t.busy u = false) ∧
    (∀ e, t.outcomesOf u = s.outcomesOf u ++ [.busError e] → ev.pinError = some e)

/-- A failed wait ends the command with `TimerError` in the I2S unit and under `AlwaysFatal`; otherwise the command goes on exactly as
if the wait had succeeded, the trace included (rules R150, R185). That the ignored failure is a plain `W` of the trace, and not the
`W!` of rule R13, is the model's reading (log 19). -/
def Obligations.TickFailure : Prop :=
  ∀ (u : UnitId) (s t : State) (e : TimError) (f : Option TimError), unitTurn u s = .next t →
    t.traceOf u = s.traceOf u ++ [.wait f] → s.tickAnswer u = .err e →
    (u = .i2s ∨ s.params.timerFailPolicy = .alwaysFatal →
      f = some e ∧ t.outcomesOf u = s.outcomesOf u ++ [.timerError e] ∧ t.busy u = false) ∧
    (s.params.timerFailPolicy = .reference →
      (u = .uart → f = none ∧
        unitTurn .uart { s with uart := { s.uart with io := { s.uart.io with
          ticks := ⟨.ok :: t.uart.io.ticks.script, t.uart.io.ticks.rest⟩ } } } = .next t) ∧
      (u = .spi → f = none ∧
        unitTurn .spi { s with spi := { s.spi with io := { s.spi.io with
          ticks := ⟨.ok :: t.spi.io.ticks.script, t.spi.io.ticks.rest⟩ } } } = .next t))

/-- What an error leaves: the lifecycle, the control fields, the received byte and the levels (rule R43). -/
def Obligations.ErrorLeavesState : Prop :=
  ∀ (u : UnitId) (s t : State) (o : CmdOutcome), unitTurn u s = .next t → o.isPortError = true →
    t.outcomesOf u = s.outcomesOf u ++ [o] →
    t.busy u = false ∧ t.lifeOf u = s.lifeOf u ∧ t.i2s.mode = s.i2s.mode ∧ t.spi.cpol = s.spi.cpol ∧
    t.spi.cpha = s.spi.cpha ∧ t.spi.bitOrder = s.spi.bitOrder ∧ t.spi.rxbuf = s.spi.rxbuf ∧
    t.spi.rxvalid = s.spi.rxvalid ∧
    ∃ ev, t.traceOf u = s.traceOf u ++ [ev] ∧
      (∀ l, t.lvl l = s.lvl l ∨ ∃ v e, ev = .drive l v (.err e) ∧ t.lvl l = .x) ∧
      (∀ l v e, ev = .drive l v (.err e) → t.lvl l = .x)

/-- A step faults only where a running unit waits for a timer that stopped. The spec calls such a run stuck
(93_implementation_defined.md I23; rule R168) and treats nothing as a fault: that it is the fault `timerStopped` is the model's
choice (log 13). -/
def Obligations.FaultOnlyWhenTimerStops : Prop :=
  ∀ (s : State) (f : Fault), step s = .fault f →
    ∃ u, f = .timerStopped u ∧ s.busy u = true ∧
      (match u with
        | .i2s  => (s.i2s.io.ticks.next (freeTick .i2s)).1 = .never
        | .uart => (s.uart.io.ticks.next (freeTick .uart)).1 = .never
        | .spi  => (s.spi.io.ticks.next (freeTick .spi)).1 = .never)

/-! ### Whole-machine rules -/

/-- A running unit makes exactly one port event at a time, and hands over one outcome exactly when its command ends
(rules R54, R58, R146). -/
def Obligations.OneEventOneOutcome : Prop :=
  (∀ (u : UnitId) (s t : State), s.Inv → unitTurn u s = .next t → s.busy u = true →
    (∃ ev, t.traceOf u = s.traceOf u ++ [ev]) ∧
    (t.busy u = true ∧ t.outcomesOf u = s.outcomesOf u ∨
      t.busy u = false ∧ ∃ o, t.outcomesOf u = s.outcomesOf u ++ [o])) ∧
  (∀ (i : Instr) (s t : State), exec i s = .next t →
    t.traceOf i.unit = s.traceOf i.unit ∧
    (t.busy i.unit = true ∧ t.outcomesOf i.unit = s.outcomesOf i.unit ∨
      t.busy i.unit = false ∧ ∃ o, t.outcomesOf i.unit = s.outcomesOf i.unit ++ [o]))

/-- Events of different units can be exchanged: the state they lead to is the same. Rule R59, which the spec marks as its own
inference from rules R58 and R25. -/
def Obligations.UnitsCommute : Prop :=
  ∀ (u v : UnitId) (s a b : State), u ≠ v → unitTurn u s = .next a → unitTurn v a = .next b →
    ∃ a', unitTurn v s = .next a' ∧ unitTurn u a' = .next b

/-- A unit's event leaves the other units, the parameters, the host and the schedule as they were (rules R3, R25), writes
control fields and `LIFE` only where `SPI.INIT` constructs, and clears `RXVALID` only there (rules R27, R29, R34). -/
def Obligations.UnitEventFrame : Prop :=
  ∀ (u : UnitId) (s t : State), unitTurn u s = .next t →
    (u ≠ .i2s → t.i2s = s.i2s) ∧ (u ≠ .uart → t.uart = s.uart) ∧ (u ≠ .spi → t.spi = s.spi) ∧
    t.params = s.params ∧ t.host = s.host ∧ t.sched = s.sched ∧
    t.i2s.mode = s.i2s.mode ∧ t.i2s.seqL = s.i2s.seqL ∧ t.i2s.seqR = s.i2s.seqR ∧
    t.i2s.io.life = s.i2s.io.life ∧ t.uart.io.life = s.uart.io.life ∧
    ((∀ bo m i, s.spi.io.seq ≠ .running (.init bo m) i) →
      t.spi.io.life = s.spi.io.life ∧ t.spi.cpol = s.spi.cpol ∧ t.spi.cpha = s.spi.cpha ∧
      t.spi.bitOrder = s.spi.bitOrder ∧ (s.spi.rxvalid = true → t.spi.rxvalid = true)) ∧
    ((∀ b i, s.spi.io.seq ≠ .running (.send b) i) → t.spi.rxvalid = true → s.spi.rxvalid = true)

/-- What a command does before its first port event leaves the other units, every trace, line level and answer of the environment
still to come as they were; control fields, `LIFE`, the received byte, the transient registers and the producers change by the
commands that may write them alone (rules R24, R27 to R31, R34, R48). -/
def Obligations.ExecFrame : Prop :=
  ∀ (i : Instr) (s t : State), exec i s = .next t →
    (i.unit ≠ .i2s → t.i2s = s.i2s) ∧ (i.unit ≠ .uart → t.uart = s.uart) ∧ (i.unit ≠ .spi → t.spi = s.spi) ∧
    t.params = s.params ∧ t.host = s.host ∧ t.sched = s.sched ∧ (∀ u, t.traceOf u = s.traceOf u) ∧ (∀ l, t.lvl l = s.lvl l) ∧
    t.i2s.io.drives = s.i2s.io.drives ∧ t.uart.io.drives = s.uart.io.drives ∧ t.spi.io.drives = s.spi.io.drives ∧
    t.i2s.io.ticks = s.i2s.io.ticks ∧ t.uart.io.ticks = s.uart.io.ticks ∧ t.spi.io.ticks = s.spi.io.ticks ∧
    t.uart.rx = s.uart.rx ∧ t.spi.miso = s.spi.miso ∧
    t.i2s.seqL = s.i2s.seqL ∧ t.i2s.seqR = s.i2s.seqR ∧
    (t.i2s.prodL ≠ s.i2s.prodL ∨ t.i2s.prodR ≠ s.i2s.prodR → ∃ w, i = .i2sWriteStream w) ∧
    (t.i2s.cur ≠ s.i2s.cur → ∃ w, i = .i2sWrite w ∨ i = .i2sWriteStream w) ∧
    (t.i2s.mode ≠ s.i2s.mode → i = .i2sRelease ∨ ∃ m, i = .i2sInit m) ∧
    (t.uart.txsr ≠ s.uart.txsr → ∃ b, i = .uartWrite b) ∧ t.uart.rxacc = s.uart.rxacc ∧
    (t.uart.bitcnt ≠ s.uart.bitcnt → i = .uartRead ∨ ∃ b, i = .uartWrite b) ∧
    (t.spi.rxacc ≠ s.spi.rxacc ∨ t.spi.bitcnt ≠ s.spi.bitcnt → ∃ b, i = .spiSend b) ∧
    (t.spi.cpol ≠ s.spi.cpol ∨ t.spi.cpha ≠ s.spi.cpha ∨ t.spi.rxvalid ≠ s.spi.rxvalid ∨ t.spi.rxbuf ≠ s.spi.rxbuf →
      i = .spiRelease) ∧
    (t.spi.bitOrder ≠ s.spi.bitOrder → i = .spiRelease ∨ ∃ b, i = .spiSetBitOrder b) ∧
    (∀ u, t.lifeOf u ≠ s.lifeOf u → i.unit = u ∧
      (isInit i = true ∧ t.lifeOf u = .configured ∨
        (i = .i2sRelease ∨ i = .uartRelease ∨ i = .spiRelease) ∧ t.lifeOf u = .unconfigured))

/-- The state at power-on, as far as the spec gives it (rule R38). -/
def Obligations.ResetState : Prop :=
  (∀ u, State.reset.lifeOf u = .unconfigured ∧ State.reset.busy u = false) ∧
  State.reset.i2s.io.seq = .idle ∧ State.reset.uart.io.seq = .idle ∧ State.reset.spi.io.seq = .idle ∧
  (∀ l, State.reset.lvl l = .x) ∧ State.reset.spi.rxvalid = false

/-- The invariant of the machine holds at power-on. -/
def Obligations.ResetInv : Prop := State.reset.Inv

/-- Every step keeps the invariant of the machine: positions, counters, cursor and the received-byte flag stay in range (rules R28,
R30, R31, R32, R132). What the transient registers hold between two events (`BITCNT`, `TXSR`, `RXACC`, the loaded pair of words,
`bit_offset`) is read from the order of the rules' pseudocode: log 10. Before a first drive of WS the model keeps `bit_offset` in
the range of rule R28: log 20. -/
def Obligations.StepKeepsInv : Prop := ∀ s t : State, s.Inv → step s = .next t → t.Inv

/-- At power-on the line levels are those of the empty traces. -/
def Obligations.ResetLinesFollow : Prop := State.reset.LinesFollow

/-- Every step keeps each line level equal to what its unit's trace says (rule R26). -/
def Obligations.StepKeepsLinesFollow : Prop := ∀ s t : State, s.LinesFollow → step s = .next t → t.LinesFollow

/-- No rule reads a line level: with other levels a step does the same (rules R26, R106). -/
def Obligations.LevelsUnread : Prop :=
  ∀ (s : State) (f : OutLine → Level), ∃ g, step (s.relevel f) = mapNext (State.relevel g) (step s)

/-- No rule reads a register while the spec leaves it unspecified: states that differ in such registers alone step alike
(rule R44). For the control fields and `RXBUF` this is rule R173, which the spec marks as its own inference from rules R38 to
R42. From which event on `RXACC`, the pair of words and `bit_offset` are specified rests on logs 10 and 20 of the model. -/
def Obligations.UnspecifiedUnread : Prop :=
  ∀ s s' : State, s.Inv → s.AgreesWith s' →
    (∀ t, step s = .next t → ∃ t', step s' = .next t' ∧ t.AgreesWith t') ∧
    (∀ f, step s = .fault f → step s' = .fault f) ∧ (∀ r, step s = .refused r → step s' = .refused r)

/-- The ticks and the port events of each command, every event answered `ok`: rule R187, which the spec marks as its own inference
from rules R93 to R97, R110, R114, R122 and R133. -/
def Obligations.TickAndEventCounts : Prop :=
  (∀ (i : Instr) (n : Width) (fs : List (Slot × Slot)) (s : State), s.I2sTransfer i n fs → s.i2s.io.Ready →
    s.i2s.io.AllOk .i2s →
    ∃ t t' tr, exec i s = .next t ∧ runUnit .i2s tr.length t = .next t' ∧ t'.i2s.io.trace = s.i2s.io.trace ++ tr ∧
      t'.i2s.io.outcomes = s.i2s.io.outcomes ++ [.ok] ∧ ticksIn tr = 4 * widthBits n * fs.length ∧
      tr.length =
        (match s.i2s.mode with
          | .standardI2s   => (if s.params.stdWsPrologue then 1 else 0) + fs.length * (10 * widthBits n + 2)
          | .leftJustified =>
            if s.params.ljWsPerFrame then fs.length * (10 * widthBits n + 2)
            else 1 + fs.length * (10 * widthBits n + 1))) ∧
  (∀ (byte : Byte) (s : State), s.uart.io.Ready → s.uart.io.AllOk .uart →
    ∃ t t' tr, exec (.uartWrite byte) s = .next t ∧ runUnit .uart tr.length t = .next t' ∧
      t'.uart.io.trace = s.uart.io.trace ++ tr ∧ t'.uart.io.outcomes = s.uart.io.outcomes ++ [.ok] ∧
      ticksIn tr = 10 ∧ tr.length = 20) ∧
  (∀ (p : Nat) (samples : List Bool) (s : State), samples.length = 8 → s.uart.io.Ready → s.uart.io.AllOk .uart →
    s.uart.rx.Levels .uartRx (List.replicate p true ++ false :: samples) →
    ∃ t t' tr b, exec .uartRead s = .next t ∧ runUnit .uart tr.length t = .next t' ∧
      t'.uart.io.trace = s.uart.io.trace ++ tr ∧ t'.uart.io.outcomes = s.uart.io.outcomes ++ [.okByte b] ∧
      ticksIn tr = 10 ∧ tr.length = p + 1 + 8 + 10) ∧
  (∀ (bo m : BitVec 2) (s : State), boOk bo = true → s.spi.io.Constructible → s.spi.io.AllOk .spi →
    ∃ t t' tr, exec (.spiInit bo m) s = .next t ∧ runUnit .spi tr.length t = .next t' ∧
      t'.spi.io.trace = s.spi.io.trace ++ tr ∧ t'.spi.io.outcomes = s.spi.io.outcomes ++ [.ok] ∧
      ticksIn tr = 0 ∧ tr.length = 1) ∧
  (∀ (byte : Byte) (samples : List Bool) (s : State), samples.length = 8 → s.spi.io.Ready → s.spi.io.AllOk .spi →
    s.spi.miso.Levels .spiMiso samples →
    ∃ t t' tr, exec (.spiSend byte) s = .next t ∧ runUnit .spi tr.length t = .next t' ∧
      t'.spi.io.trace = s.spi.io.trace ++ tr ∧ t'.spi.io.outcomes = s.spi.io.outcomes ++ [.ok] ∧
      ticksIn tr = 16 ∧ tr.length = 48) ∧
  (∀ (i : Instr) (s t : State), exec i s = .next t →
    (∃ m, i = .i2sInit m) ∨ i = .uartInit ∨ i = .spiRead ∨ (∃ b, i = .spiSetBitOrder b) ∨ i = .i2sRelease ∨
      i = .uartRelease ∨ i = .spiRelease →
    t.traceOf i.unit = s.traceOf i.unit ∧ t.busy i.unit = false ∧
      ∃ o, t.outcomesOf i.unit = s.outcomesOf i.unit ++ [o])

/-! ### Time -/

/-- When the first wait of a command returns: within one period of the call, and with `Latched` perhaps at once. Rule R177, which
the spec marks as its own inference from rules R21 and R13, in the model's time (log 12). What a tick at the very instant of the
call does is the model's choice (log 12): a `NextEdge` wait goes on to a later tick, a `Latched` one returns at once. -/
def Obligations.FirstWaitBounds : Prop :=
  ∀ (latch : TickLatch) (T φ last now : Nat), 0 < T → φ < T → last ≤ now →
    now ≤ waitReturn latch T φ last now ∧ waitReturn latch T φ last now ≤ now + T ∧
    (waitReturn latch T φ last now = now ↔ latch = .latched ∧ ∃ k, last < φ + k * T ∧ φ + k * T ≤ now) ∧
    (now < waitReturn latch T φ last now → ∃ k, waitReturn latch T φ last now = φ + k * T)

/-- In which bit of the peer's frame each sample of a read falls. Rule R183, which the spec marks as its own inference from rules
R113, R114 and R177, in the model's time (log 12): before sample `k` of a read stand `k + 1` waits, the first of which returns at
`ε + δ` and each later one a period after the one before. -/
def Obligations.UartSamplePhase : Prop :=
  (∀ T ε δ k : Nat, 0 < T → δ ≤ T →
    (peerBitAt T (uartSampleTime T ε δ k) = k + 1 ↔ T ≤ ε + δ ∧ ε + δ < 2 * T) ∧
    (ε + δ < T → peerBitAt T (uartSampleTime T ε δ k) = k)) ∧
  (∀ (p k : Nat) (samples : List Bool) (v : Bool), samples[k]? = some v →
    ∃ before after, uartReadTrace p samples = before ++ sAt .uartRx v :: after ∧
      before.length = p + 2 + 2 * k ∧ ticksIn before = k + 1 ∧
      ∀ T ε δ, uartSampleTime T ε δ k = ε + δ + (ticksIn before - 1) * T)

end
end

