-- ==== Sys2Proof/Laws/State.lean ====
section
/-! SUPPORT. The fields of the named updates of the state, one lemma per field and update, and what `SampleBit()` and the
hand-over of operands leave alone. -/

namespace Sys2Proof.Machine

variable {c : Type}

/-! ### `UnitIo.record` -/

@[simp] theorem UnitIo.record_life (e : Event) (io : UnitIo c) : (io.record e).life = io.life := rfl
@[simp] theorem UnitIo.record_seq (e : Event) (io : UnitIo c) : (io.record e).seq = io.seq := rfl
@[simp] theorem UnitIo.record_drives (e : Event) (io : UnitIo c) : (io.record e).drives = io.drives := rfl
@[simp] theorem UnitIo.record_ticks (e : Event) (io : UnitIo c) : (io.record e).ticks = io.ticks := rfl
@[simp] theorem UnitIo.record_trace (e : Event) (io : UnitIo c) : (io.record e).trace = io.trace ++ [e] := rfl
@[simp] theorem UnitIo.record_outcomes (e : Event) (io : UnitIo c) : (io.record e).outcomes = io.outcomes := rfl
@[simp] theorem UnitIo.record_fresh (e : Event) (io : UnitIo c) : (io.record e).fresh = io.fresh := rfl

/-! ### `UnitIo.start` -/

@[simp] theorem UnitIo.start_life (cmd : c) (io : UnitIo c) : (io.start cmd).life = io.life := rfl
@[simp] theorem UnitIo.start_seq (cmd : c) (io : UnitIo c) : (io.start cmd).seq = .running cmd 0 := rfl
@[simp] theorem UnitIo.start_drives (cmd : c) (io : UnitIo c) : (io.start cmd).drives = io.drives := rfl
@[simp] theorem UnitIo.start_ticks (cmd : c) (io : UnitIo c) : (io.start cmd).ticks = io.ticks := rfl
@[simp] theorem UnitIo.start_trace (cmd : c) (io : UnitIo c) : (io.start cmd).trace = io.trace := rfl
@[simp] theorem UnitIo.start_outcomes (cmd : c) (io : UnitIo c) : (io.start cmd).outcomes = io.outcomes := rfl
@[simp] theorem UnitIo.start_fresh (cmd : c) (io : UnitIo c) : (io.start cmd).fresh = io.fresh := rfl

/-! ### `UnitIo.goto` -/

@[simp] theorem UnitIo.goto_life (cmd : c) (i : Nat) (io : UnitIo c) : (io.goto cmd i).life = io.life := rfl
@[simp] theorem UnitIo.goto_seq (cmd : c) (i : Nat) (io : UnitIo c) : (io.goto cmd i).seq = .running cmd i := rfl
@[simp] theorem UnitIo.goto_drives (cmd : c) (i : Nat) (io : UnitIo c) : (io.goto cmd i).drives = io.drives := rfl
@[simp] theorem UnitIo.goto_ticks (cmd : c) (i : Nat) (io : UnitIo c) : (io.goto cmd i).ticks = io.ticks := rfl
@[simp] theorem UnitIo.goto_trace (cmd : c) (i : Nat) (io : UnitIo c) : (io.goto cmd i).trace = io.trace := rfl
@[simp] theorem UnitIo.goto_outcomes (cmd : c) (i : Nat) (io : UnitIo c) : (io.goto cmd i).outcomes = io.outcomes := rfl
@[simp] theorem UnitIo.goto_fresh (cmd : c) (i : Nat) (io : UnitIo c) : (io.goto cmd i).fresh = io.fresh := rfl

/-! ### `UnitIo.close` -/

@[simp] theorem UnitIo.close_life (o : CmdOutcome) (n : Nat) (io : UnitIo c) : (io.close o n).life = io.life := rfl
@[simp] theorem UnitIo.close_seq (o : CmdOutcome) (n : Nat) (io : UnitIo c) : (io.close o n).seq = .idle := rfl
@[simp] theorem UnitIo.close_drives (o : CmdOutcome) (n : Nat) (io : UnitIo c) : (io.close o n).drives = io.drives := rfl
@[simp] theorem UnitIo.close_ticks (o : CmdOutcome) (n : Nat) (io : UnitIo c) : (io.close o n).ticks = io.ticks := rfl
@[simp] theorem UnitIo.close_trace (o : CmdOutcome) (n : Nat) (io : UnitIo c) : (io.close o n).trace = io.trace := rfl
@[simp] theorem UnitIo.close_outcomes (o : CmdOutcome) (n : Nat) (io : UnitIo c) : (io.close o n).outcomes = io.outcomes ++ [o] := rfl
@[simp] theorem UnitIo.close_fresh (o : CmdOutcome) (n : Nat) (io : UnitIo c) : (io.close o n).fresh = io.fresh + n := rfl

/-! ### `I2sUnit.finish` -/

@[simp] theorem I2sUnit.finish_io (o : CmdOutcome) (u : I2sUnit) : (u.finish o).io = u.io.close o 2 := rfl
@[simp] theorem I2sUnit.finish_lvlSck (o : CmdOutcome) (u : I2sUnit) : (u.finish o).lvlSck = u.lvlSck := rfl
@[simp] theorem I2sUnit.finish_lvlSd (o : CmdOutcome) (u : I2sUnit) : (u.finish o).lvlSd = u.lvlSd := rfl
@[simp] theorem I2sUnit.finish_lvlWs (o : CmdOutcome) (u : I2sUnit) : (u.finish o).lvlWs = u.lvlWs := rfl
@[simp] theorem I2sUnit.finish_mode (o : CmdOutcome) (u : I2sUnit) : (u.finish o).mode = u.mode := rfl
@[simp] theorem I2sUnit.finish_seqL (o : CmdOutcome) (u : I2sUnit) : (u.finish o).seqL = u.seqL := rfl
@[simp] theorem I2sUnit.finish_seqR (o : CmdOutcome) (u : I2sUnit) : (u.finish o).seqR = u.seqR := rfl
@[simp] theorem I2sUnit.finish_prodL (o : CmdOutcome) (u : I2sUnit) : (u.finish o).prodL = u.prodL := rfl
@[simp] theorem I2sUnit.finish_prodR (o : CmdOutcome) (u : I2sUnit) : (u.finish o).prodR = u.prodR := rfl

/-! ### `I2sUnit.enterWord` -/

@[simp] theorem I2sUnit.enterWord_io (p : Params) (u : I2sUnit) : (u.enterWord p).io = u.io := rfl
@[simp] theorem I2sUnit.enterWord_lvlSck (p : Params) (u : I2sUnit) : (u.enterWord p).lvlSck = u.lvlSck := rfl
@[simp] theorem I2sUnit.enterWord_lvlSd (p : Params) (u : I2sUnit) : (u.enterWord p).lvlSd = u.lvlSd := rfl
@[simp] theorem I2sUnit.enterWord_lvlWs (p : Params) (u : I2sUnit) : (u.enterWord p).lvlWs = u.lvlWs := rfl
@[simp] theorem I2sUnit.enterWord_mode (p : Params) (u : I2sUnit) : (u.enterWord p).mode = u.mode := rfl
@[simp] theorem I2sUnit.enterWord_seqL (p : Params) (u : I2sUnit) : (u.enterWord p).seqL = u.seqL := rfl
@[simp] theorem I2sUnit.enterWord_seqR (p : Params) (u : I2sUnit) : (u.enterWord p).seqR = u.seqR := rfl
@[simp] theorem I2sUnit.enterWord_prodL (p : Params) (u : I2sUnit) : (u.enterWord p).prodL = u.prodL := rfl
@[simp] theorem I2sUnit.enterWord_prodR (p : Params) (u : I2sUnit) : (u.enterWord p).prodR = u.prodR := rfl
@[simp] theorem I2sUnit.enterWord_cur_n (p : Params) (u : I2sUnit) : (u.enterWord p).cur.n = u.cur.n := rfl
@[simp] theorem I2sUnit.enterWord_cur_frame (p : Params) (u : I2sUnit) : (u.enterWord p).cur.frame = u.cur.frame := rfl
@[simp] theorem I2sUnit.enterWord_cur_uL (p : Params) (u : I2sUnit) : (u.enterWord p).cur.uL = u.cur.uL := rfl
@[simp] theorem I2sUnit.enterWord_cur_uR (p : Params) (u : I2sUnit) : (u.enterWord p).cur.uR = u.cur.uR := rfl
@[simp] theorem I2sUnit.enterWord_cur_bitOffset (p : Params) (u : I2sUnit) :
    (u.enterWord p).cur.bitOffset = if u.startsWord p then 0 else u.cur.bitOffset := rfl

/-! ### `I2sUnit.load` -/

@[simp] theorem I2sUnit.load_io (p : Params) (l r : Slot) (u : I2sUnit) : (u.load p l r).io = u.io := rfl
@[simp] theorem I2sUnit.load_lvlSck (p : Params) (l r : Slot) (u : I2sUnit) : (u.load p l r).lvlSck = u.lvlSck := rfl
@[simp] theorem I2sUnit.load_lvlSd (p : Params) (l r : Slot) (u : I2sUnit) : (u.load p l r).lvlSd = u.lvlSd := rfl
@[simp] theorem I2sUnit.load_lvlWs (p : Params) (l r : Slot) (u : I2sUnit) : (u.load p l r).lvlWs = u.lvlWs := rfl
@[simp] theorem I2sUnit.load_mode (p : Params) (l r : Slot) (u : I2sUnit) : (u.load p l r).mode = u.mode := rfl
@[simp] theorem I2sUnit.load_seqL (p : Params) (l r : Slot) (u : I2sUnit) : (u.load p l r).seqL = u.seqL := rfl
@[simp] theorem I2sUnit.load_seqR (p : Params) (l r : Slot) (u : I2sUnit) : (u.load p l r).seqR = u.seqR := rfl
@[simp] theorem I2sUnit.load_prodL (p : Params) (l r : Slot) (u : I2sUnit) : (u.load p l r).prodL = u.prodL := rfl
@[simp] theorem I2sUnit.load_prodR (p : Params) (l r : Slot) (u : I2sUnit) : (u.load p l r).prodR = u.prodR := rfl
@[simp] theorem I2sUnit.load_cur_n (p : Params) (l r : Slot) (u : I2sUnit) : (u.load p l r).cur.n = u.cur.n := rfl
@[simp] theorem I2sUnit.load_cur_frame (p : Params) (l r : Slot) (u : I2sUnit) : (u.load p l r).cur.frame = u.cur.frame := rfl
@[simp] theorem I2sUnit.load_cur_uL (p : Params) (l r : Slot) (u : I2sUnit) : (u.load p l r).cur.uL = wordPattern u.cur.n l := rfl
@[simp] theorem I2sUnit.load_cur_uR (p : Params) (l r : Slot) (u : I2sUnit) : (u.load p l r).cur.uR = wordPattern u.cur.n r := rfl

/-- A frame's words do not bear on whether a word starts. -/
@[simp] theorem I2sUnit.load_cur_bitOffset (p : Params) (l r : Slot) (u : I2sUnit) :
    (u.load p l r).cur.bitOffset = if u.startsWord p then 0 else u.cur.bitOffset := rfl

/-! ### `UartUnit.shiftOut` -/

@[simp] theorem UartUnit.shiftOut_io (u : UartUnit) : (u.shiftOut).io = u.io := rfl
@[simp] theorem UartUnit.shiftOut_lvlTx (u : UartUnit) : (u.shiftOut).lvlTx = u.lvlTx := rfl
@[simp] theorem UartUnit.shiftOut_rx (u : UartUnit) : (u.shiftOut).rx = u.rx := rfl
@[simp] theorem UartUnit.shiftOut_txsr (u : UartUnit) : (u.shiftOut).txsr = u.txsr >>> 1 := rfl
@[simp] theorem UartUnit.shiftOut_rxacc (u : UartUnit) : (u.shiftOut).rxacc = u.rxacc := rfl
@[simp] theorem UartUnit.shiftOut_bitcnt (u : UartUnit) : (u.shiftOut).bitcnt = u.bitcnt + 1#4 := rfl

/-! ### `UartUnit.finish` -/

@[simp] theorem UartUnit.finish_io (o : CmdOutcome) (u : UartUnit) : (u.finish o).io = u.io.close o 2 := rfl
@[simp] theorem UartUnit.finish_lvlTx (o : CmdOutcome) (u : UartUnit) : (u.finish o).lvlTx = u.lvlTx := rfl
@[simp] theorem UartUnit.finish_rx (o : CmdOutcome) (u : UartUnit) : (u.finish o).rx = u.rx := rfl

/-! ### `SpiUnit.clearReceived` -/

@[simp] theorem SpiUnit.clearReceived_io (u : SpiUnit) : (u.clearReceived).io = ⟨u.io.life, u.io.seq, u.io.drives, u.io.ticks, u.io.trace, u.io.outcomes, u.io.fresh + 1⟩ := rfl
@[simp] theorem SpiUnit.clearReceived_lvlSck (u : SpiUnit) : (u.clearReceived).lvlSck = u.lvlSck := rfl
@[simp] theorem SpiUnit.clearReceived_lvlMosi (u : SpiUnit) : (u.clearReceived).lvlMosi = u.lvlMosi := rfl
@[simp] theorem SpiUnit.clearReceived_miso (u : SpiUnit) : (u.clearReceived).miso = u.miso := rfl
@[simp] theorem SpiUnit.clearReceived_cpol (u : SpiUnit) : (u.clearReceived).cpol = u.cpol := rfl
@[simp] theorem SpiUnit.clearReceived_cpha (u : SpiUnit) : (u.clearReceived).cpha = u.cpha := rfl
@[simp] theorem SpiUnit.clearReceived_bitOrder (u : SpiUnit) : (u.clearReceived).bitOrder = u.bitOrder := rfl
@[simp] theorem SpiUnit.clearReceived_rxvalid (u : SpiUnit) : (u.clearReceived).rxvalid = false := rfl
@[simp] theorem SpiUnit.clearReceived_rxacc (u : SpiUnit) : (u.clearReceived).rxacc = u.rxacc := rfl
@[simp] theorem SpiUnit.clearReceived_bitcnt (u : SpiUnit) : (u.clearReceived).bitcnt = u.bitcnt := rfl

/-! ### `SpiUnit.constructed` -/

@[simp] theorem SpiUnit.constructed_io (p : Params) (bo mode2 : BitVec 2) (u : SpiUnit) : (u.constructed p bo mode2).io = ⟨.configured, u.io.seq, u.io.drives, u.io.ticks, u.io.trace, u.io.outcomes, u.io.fresh + 1⟩ := rfl
@[simp] theorem SpiUnit.constructed_lvlSck (p : Params) (bo mode2 : BitVec 2) (u : SpiUnit) : (u.constructed p bo mode2).lvlSck = u.lvlSck := rfl
@[simp] theorem SpiUnit.constructed_lvlMosi (p : Params) (bo mode2 : BitVec 2) (u : SpiUnit) : (u.constructed p bo mode2).lvlMosi = u.lvlMosi := rfl
@[simp] theorem SpiUnit.constructed_miso (p : Params) (bo mode2 : BitVec 2) (u : SpiUnit) : (u.constructed p bo mode2).miso = u.miso := rfl
@[simp] theorem SpiUnit.constructed_cpol (p : Params) (bo mode2 : BitVec 2) (u : SpiUnit) : (u.constructed p bo mode2).cpol = cpolOf mode2 := rfl
@[simp] theorem SpiUnit.constructed_cpha (p : Params) (bo mode2 : BitVec 2) (u : SpiUnit) : (u.constructed p bo mode2).cpha = cphaOf mode2 := rfl
@[simp] theorem SpiUnit.constructed_bitOrder (p : Params) (bo mode2 : BitVec 2) (u : SpiUnit) : (u.constructed p bo mode2).bitOrder = initBitOrder p bo := rfl
@[simp] theorem SpiUnit.constructed_rxvalid (p : Params) (bo mode2 : BitVec 2) (u : SpiUnit) : (u.constructed p bo mode2).rxvalid = false := rfl
@[simp] theorem SpiUnit.constructed_rxacc (p : Params) (bo mode2 : BitVec 2) (u : SpiUnit) : (u.constructed p bo mode2).rxacc = u.rxacc := rfl
@[simp] theorem SpiUnit.constructed_bitcnt (p : Params) (bo mode2 : BitVec 2) (u : SpiUnit) : (u.constructed p bo mode2).bitcnt = u.bitcnt := rfl

/-! ### `SpiUnit.finish` -/

@[simp] theorem SpiUnit.finish_io (o : CmdOutcome) (u : SpiUnit) : (u.finish o).io = u.io.close o 1 := rfl
@[simp] theorem SpiUnit.finish_lvlSck (o : CmdOutcome) (u : SpiUnit) : (u.finish o).lvlSck = u.lvlSck := rfl
@[simp] theorem SpiUnit.finish_lvlMosi (o : CmdOutcome) (u : SpiUnit) : (u.finish o).lvlMosi = u.lvlMosi := rfl
@[simp] theorem SpiUnit.finish_miso (o : CmdOutcome) (u : SpiUnit) : (u.finish o).miso = u.miso := rfl
@[simp] theorem SpiUnit.finish_cpol (o : CmdOutcome) (u : SpiUnit) : (u.finish o).cpol = u.cpol := rfl
@[simp] theorem SpiUnit.finish_cpha (o : CmdOutcome) (u : SpiUnit) : (u.finish o).cpha = u.cpha := rfl
@[simp] theorem SpiUnit.finish_bitOrder (o : CmdOutcome) (u : SpiUnit) : (u.finish o).bitOrder = u.bitOrder := rfl
@[simp] theorem SpiUnit.finish_rxbuf (o : CmdOutcome) (u : SpiUnit) : (u.finish o).rxbuf = u.rxbuf := rfl
@[simp] theorem SpiUnit.finish_rxvalid (o : CmdOutcome) (u : SpiUnit) : (u.finish o).rxvalid = u.rxvalid := rfl

/-! ### `SpiUnit.released` -/

@[simp] theorem SpiUnit.released_lvlSck (u : SpiUnit) : (u.released).lvlSck = u.lvlSck := rfl
@[simp] theorem SpiUnit.released_lvlMosi (u : SpiUnit) : (u.released).lvlMosi = u.lvlMosi := rfl
@[simp] theorem SpiUnit.released_miso (u : SpiUnit) : (u.released).miso = u.miso := rfl
@[simp] theorem SpiUnit.released_rxvalid (u : SpiUnit) : (u.released).rxvalid = false := rfl
@[simp] theorem SpiUnit.released_rxacc (u : SpiUnit) : (u.released).rxacc = u.rxacc := rfl
@[simp] theorem SpiUnit.released_bitcnt (u : SpiUnit) : (u.released).bitcnt = u.bitcnt := rfl

/-! ### `State.dropRefused` -/

@[simp] theorem State.dropRefused_params (s : State) : (s.dropRefused).params = s.params := rfl
@[simp] theorem State.dropRefused_i2s (s : State) : (s.dropRefused).i2s = s.i2s := rfl
@[simp] theorem State.dropRefused_uart (s : State) : (s.dropRefused).uart = s.uart := rfl
@[simp] theorem State.dropRefused_spi (s : State) : (s.dropRefused).spi = s.spi := rfl
@[simp] theorem State.dropRefused_host (s : State) : (s.dropRefused).host = s.host.tail := rfl
@[simp] theorem State.dropRefused_sched (s : State) : (s.dropRefused).sched = (s.sched.next Config.freeTurn).2 := rfl
/-! ### `SpiUnit.takeBit` -/

@[simp] theorem SpiUnit.takeBit_io (s : Bool) (u : SpiUnit) : (u.takeBit s).io = u.io := by
  unfold SpiUnit.takeBit; dsimp only; split <;> rfl
@[simp] theorem SpiUnit.takeBit_lvlSck (s : Bool) (u : SpiUnit) : (u.takeBit s).lvlSck = u.lvlSck := by
  unfold SpiUnit.takeBit; dsimp only; split <;> rfl
@[simp] theorem SpiUnit.takeBit_lvlMosi (s : Bool) (u : SpiUnit) : (u.takeBit s).lvlMosi = u.lvlMosi := by
  unfold SpiUnit.takeBit; dsimp only; split <;> rfl
@[simp] theorem SpiUnit.takeBit_miso (s : Bool) (u : SpiUnit) : (u.takeBit s).miso = u.miso := by
  unfold SpiUnit.takeBit; dsimp only; split <;> rfl
@[simp] theorem SpiUnit.takeBit_cpol (s : Bool) (u : SpiUnit) : (u.takeBit s).cpol = u.cpol := by
  unfold SpiUnit.takeBit; dsimp only; split <;> rfl
@[simp] theorem SpiUnit.takeBit_cpha (s : Bool) (u : SpiUnit) : (u.takeBit s).cpha = u.cpha := by
  unfold SpiUnit.takeBit; dsimp only; split <;> rfl
@[simp] theorem SpiUnit.takeBit_bitOrder (s : Bool) (u : SpiUnit) : (u.takeBit s).bitOrder = u.bitOrder := by
  unfold SpiUnit.takeBit; dsimp only; split <;> rfl

@[simp] theorem SpiUnit.takeBit_rxacc (s : Bool) (u : SpiUnit) : (u.takeBit s).rxacc = shiftIn u.rxacc s := by
  unfold SpiUnit.takeBit; dsimp only; split <;> rfl

@[simp] theorem SpiUnit.takeBit_bitcnt (s : Bool) (u : SpiUnit) : (u.takeBit s).bitcnt = u.bitcnt + 1#4 := by
  unfold SpiUnit.takeBit; dsimp only; split <;> rfl

theorem SpiUnit.takeBit_eighth (s : Bool) (u : SpiUnit) (h : u.bitcnt + 1#4 = 8#4) :
    (u.takeBit s).rxbuf = shiftIn u.rxacc s ∧ (u.takeBit s).rxvalid = true := by
  simp [SpiUnit.takeBit, h]

theorem SpiUnit.takeBit_before (s : Bool) (u : SpiUnit) (h : u.bitcnt + 1#4 ≠ 8#4) :
    (u.takeBit s).rxbuf = u.rxbuf ∧ (u.takeBit s).rxvalid = u.rxvalid := by
  simp [SpiUnit.takeBit, h]

/-! ### `State.handOver` -/

@[simp] theorem State.handOver_params (i : Instr) (c : HostCmd) (s : State) : (s.handOver i c).params = s.params := by
  cases i <;> rfl
@[simp] theorem State.handOver_uart (i : Instr) (c : HostCmd) (s : State) : (s.handOver i c).uart = s.uart := by
  cases i <;> rfl
@[simp] theorem State.handOver_spi (i : Instr) (c : HostCmd) (s : State) : (s.handOver i c).spi = s.spi := by
  cases i <;> rfl
@[simp] theorem State.handOver_host (i : Instr) (c : HostCmd) (s : State) : (s.handOver i c).host = s.host := by
  cases i <;> rfl
@[simp] theorem State.handOver_sched (i : Instr) (c : HostCmd) (s : State) : (s.handOver i c).sched = s.sched := by
  cases i <;> rfl

@[simp] theorem State.handOver_i2s_io (i : Instr) (c : HostCmd) (s : State) : (s.handOver i c).i2s.io = s.i2s.io := by
  cases i <;> rfl

/-! ### Units -/

@[simp] theorem Seq.isIdle_idle : (Seq.idle : Seq c).isIdle = true := rfl

@[simp] theorem Seq.isIdle_running (cmd : c) (i : Nat) : (Seq.running cmd i).isIdle = false := rfl

theorem Seq.eq_idle_of_isIdle {q : Seq c} (h : q.isIdle = true) : q = .idle := by
  cases q with
  | idle => rfl
  | running cmd i => simp at h

end Sys2Proof.Machine
end

