-- ==== Sys2Proof/Laws/Ops.lean ====
section
/-! SUPPORT. What the shared operations can do: the answers still to come, one drive, one sample, one wait, the refusal
checks, and a port event that the environment answers `ok`. -/

namespace Sys2Proof.Machine

variable {c σ α : Type}

/-! ### Answers -/

theorem Draws.All.next {P : α → Prop} {free : Nat → α} {d : Draws α} (h : d.All P free) :
    P (d.next free).1 ∧ (d.next free).2.All P free := by
  obtain ⟨script, rest⟩ := d
  obtain ⟨hs, hr⟩ := h
  cases script with
  | cons a as => exact ⟨hs a List.mem_cons_self, fun b hb => hs b (List.mem_cons_of_mem a hb), hr⟩
  | nil =>
    cases rest with
    | free k => exact ⟨hr k le_rfl, by simp [Draws.next], fun j hj => hr j (by omega)⟩
    | always a => exact ⟨hr, by simp [Draws.next], hr⟩

theorem Draws.All.skip {P : α → Prop} {free : Nat → α} {d : Draws α} (h : d.All P free) (n : Nat) :
    (d.skip free n).All P free := by
  induction n generalizing d with
  | zero => exact h
  | succ n ih => exact ih h.next.2

theorem Draws.all_always {P : α → Prop} {free : Nat → α} {a : α} (h : P a) : (⟨[], .always a⟩ : Draws α).All P free :=
  ⟨by simp, h⟩

@[simp] theorem Draws.skip_zero (free : Nat → α) (d : Draws α) : d.skip free 0 = d := rfl

theorem Draws.skip_succ (free : Nat → α) (n : Nat) (d : Draws α) : d.skip free (n + 1) = (d.next free).2.skip free n := rfl

theorem Draws.skip_add (free : Nat → α) (m n : Nat) (d : Draws α) : d.skip free (m + n) = (d.skip free m).skip free n := by
  induction m generalizing d with
  | zero => simp
  | succ m ih => rw [Nat.succ_add, Draws.skip_succ, Draws.skip_succ, ih]

theorem Draws.next_skip (free : Nat → α) (n : Nat) (d : Draws α) : ((d.skip free n).next free).2 = d.skip free (n + 1) := by
  rw [Draws.skip_add]; rfl

@[simp] theorem Draws.skip_always (free : Nat → α) (n : Nat) (a : α) :
    (⟨[], .always a⟩ : Draws α).skip free n = ⟨[], .always a⟩ := by
  induction n with
  | zero => rfl
  | succ n ih => rw [Draws.skip_succ]; exact ih

theorem Draws.Levels.cons {l : InLine} {v : Bool} {vs : List Bool} {d : Draws SampleAnswer} (h : d.Levels l (v :: vs)) :
    (d.next (Config.freeSample l.unit)).1 = .level v ∧ (d.next (Config.freeSample l.unit)).2.Levels l vs := by
  simpa [Draws.Levels, Draws.first] using h

theorem Draws.Levels.append {l : InLine} {vs ws : List Bool} {d : Draws SampleAnswer} (h : d.Levels l (vs ++ ws)) :
    d.Levels l vs ∧ (d.skip (Config.freeSample l.unit) vs.length).Levels l ws := by
  induction vs generalizing d with
  | nil => exact ⟨rfl, h⟩
  | cons v vs ih =>
    obtain ⟨h1, h2⟩ := Draws.Levels.cons h
    obtain ⟨h3, h4⟩ := ih h2
    refine ⟨?_, h4⟩
    rw [Draws.Levels] at h3 ⊢
    simp [Draws.first, h1, h3]

/-! ### One event, whatever the answer -/

/-- The unit's part after a drive. -/
theorem UnitIo.drive_snd (l : OutLine) (v : Bool) (io : UnitIo c) :
    (io.drive l v).2 = ⟨io.life, io.seq, (io.drives.next (Config.freeDrive l.unit)).2, io.ticks,
      io.trace ++ [.drive l v (io.drives.next (Config.freeDrive l.unit)).1], io.outcomes, io.fresh⟩ := rfl

/-- `try Drive`: the level follows the answer, and only an error raises (rules R26, R149). -/
theorem UnitIo.tryDrive_cases (l : OutLine) (v : Bool) (put : UnitIo c → Level → σ) (io : UnitIo c) :
    ((io.drive l v).1 = .ok ∧ io.tryDrive l v put = .done (put (io.drive l v).2 (Level.ofBit v))) ∨
    (∃ e, (io.drive l v).1 = .err e ∧ io.tryDrive l v put = .raised (.busError e) (put (io.drive l v).2 .x)) := by
  cases h : (io.drive l v).1 with
  | ok => exact .inl ⟨rfl, by simp [UnitIo.tryDrive, h, levelAfter]⟩
  | err e => exact .inr ⟨e, rfl, by simp [UnitIo.tryDrive, h, levelAfter]⟩

/-- `try Sample`: the level goes on, an error raises (rule R149). -/
theorem UnitIo.trySample_cases (l : InLine) (ds : Draws SampleAnswer) (put : UnitIo c → Draws SampleAnswer → σ)
    (use : Bool → σ → EventEnd σ) (io : UnitIo c) :
    let d := ds.next (Config.freeSample l.unit)
    (∃ v, d.1 = .level v ∧ io.trySample l ds put use = use v (put (io.record (.sample l (.level v))) d.2)) ∨
    (∃ e, d.1 = .err e ∧ io.trySample l ds put use = .raised (.busError e) (put (io.record (.sample l (.err e))) d.2)) := by
  dsimp only
  cases h : (ds.next (Config.freeSample l.unit)).1 with
  | level v => exact .inl ⟨v, rfl, by simp [UnitIo.trySample, UnitIo.sample, h]⟩
  | err e => exact .inr ⟨e, rfl, by simp [UnitIo.trySample, UnitIo.sample, h]⟩

/-- `try WaitTick`: a tick and an ignored failure go on alike, a fatal failure raises (rules R150, R185), and a stopped timer
is stuck. -/
theorem UnitIo.tryWait_cases (u : UnitId) (p : Params) (put keep : UnitIo c → σ) (io : UnitIo c) :
    let d := io.ticks.next (freeTick u)
    let after := fun e : Option TimError =>
      (⟨io.life, io.seq, io.drives, d.2, io.trace ++ [.wait e], io.outcomes, io.fresh⟩ : UnitIo c)
    ((d.1 = .ok ∨ ∃ t, d.1 = .err t ∧ tickFatal p u = false) ∧ io.tryWait u p put keep = .done (put (after none))) ∨
    (∃ t, d.1 = .err t ∧ tickFatal p u = true ∧ io.tryWait u p put keep = .raised (.timerError t) (keep (after (some t)))) ∨
    (d.1 = .never ∧ io.tryWait u p put keep = .stuck (.timerStopped u)) := by
  dsimp only
  cases h : (io.ticks.next (freeTick u)).1 with
  | ok => exact .inl ⟨.inl rfl, by simp [UnitIo.tryWait, UnitIo.record, h]⟩
  | err t =>
    cases hf : tickFatal p u with
    | false => exact .inl ⟨.inr ⟨t, rfl, rfl⟩, by simp [UnitIo.tryWait, UnitIo.record, h, hf]⟩
    | true => exact .inr (.inl ⟨t, rfl, rfl, by simp [UnitIo.tryWait, UnitIo.record, h, hf]⟩)
  | never => exact .inr (.inr ⟨rfl, by simp [UnitIo.tryWait, h]⟩)

/-- No drive is made again at its position. -/
theorem UnitIo.tryDrive_ne_again {l : OutLine} {v : Bool} {put : UnitIo c → Level → σ} {io : UnitIo c} {s : σ} :
    io.tryDrive l v put ≠ .again s := by
  rcases UnitIo.tryDrive_cases l v put io with ⟨-, h⟩ | ⟨e, -, h⟩ <;> simp [h]

/-- No wait is made again at its position. -/
theorem UnitIo.tryWait_ne_again {u : UnitId} {p : Params} {put keep : UnitIo c → σ} {io : UnitIo c} {s : σ} :
    io.tryWait u p put keep ≠ .again s := by
  rcases UnitIo.tryWait_cases u p put keep io with ⟨-, h⟩ | ⟨t, -, -, h⟩ | ⟨-, h⟩ <;> simp [h]

/-- A wait whose failure ends the command: `AlwaysFatal`, outside the I2S unit (rule R150). -/
theorem tickFatal_true {u : UnitId} {p : Params} (hu : u = .uart ∨ u = .spi) (h : tickFatal p u = true) :
    p.timerFailPolicy = .alwaysFatal := by
  rcases hu with rfl | rfl <;> simpa [tickFatal] using h

/-- A wait whose failure is ignored: `Reference` (rule R150). -/
theorem tickFatal_false {u : UnitId} {p : Params} (hu : u = .uart ∨ u = .spi) (h : tickFatal p u = false) :
    p.timerFailPolicy = .reference := by
  rcases hu with rfl | rfl <;> cases hp : p.timerFailPolicy <;> simp [tickFatal, hp] at h ⊢

/-- A drive of one line leaves the level of a line of another unit (rules R18, R26). -/
theorem levelThrough_other {u : UnitId} {l l' : OutLine} {v : Bool} {r : DriveAnswer} {lvl : Level} (hl : l.unit = u)
    (h : l'.unit ≠ u) : levelThrough l' lvl (.drive l v r) = lvl := by
  have hne : ¬ l = l' := fun he => h (he ▸ hl)
  simp [levelThrough, hne]

/-! ### Events answered `ok` -/

/-- The unit's part after a drive answered `ok`. -/
def UnitIo.drove (l : OutLine) (v : Bool) (io : UnitIo c) : UnitIo c :=
  ⟨io.life, io.seq, (io.drives.next (Config.freeDrive l.unit)).2, io.ticks, io.trace ++ [dOk l v], io.outcomes, io.fresh⟩

/-- The unit's part after a wait answered `ok`. -/
def UnitIo.waited (u : UnitId) (io : UnitIo c) : UnitIo c :=
  ⟨io.life, io.seq, io.drives, (io.ticks.next (freeTick u)).2, io.trace ++ [wOk], io.outcomes, io.fresh⟩

@[simp] theorem UnitIo.drove_life (l : OutLine) (v : Bool) (io : UnitIo c) : (io.drove l v).life = io.life := rfl
@[simp] theorem UnitIo.drove_seq (l : OutLine) (v : Bool) (io : UnitIo c) : (io.drove l v).seq = io.seq := rfl
@[simp] theorem UnitIo.drove_ticks (l : OutLine) (v : Bool) (io : UnitIo c) : (io.drove l v).ticks = io.ticks := rfl
@[simp] theorem UnitIo.drove_trace (l : OutLine) (v : Bool) (io : UnitIo c) :
    (io.drove l v).trace = io.trace ++ [dOk l v] := rfl
@[simp] theorem UnitIo.drove_outcomes (l : OutLine) (v : Bool) (io : UnitIo c) : (io.drove l v).outcomes = io.outcomes := rfl
@[simp] theorem UnitIo.drove_fresh (l : OutLine) (v : Bool) (io : UnitIo c) : (io.drove l v).fresh = io.fresh := rfl
@[simp] theorem UnitIo.drove_drives (l : OutLine) (v : Bool) (io : UnitIo c) :
    (io.drove l v).drives = io.drives.skip (Config.freeDrive l.unit) 1 := rfl
@[simp] theorem UnitIo.waited_life (u : UnitId) (io : UnitIo c) : (io.waited u).life = io.life := rfl
@[simp] theorem UnitIo.waited_seq (u : UnitId) (io : UnitIo c) : (io.waited u).seq = io.seq := rfl
@[simp] theorem UnitIo.waited_drives (u : UnitId) (io : UnitIo c) : (io.waited u).drives = io.drives := rfl
@[simp] theorem UnitIo.waited_trace (u : UnitId) (io : UnitIo c) : (io.waited u).trace = io.trace ++ [wOk] := rfl
@[simp] theorem UnitIo.waited_outcomes (u : UnitId) (io : UnitIo c) : (io.waited u).outcomes = io.outcomes := rfl
@[simp] theorem UnitIo.waited_fresh (u : UnitId) (io : UnitIo c) : (io.waited u).fresh = io.fresh := rfl
@[simp] theorem UnitIo.waited_ticks (u : UnitId) (io : UnitIo c) :
    (io.waited u).ticks = io.ticks.skip (freeTick u) 1 := rfl

theorem UnitIo.AllOk.drove {u : UnitId} {l : OutLine} {io : UnitIo c} (h : io.AllOk u) (hl : l.unit = u) (v : Bool) :
    (io.drove l v).AllOk u := by
  subst hl; exact ⟨h.1.next.2, h.2⟩

theorem UnitIo.AllOk.waited {u : UnitId} {io : UnitIo c} (h : io.AllOk u) : (io.waited u).AllOk u := ⟨h.1, h.2.next.2⟩

theorem UnitIo.AllOk.goto {u : UnitId} {io : UnitIo c} (h : io.AllOk u) (cmd : c) (i : Nat) : (io.goto cmd i).AllOk u := h

theorem UnitIo.AllOk.start {u : UnitId} {io : UnitIo c} (h : io.AllOk u) (cmd : c) : (io.start cmd).AllOk u := h

theorem UnitIo.AllOk.record {u : UnitId} {io : UnitIo c} (h : io.AllOk u) (e : Event) : (io.record e).AllOk u := h

theorem UnitIo.tryDrive_ok {u : UnitId} {l : OutLine} {io : UnitIo c} (h : io.AllOk u) (hl : l.unit = u) (v : Bool)
    (put : UnitIo c → Level → σ) : io.tryDrive l v put = .done (put (io.drove l v) (Level.ofBit v)) := by
  subst hl
  have h1 : (io.drives.next (Config.freeDrive l.unit)).1 = .ok := h.1.next.1
  simp [UnitIo.tryDrive, UnitIo.drive, h1, UnitIo.drove, UnitIo.record, dOk, levelAfter]

theorem UnitIo.tryWait_ok {u : UnitId} {io : UnitIo c} (h : io.AllOk u) (p : Params) (put keep : UnitIo c → σ) :
    io.tryWait u p put keep = .done (put (io.waited u)) := by
  have h1 : (io.ticks.next (freeTick u)).1 = .ok := h.2.next.1
  simp [UnitIo.tryWait, h1, UnitIo.waited, UnitIo.record, wOk]

/-! ### Refusals -/

theorem unlessRefused_next {r : Option Refusal} {s t : State} : unlessRefused r s = .next t ↔ r = none ∧ s = t := by
  cases r <;> simp [unlessRefused]

theorem unlessRefused_refused {r : Option Refusal} {s : State} {q : Refusal} : unlessRefused r s = .refused q ↔ r = some q := by
  cases r <;> simp [unlessRefused]

theorem unlessRefused_ne_fault {r : Option Refusal} {s : State} {f : Fault} : unlessRefused r s ≠ .fault f := by
  cases r <;> simp [unlessRefused]

/-- A command other than INIT is admitted exactly on an IDLE, CONFIGURED unit (rules R16, R24). -/
theorem UnitIo.refusal_use {io : UnitIo c} : io.refusal false = none ↔ io.seq = .idle ∧ io.life = .configured := by
  obtain ⟨life, seq, d, t, tr, o, f⟩ := io
  cases seq <;> cases life <;> simp [UnitIo.refusal]

/-- INIT is admitted exactly on an IDLE, UNCONFIGURED unit (rules R16, R24). -/
theorem UnitIo.refusal_construct {io : UnitIo c} : io.refusal true = none ↔ io.seq = .idle ∧ io.life = .unconfigured := by
  obtain ⟨life, seq, d, t, tr, o, f⟩ := io
  cases seq <;> cases life <;> simp [UnitIo.refusal]

end Sys2Proof.Machine
end

