-- ==== Sys2Proof/Laws/Turn.lean ====
section
/-! SUPPORT. What a step can do, said once: whose turn it is, a unit's event or the host's command; and runs of one unit's
events as runs of that unit alone. -/

namespace Sys2Proof.Machine

variable {α : Type}

/-! ### A unit's events -/

/-- `k` events of a unit, stopping at the first fault. -/
def iterEvent (f : α → Except Fault α) : Nat → α → Except Fault α
  | 0, u     => .ok u
  | k + 1, u =>
    match f u with
    | .ok v    => iterEvent f k v
    | .error e => .error e

@[simp] theorem iterEvent_zero (f : α → Except Fault α) (u : α) : iterEvent f 0 u = .ok u := rfl

theorem iterEvent_succ_ok {f : α → Except Fault α} {u v : α} (h : f u = .ok v) (k : Nat) :
    iterEvent f (k + 1) u = iterEvent f k v := by simp [iterEvent, h]

theorem iterEvent_add_ok {f : α → Except Fault α} {m : Nat} {u v : α} (h : iterEvent f m u = .ok v) (n : Nat) :
    iterEvent f (m + n) u = iterEvent f n v := by
  induction m generalizing u with
  | zero => cases h; simp
  | succ m ih =>
    cases hu : f u with
    | error e => simp [iterEvent, hu] at h
    | ok w =>
      rw [iterEvent_succ_ok hu] at h
      rw [Nat.succ_add, iterEvent_succ_ok hu, ih h]

theorem runUnit_i2s (k : Nat) (s : State) :
    runUnit .i2s k s = afterEvent (fun x => { s with i2s := x }) (iterEvent (I2sUnit.event s.params) k s.i2s) := by
  induction k generalizing s with
  | zero => rfl
  | succ k ih => cases h : s.i2s.event s.params <;> simp [runUnit, unitTurn, iterEvent, h, afterEvent, ih]

theorem runUnit_uart (k : Nat) (s : State) :
    runUnit .uart k s = afterEvent (fun x => { s with uart := x }) (iterEvent (UartUnit.event s.params) k s.uart) := by
  induction k generalizing s with
  | zero => rfl
  | succ k ih => cases h : s.uart.event s.params <;> simp [runUnit, unitTurn, iterEvent, h, afterEvent, ih]

theorem runUnit_spi (k : Nat) (s : State) :
    runUnit .spi k s = afterEvent (fun x => { s with spi := x }) (iterEvent (SpiUnit.event s.params) k s.spi) := by
  induction k generalizing s with
  | zero => rfl
  | succ k ih => cases h : s.spi.event s.params <;> simp [runUnit, unitTurn, iterEvent, h, afterEvent, ih]

/-! ### Inversion -/

theorem afterEvent_next {put : α → State} {r : Except Fault α} {t : State} :
    afterEvent put r = .next t ↔ ∃ x, r = .ok x ∧ put x = t := by
  cases r <;> simp [afterEvent]

theorem afterEvent_fault {put : α → State} {r : Except Fault α} {f : Fault} :
    afterEvent put r = .fault f ↔ r = .error f := by
  cases r <;> simp [afterEvent]

theorem afterEvent_ne_refused {put : α → State} {r : Except Fault α} {q : Refusal} : afterEvent put r ≠ .refused q := by
  cases r <;> simp [afterEvent]

/-- What a unit's turn can do: the unit's event, nothing else. -/
theorem unitTurn_cases {u : UnitId} {s t : State} (h : unitTurn u s = .next t) :
    (u = .i2s ∧ ∃ x, s.i2s.event s.params = .ok x ∧ t = { s with i2s := x }) ∨
    (u = .uart ∧ ∃ x, s.uart.event s.params = .ok x ∧ t = { s with uart := x }) ∨
    (u = .spi ∧ ∃ x, s.spi.event s.params = .ok x ∧ t = { s with spi := x }) := by
  cases u <;> simp only [unitTurn, afterEvent_next] at h <;> obtain ⟨x, hx, rfl⟩ := h
  · exact .inl ⟨rfl, x, hx, rfl⟩
  · exact .inr (.inl ⟨rfl, x, hx, rfl⟩)
  · exact .inr (.inr ⟨rfl, x, hx, rfl⟩)

/-- What the host's turn can do: nothing, or issue its next command to a unit that is IDLE. -/
theorem hostTurn_cases {s t : State} (h : hostTurn s = .next t) :
    t = s ∨ ∃ c cs i, s.host = c :: cs ∧ decode c.word = .ok i ∧ s.busy i.unit = false ∧
      exec i (State.handOver i c { s with host := cs }) = .next t := by
  unfold hostTurn at h
  split at h
  · cases h; exact .inl rfl
  · rename_i c cs hc
    split at h
    · cases h
    · rename_i i hi
      split at h
      · cases h; exact .inl rfl
      · rename_i hb
        exact .inr ⟨c, cs, i, hc, hi, by simpa using hb, h⟩

/-- What a step can do: with the schedule one turn on, the host's turn or a unit's. -/
theorem step_cases {s t : State} (h : step s = .next t) :
    hostTurn { s with sched := (s.sched.next Config.freeTurn).2 } = .next t ∨
    ∃ u, unitTurn u { s with sched := (s.sched.next Config.freeTurn).2 } = .next t := by
  unfold step takeTurn at h
  dsimp only at h
  split at h
  · exact .inl h
  · exact .inr ⟨_, h⟩

/-! ### The host's turn -/

@[simp] theorem State.tookTurn_busy (s : State) (u : UnitId) : s.tookTurn.busy u = s.busy u := rfl
@[simp] theorem State.tookTurn_mover (s : State) (t : Turn) : s.tookTurn.mover t = s.mover t := rfl
@[simp] theorem State.tookTurn_host (s : State) : s.tookTurn.host = s.host := rfl
@[simp] theorem State.tookTurn_params (s : State) : s.tookTurn.params = s.params := rfl
@[simp] theorem State.tookTurn_i2s (s : State) : s.tookTurn.i2s = s.i2s := rfl
@[simp] theorem State.tookTurn_uart (s : State) : s.tookTurn.uart = s.uart := rfl
@[simp] theorem State.tookTurn_spi (s : State) : s.tookTurn.spi = s.spi := rfl

theorem step_eq (s : State) : step s = takeTurn (s.sched.next Config.freeTurn).1 s.tookTurn := rfl

theorem takeTurn_host {t : Turn} {s : State} (h : s.mover t = none) : takeTurn t s = hostTurn s := by
  simp [takeTurn, h]

theorem takeTurn_unit {t : Turn} {s : State} {u : UnitId} (h : s.mover t = some u) : takeTurn t s = unitTurn u s := by
  simp [takeTurn, h]

theorem hostTurn_cons {s : State} {c : HostCmd} {cs : List HostCmd} {i : Instr} (h : s.host = c :: cs)
    (hd : decode c.word = .ok i) :
    hostTurn s = if s.busy i.unit then .next s else exec i (State.handOver i c { s with host := cs }) := by
  unfold hostTurn; rw [h]; dsimp only; rw [hd]

theorem hostTurn_reserved {s : State} {c : HostCmd} {cs : List HostCmd} {e : DecodeError} (h : s.host = c :: cs)
    (hd : decode c.word = .error e) : hostTurn s = .refused .reservedEncoding := by
  unfold hostTurn; rw [h]; dsimp only; rw [hd]

/-! ### Settling an event -/

variable {σ : Type}

@[simp] theorem EventEnd.settle_done (adv : σ → σ) (fin : CmdOutcome → σ → σ) (s : σ) :
    (EventEnd.done s).settle adv fin = .ok (adv s) := rfl
@[simp] theorem EventEnd.settle_again (adv : σ → σ) (fin : CmdOutcome → σ → σ) (s : σ) :
    (EventEnd.again s).settle adv fin = .ok s := rfl
@[simp] theorem EventEnd.settle_raised (adv : σ → σ) (fin : CmdOutcome → σ → σ) (o : CmdOutcome) (s : σ) :
    (EventEnd.raised o s).settle adv fin = .ok (fin o s) := rfl
@[simp] theorem EventEnd.settle_stuck (adv : σ → σ) (fin : CmdOutcome → σ → σ) (f : Fault) :
    (EventEnd.stuck f : EventEnd σ).settle adv fin = .error f := rfl
@[simp] theorem EventEnd.andThen_done (f : σ → σ) (s : σ) : (EventEnd.done s).andThen f = .done (f s) := rfl
@[simp] theorem EventEnd.andThen_raised (f : σ → σ) (o : CmdOutcome) (s : σ) :
    (EventEnd.raised o s).andThen f = .raised o s := rfl

end Sys2Proof.Machine
end

