-- ==== Sys2Proof/Laws/I2s.lean ====
section
/-! SUPPORT. What an I2S event can do, the run of a frame whose port events the environment answers `ok`, and the run of a
whole transfer. -/

namespace Sys2Proof.Machine

/-! ### One event -/

/-- What an I2S event can do: nothing on an idle unit; otherwise its port event completes or ends the command with an
error. -/
theorem I2sUnit.event_cases {p : Params} {u v : I2sUnit} (h : u.event p = .ok v) :
    (u.io.seq = .idle ∧ v = u) ∨
    ∃ cmd i, u.io.seq = .running cmd i ∧
      ((u.actAt p i = none ∧ v = u.finish .ok) ∨
        ∃ a, u.actAt p i = some a ∧
          ((∃ w, u.perform p a = .done w ∧ v = w.advance p cmd i) ∨ u.perform p a = .again v ∨
            (∃ o w, u.perform p a = .raised o w ∧ v = w.finish o))) := by
  unfold I2sUnit.event at h
  split at h
  · rename_i hs; cases h; exact .inl ⟨hs, rfl⟩
  · rename_i cmd i hs
    refine .inr ⟨cmd, i, hs, ?_⟩
    split at h
    · rename_i ha; cases h; exact .inl ⟨ha, rfl⟩
    · rename_i a ha
      refine .inr ⟨a, ha, ?_⟩
      cases hp : u.perform p a <;> simp only [hp, EventEnd.settle] at h <;> cases h
      · exact .inl ⟨_, rfl, rfl⟩
      · exact .inr (.inl rfl)
      · exact .inr (.inr ⟨_, _, rfl, rfl⟩)

theorem I2sUnit.event_running {p : Params} {u : I2sUnit} {cmd : I2sRun} {i : Nat} {a : I2sAct}
    (hs : u.io.seq = .running cmd i) (ha : u.actAt p i = some a) :
    u.event p = (u.perform p a).settle (I2sUnit.advance p cmd i) I2sUnit.finish := by
  simp [I2sUnit.event, hs, ha]

/-- No I2S port event is made again: the poll is the UART's alone (rule R32). -/
theorem I2sUnit.perform_ne_again {p : Params} {a : I2sAct} {u v : I2sUnit} : u.perform p a ≠ .again v := by
  cases a <;> simp only [I2sUnit.perform] <;> first | apply UnitIo.tryDrive_ne_again | apply UnitIo.tryWait_ne_again

/-- What a port event leaves as it was, and the trace and the levels it makes: `u` before, `v` after, `ev` the event. -/
structure I2sUnit.Performed (u v : I2sUnit) (ev : Event) : Prop where
  trace    : v.io.trace = u.io.trace ++ [ev]
  seq      : v.io.seq = u.io.seq
  life     : v.io.life = u.io.life
  outcomes : v.io.outcomes = u.io.outcomes
  fresh    : v.io.fresh = u.io.fresh
  mode     : v.mode = u.mode
  n        : v.cur.n = u.cur.n
  frame    : v.cur.frame = u.cur.frame
  uL       : v.cur.uL = u.cur.uL
  uR       : v.cur.uR = u.cur.uR
  seqL     : v.seqL = u.seqL
  seqR     : v.seqR = u.seqR
  prodL    : v.prodL = u.prodL
  prodR    : v.prodR = u.prodR
  lvlSck   : v.lvlSck = levelThrough .i2sSck u.lvlSck ev
  lvlSd    : v.lvlSd = levelThrough .i2sSd u.lvlSd ev
  lvlWs    : v.lvlWs = levelThrough .i2sWs u.lvlWs ev
  own      : ∀ l lvl, l.unit ≠ .i2s → levelThrough l lvl ev = lvl

/-- What one I2S port event can do (rules R89, R90, R149): complete, raise an error that its event shows, or be stuck. -/
theorem I2sUnit.perform_cases (p : Params) (a : I2sAct) (u : I2sUnit) :
    (∃ v ev, u.perform p a = .done v ∧ u.Performed v ev ∧ ev.pinError = none ∧ ∀ t, ev ≠ .wait (some t)) ∨
    (∃ v ev o, u.perform p a = .raised o v ∧ u.Performed v ev ∧
      ((∃ e, o = .busError e ∧ ev.pinError = some e) ∨ (∃ t, o = .timerError t ∧ ev = .wait (some t)))) ∨
    (u.perform p a = .stuck (.timerStopped .i2s) ∧ (u.io.ticks.next (freeTick .i2s)).1 = .never) := by
  cases a with
  | tick =>
    rcases UnitIo.tryWait_cases .i2s p (fun io => { u with io := io }) (fun io => { u with io := io }) u.io with
      ⟨-, h⟩ | ⟨t, -, -, h⟩ | ⟨h1, h⟩
    · exact .inl ⟨_, .wait none, h, ⟨rfl, rfl, rfl, rfl, rfl, rfl, rfl, rfl, rfl, rfl, rfl, rfl, rfl, rfl, rfl, rfl, rfl, fun _ _ _ => rfl⟩,
        rfl, fun t ht => by cases ht⟩
    · exact .inr (.inl ⟨_, .wait (some t), _, h,
        ⟨rfl, rfl, rfl, rfl, rfl, rfl, rfl, rfl, rfl, rfl, rfl, rfl, rfl, rfl, rfl, rfl, rfl, fun _ _ _ => rfl⟩, .inr ⟨t, rfl, rfl⟩⟩)
    · exact .inr (.inr ⟨h, h1⟩)
  | ws v =>
    rcases UnitIo.tryDrive_cases .i2sWs v (fun io l => { u with io := io, lvlWs := l }) u.io with ⟨h1, h2⟩ | ⟨e, h1, h2⟩
    · exact .inl ⟨_, .drive .i2sWs v .ok, h2,
        ⟨by rw [← h1]; rfl, rfl, rfl, rfl, rfl, rfl, rfl, rfl, rfl, rfl, rfl, rfl, rfl, rfl, rfl, rfl, rfl,
          fun _ _ hl => levelThrough_other rfl hl⟩,
        rfl, fun t ht => by cases ht⟩
    · exact .inr (.inl ⟨_, .drive .i2sWs v (.err e), _, h2,
        ⟨by rw [← h1]; rfl, rfl, rfl, rfl, rfl, rfl, rfl, rfl, rfl, rfl, rfl, rfl, rfl, rfl, rfl, rfl, rfl,
          fun _ _ hl => levelThrough_other rfl hl⟩,
        .inl ⟨e, rfl, rfl⟩⟩)
  | sd side k =>
    rcases UnitIo.tryDrive_cases .i2sSd (bitAt u.cur.n (u.cur.word side) k)
      (fun io l => { u with io := io, lvlSd := l }) u.io with ⟨h1, h2⟩ | ⟨e, h1, h2⟩
    · exact .inl ⟨_, .drive .i2sSd (bitAt u.cur.n (u.cur.word side) k) .ok, h2,
        ⟨by rw [← h1]; rfl, rfl, rfl, rfl, rfl, rfl, rfl, rfl, rfl, rfl, rfl, rfl, rfl, rfl, rfl, rfl, rfl,
          fun _ _ hl => levelThrough_other rfl hl⟩,
        rfl, fun t ht => by cases ht⟩
    · exact .inr (.inl ⟨_, .drive .i2sSd (bitAt u.cur.n (u.cur.word side) k) (.err e), _, h2,
        ⟨by rw [← h1]; rfl, rfl, rfl, rfl, rfl, rfl, rfl, rfl, rfl, rfl, rfl, rfl, rfl, rfl, rfl, rfl, rfl,
          fun _ _ hl => levelThrough_other rfl hl⟩,
        .inl ⟨e, rfl, rfl⟩⟩)
  | sckHigh =>
    rcases UnitIo.tryDrive_cases .i2sSck true (fun io l => { u with io := io, lvlSck := l }) u.io with ⟨h1, h2⟩ | ⟨e, h1, h2⟩
    · exact .inl ⟨_, .drive .i2sSck true .ok, h2,
        ⟨by rw [← h1]; rfl, rfl, rfl, rfl, rfl, rfl, rfl, rfl, rfl, rfl, rfl, rfl, rfl, rfl, rfl, rfl, rfl,
          fun _ _ hl => levelThrough_other rfl hl⟩,
        rfl, fun t ht => by cases ht⟩
    · exact .inr (.inl ⟨_, .drive .i2sSck true (.err e), _, h2,
        ⟨by rw [← h1]; rfl, rfl, rfl, rfl, rfl, rfl, rfl, rfl, rfl, rfl, rfl, rfl, rfl, rfl, rfl, rfl, rfl,
          fun _ _ hl => levelThrough_other rfl hl⟩,
        .inl ⟨e, rfl, rfl⟩⟩)
  | sckLow k =>
    rcases UnitIo.tryDrive_cases .i2sSck false
      (fun io l => { u with io := io, lvlSck := l, cur := { u.cur with bitOffset := k } }) u.io with ⟨h1, h2⟩ | ⟨e, h1, h2⟩
    · exact .inl ⟨_, .drive .i2sSck false .ok, h2,
        ⟨by rw [← h1]; rfl, rfl, rfl, rfl, rfl, rfl, rfl, rfl, rfl, rfl, rfl, rfl, rfl, rfl, rfl, rfl, rfl,
          fun _ _ hl => levelThrough_other rfl hl⟩,
        rfl, fun t ht => by cases ht⟩
    · exact .inr (.inl ⟨_, .drive .i2sSck false (.err e), _, h2,
        ⟨by rw [← h1]; rfl, rfl, rfl, rfl, rfl, rfl, rfl, rfl, rfl, rfl, rfl, rfl, rfl, rfl, rfl, rfl, rfl,
          fun _ _ hl => levelThrough_other rfl hl⟩,
        .inl ⟨e, rfl, rfl⟩⟩)

/-! ### From event to event -/

theorem I2sUnit.advance_next {p : Params} {cmd : I2sRun} {i : Nat} {u : I2sUnit}
    (h1 : i + 1 ≠ (prologueActs p u.mode).length)
    (h2 : i + 1 ≠ u.frameStart p + (frameActs p u.mode u.cur.n).length) :
    u.advance p cmd i = I2sUnit.enterWord p { u with io := u.io.goto cmd (i + 1) } := by
  simp only [I2sUnit.advance, h1, h2, if_false]

theorem I2sUnit.advance_prologue {p : Params} {cmd : I2sRun} {i : Nat} {u : I2sUnit}
    (h : i + 1 = (prologueActs p u.mode).length) :
    u.advance p cmd i = I2sUnit.startFrame p cmd { u with io := u.io.goto cmd (i + 1) } := by
  simp only [I2sUnit.advance, h, if_true]

theorem I2sUnit.advance_frame {p : Params} {cmd : I2sRun} {i : Nat} {u : I2sUnit}
    (h1 : i + 1 ≠ (prologueActs p u.mode).length)
    (h2 : i + 1 = u.frameStart p + (frameActs p u.mode u.cur.n).length) :
    u.advance p cmd i =
      I2sUnit.startFrame p cmd
        { u with io := u.io.goto cmd (i + 1), cur := { u.cur with frame := u.cur.frame + 1 } } := by
  unfold I2sUnit.advance
  rw [if_neg h1, if_pos h2]

/-! ### Events answered `ok` -/

/-- The port event of an act answered `ok`, for the current pair of words. -/
def I2sAct.okEvent (c : Cursor) : I2sAct → Event
  | .ws v      => dOk .i2sWs v
  | .sd side k => dOk .i2sSd (bitAt c.n (c.word side) k)
  | .tick      => wOk
  | .sckHigh   => dOk .i2sSck true
  | .sckLow _  => dOk .i2sSck false

/-- The unit after a port event answered `ok`. -/
def I2sUnit.okAct (a : I2sAct) (u : I2sUnit) : I2sUnit :=
  match a with
  | .ws v      => { u with io := u.io.drove .i2sWs v, lvlWs := Level.ofBit v }
  | .sd side k =>
    { u with
      io    := u.io.drove .i2sSd (bitAt u.cur.n (u.cur.word side) k)
      lvlSd := Level.ofBit (bitAt u.cur.n (u.cur.word side) k) }
  | .tick      => { u with io := u.io.waited .i2s }
  | .sckHigh   => { u with io := u.io.drove .i2sSck true, lvlSck := Level.ofBit true }
  | .sckLow k  =>
    { u with io := u.io.drove .i2sSck false, lvlSck := Level.ofBit false, cur := { u.cur with bitOffset := k } }

theorem I2sUnit.perform_ok {p : Params} {a : I2sAct} {u : I2sUnit} (h : u.io.AllOk .i2s) :
    u.perform p a = .done (u.okAct a) := by
  cases a with
  | ws v => simp only [I2sUnit.perform, UnitIo.tryDrive_ok h (l := .i2sWs) rfl]; rfl
  | sd side k => simp only [I2sUnit.perform, UnitIo.tryDrive_ok h (l := .i2sSd) rfl]; rfl
  | tick => simp only [I2sUnit.perform, UnitIo.tryWait_ok h]; rfl
  | sckHigh => simp only [I2sUnit.perform, UnitIo.tryDrive_ok h (l := .i2sSck) rfl]; rfl
  | sckLow k => simp only [I2sUnit.perform, UnitIo.tryDrive_ok h (l := .i2sSck) rfl]; rfl

/-- What the port events of a list leave as they were: all but the unit's answers, trace, position, levels and
`bit_offset`. -/
structure I2sUnit.SameFrame (u v : I2sUnit) : Prop where
  life     : v.io.life = u.io.life
  outcomes : v.io.outcomes = u.io.outcomes
  fresh    : v.io.fresh = u.io.fresh
  mode     : v.mode = u.mode
  n        : v.cur.n = u.cur.n
  frame    : v.cur.frame = u.cur.frame
  uL       : v.cur.uL = u.cur.uL
  uR       : v.cur.uR = u.cur.uR
  seqL     : v.seqL = u.seqL
  seqR     : v.seqR = u.seqR
  prodL    : v.prodL = u.prodL
  prodR    : v.prodR = u.prodR

/-- What a stretch of port events answered `ok` does: these events, these levels, these answers taken, and nothing else. -/
structure I2sUnit.Shows (u v : I2sUnit) (es : List Event) : Prop where
  trace  : v.io.trace = u.io.trace ++ es
  lvlSck : v.lvlSck = levelOf .i2sSck u.lvlSck es
  lvlSd  : v.lvlSd = levelOf .i2sSd u.lvlSd es
  lvlWs  : v.lvlWs = levelOf .i2sWs u.lvlWs es
  drives : v.io.drives = u.io.drives.skip (Config.freeDrive .i2s) (es.length - ticksIn es)
  ticks  : v.io.ticks = u.io.ticks.skip (freeTick .i2s) (ticksIn es)

theorem ticksIn_le (es : List Event) : ticksIn es ≤ es.length := List.countP_le_length

theorem ticksIn_append (es fs : List Event) : ticksIn (es ++ fs) = ticksIn es + ticksIn fs := List.countP_append

theorem levelOf_append (l : OutLine) (lvl : Level) (es fs : List Event) :
    levelOf l lvl (es ++ fs) = levelOf l (levelOf l lvl es) fs := List.foldl_append

theorem I2sUnit.Shows.refl (u : I2sUnit) : u.Shows u [] :=
  ⟨by simp, rfl, rfl, rfl, by simp, by simp [ticksIn]⟩

theorem I2sUnit.Shows.trans {u v w : I2sUnit} {es fs : List Event} (h : u.Shows v es) (k : v.Shows w fs) :
    u.Shows w (es ++ fs) := by
  refine ⟨by rw [k.trace, h.trace, List.append_assoc], by rw [k.lvlSck, h.lvlSck, levelOf_append],
    by rw [k.lvlSd, h.lvlSd, levelOf_append], by rw [k.lvlWs, h.lvlWs, levelOf_append], ?_, ?_⟩
  · rw [k.drives, h.drives, ← Draws.skip_add, ticksIn_append, List.length_append]
    have h1 := ticksIn_le es
    have h2 := ticksIn_le fs
    congr 1
    omega
  · rw [k.ticks, h.ticks, ← Draws.skip_add, ticksIn_append]

theorem I2sUnit.SameFrame.trans {u v w : I2sUnit} (h : u.SameFrame v) (k : v.SameFrame w) : u.SameFrame w :=
  ⟨k.life.trans h.life, k.outcomes.trans h.outcomes, k.fresh.trans h.fresh, k.mode.trans h.mode, k.n.trans h.n,
    k.frame.trans h.frame, k.uL.trans h.uL, k.uR.trans h.uR, k.seqL.trans h.seqL, k.seqR.trans h.seqR,
    k.prodL.trans h.prodL, k.prodR.trans h.prodR⟩

theorem I2sUnit.okAct_sameFrame (a : I2sAct) (u : I2sUnit) : u.SameFrame (u.okAct a) := by
  cases a <;> exact ⟨rfl, rfl, rfl, rfl, rfl, rfl, rfl, rfl, rfl, rfl, rfl, rfl⟩

theorem I2sUnit.okAct_shows (a : I2sAct) (u : I2sUnit) : u.Shows (u.okAct a) [a.okEvent u.cur] := by
  cases a <;> exact ⟨rfl, rfl, rfl, rfl, rfl, rfl⟩

theorem I2sUnit.okAct_allOk {a : I2sAct} {u : I2sUnit} (h : u.io.AllOk .i2s) : (u.okAct a).io.AllOk .i2s := by
  cases a <;> first | exact h.drove rfl _ | exact h.waited

theorem I2sAct.okEvent_congr {c d : Cursor} (hn : d.n = c.n) (hl : d.uL = c.uL) (hr : d.uR = c.uR) (a : I2sAct) :
    a.okEvent d = a.okEvent c := by
  cases a with
  | sd side k => cases side <;> simp [I2sAct.okEvent, Cursor.word, hn, hl, hr]
  | ws v => rfl
  | tick => rfl
  | sckHigh => rfl
  | sckLow k => rfl

theorem I2sUnit.frameStart_congr {p : Params} {u v : I2sUnit} (h : u.SameFrame v) : v.frameStart p = u.frameStart p := by
  simp [I2sUnit.frameStart, h.mode, h.frame, h.n]

/-! ### A frame -/

/-- The rest of a frame, every port event answered `ok`: its events one by one, then the next frame starts. -/
theorem I2sUnit.frame_ok {p : Params} {cmd : I2sRun} {l : List I2sAct} {j : Nat} {u : I2sUnit}
    (hl : (frameActs p u.mode u.cur.n).drop j = l) (hne : l ≠ [])
    (hs : u.io.seq = .running cmd (u.frameStart p + j)) (h : u.io.AllOk .i2s) :
    ∃ v, u.SameFrame v ∧ u.Shows v (l.map (I2sAct.okEvent u.cur)) ∧ v.io.AllOk .i2s ∧
      v.io.seq = .running cmd (u.frameStart p + j + l.length) ∧
      iterEvent (I2sUnit.event p) l.length u =
        .ok (I2sUnit.startFrame p cmd { v with cur := { v.cur with frame := v.cur.frame + 1 } }) := by
  induction l generalizing j u with
  | nil => exact absurd rfl hne
  | cons a l ih =>
    have hP : (prologueActs p u.mode).length ≤ u.frameStart p := by simp [I2sUnit.frameStart]
    have hi : (frameActs p u.mode u.cur.n)[j]? = some a := by
      have := congrArg (fun m => m[0]?) hl
      simpa using this
    have hlen : (frameActs p u.mode u.cur.n).length = j + (l.length + 1) := by
      have h1 := congrArg List.length hl
      have h2 := (List.getElem?_eq_some_iff.mp hi).1
      simp only [List.length_drop, List.length_cons] at h1
      omega
    have hact : u.actAt p (u.frameStart p + j) = some a := by
      have h1 : ¬ u.frameStart p + j < (prologueActs p u.mode).length := by omega
      simp [I2sUnit.actAt, h1, hi]
    have hev : u.event p = .ok ((u.okAct a).advance p cmd (u.frameStart p + j)) := by
      rw [I2sUnit.event_running hs hact, I2sUnit.perform_ok h]; rfl
    have hsame := I2sUnit.okAct_sameFrame a u
    have hst := I2sUnit.frameStart_congr (p := p) hsame
    have hnp : ¬ u.frameStart p + j + 1 = (prologueActs p u.mode).length := by omega
    rw [List.length_cons, iterEvent_succ_ok hev]
    by_cases hl0 : l = []
    · subst hl0
      refine ⟨{ u.okAct a with io := (u.okAct a).io.goto cmd (u.frameStart p + j + 1) }, ?_, ?_, ?_, rfl, ?_⟩
      · exact ⟨hsame.life, hsame.outcomes, hsame.fresh, hsame.mode, hsame.n, hsame.frame, hsame.uL, hsame.uR, hsame.seqL,
          hsame.seqR, hsame.prodL, hsame.prodR⟩
      · have k := I2sUnit.okAct_shows a u
        exact ⟨k.trace, k.lvlSck, k.lvlSd, k.lvlWs, k.drives, k.ticks⟩
      · exact I2sUnit.okAct_allOk h
      · simp only [List.length_nil, Nat.zero_add] at hlen
        rw [List.length_nil, iterEvent_zero, I2sUnit.advance_frame (by rw [hsame.mode]; exact hnp)
          (by rw [hst, hsame.mode, hsame.n]; omega)]
    · have hpos : 0 < l.length := List.length_pos_iff.mpr hl0
      have hadv : (u.okAct a).advance p cmd (u.frameStart p + j) =
          I2sUnit.enterWord p { u.okAct a with io := (u.okAct a).io.goto cmd (u.frameStart p + j + 1) } :=
        I2sUnit.advance_next (by rw [hsame.mode]; exact hnp) (by rw [hst, hsame.mode, hsame.n]; omega)
      rw [hadv]
      have hst' : I2sUnit.frameStart p (I2sUnit.enterWord p
          { u.okAct a with io := (u.okAct a).io.goto cmd (u.frameStart p + j + 1) }) = u.frameStart p := hst
      obtain ⟨v, h1, h2, h3, h4, h5⟩ :=
        ih (j := j + 1)
          (u := I2sUnit.enterWord p { u.okAct a with io := (u.okAct a).io.goto cmd (u.frameStart p + j + 1) })
          (by
            show (frameActs p (u.okAct a).mode (u.okAct a).cur.n).drop (j + 1) = l
            rw [hsame.mode, hsame.n, ← List.drop_drop, hl]; rfl)
          hl0 (by rw [hst']; rfl) (I2sUnit.okAct_allOk h)
      rw [hst'] at h4
      refine ⟨v, ?_, ?_, h3, ?_, h5⟩
      · exact hsame.trans ⟨h1.life, h1.outcomes, h1.fresh, h1.mode, h1.n, h1.frame, h1.uL, h1.uR, h1.seqL, h1.seqR,
          h1.prodL, h1.prodR⟩
      · have k := I2sUnit.okAct_shows a u
        have hmap : l.map (I2sAct.okEvent (u.okAct a).cur) = l.map (I2sAct.okEvent u.cur) :=
          List.map_congr_left (fun b _ => I2sAct.okEvent_congr hsame.n hsame.uL hsame.uR b)
        have h2' : (u.okAct a).Shows v (l.map (I2sAct.okEvent (u.okAct a).cur)) :=
          ⟨h2.trace, h2.lvlSck, h2.lvlSd, h2.lvlWs, h2.drives, h2.ticks⟩
        rw [hmap] at h2'
        exact k.trans h2'
      · rw [h4]; congr 1; omega

/-! ### The trace of a frame is the spec's -/

theorem bitAt_eq (n : Width) (u : Slot) (k : Nat) : bitAt n u k = u.getLsbD (widthBits n - k) := by
  simp [bitAt]

/-- The emissions `k1` to `k2` carry the bits from `N - k1` down to `N - k2` (rule R88). -/
theorem emitted_bits {N k1 k2 : Nat} (h2 : k2 ≤ N) (h : k1 ≤ k2) :
    (List.range' k1 (k2 + 1 - k1)).map (fun k => N - k) =
      (List.range' (N - k2) (N - k1 + 1 - (N - k2))).reverse := by
  apply List.ext_getElem
  · simp only [List.length_map, List.length_range', List.length_reverse]; omega
  · intro i hi hj
    simp only [List.length_map, List.length_range'] at hi
    simp only [List.getElem_map, List.getElem_range', List.getElem_reverse, List.length_range']
    omega

theorem emitBits_okEvents (c : Cursor) (side : Side) {k1 k2 : Nat} (h2 : k2 ≤ widthBits c.n)
    (h : k1 ≤ k2) :
    (emitBits side k1 k2).map (I2sAct.okEvent c) =
      bitsTrace (c.word side) (widthBits c.n - k1 + 1) (widthBits c.n - k2) := by
  have hb : ∀ k, (emitBit side k).map (I2sAct.okEvent c) = bitTrace ((c.word side).getLsbD (widthBits c.n - k)) := by
    intro k
    simp [emitBit, I2sAct.okEvent, bitTrace, bitAt_eq]
  rw [emitBits, bitsTrace, List.map_flatMap, ← emitted_bits h2 h, List.map_map, List.flatMap]
  exact congrArg List.flatten (List.map_congr_left (fun k _ => hb k))

theorem frameActs_okEvents (p : Params) (mode : I2sMode) (c : Cursor) :
    (frameActs p mode c.n).map (I2sAct.okEvent c) = frameTrace p mode c.n c.uL c.uR := by
  have hn : 8 ≤ widthBits c.n := by cases c.n <;> decide
  cases mode with
  | standardI2s =>
    simp only [frameActs, stdFrame, frameTrace, stdFrameTrace, List.map_append, List.map_cons]
    rw [emitBits_okEvents c .left (by omega) (by omega),
      emitBits_okEvents c .left (by omega) (by omega),
      emitBits_okEvents c .right (by omega) (by omega),
      emitBits_okEvents c .right (by omega) (by omega)]
    have e1 : widthBits c.n - 1 + 1 = widthBits c.n := by omega
    have e2 : widthBits c.n - (widthBits c.n - 1) = 1 := by omega
    simp [e1, e2, I2sAct.okEvent, Cursor.word]
  | leftJustified =>
    simp only [frameActs, ljFrame, frameTrace, ljFrameTrace, List.map_append, List.map_cons]
    rw [emitBits_okEvents c .left (by omega) (by omega),
      emitBits_okEvents c .right (by omega) (by omega)]
    have e1 : widthBits c.n - 1 + 1 = widthBits c.n := by omega
    cases p.ljWsPerFrame <;> simp [e1, I2sAct.okEvent, Cursor.word]

theorem prologueActs_okEvents (p : Params) (mode : I2sMode) (c : Cursor) :
    (prologueActs p mode).map (I2sAct.okEvent c) = prologueTrace p mode := by
  obtain ⟨lj, std, tf, rx, bo⟩ := p
  cases mode <;> cases lj <;> cases std <;> rfl

theorem frameActs_ne_nil (p : Params) (mode : I2sMode) (n : Width) : frameActs p mode n ≠ [] := by
  cases mode <;> cases n <;> simp [frameActs, stdFrame, ljFrame]

/-! ### Word patterns and the slots they come from -/

/-- A pattern has the low `N` bits of its slot (rules R47, R87). -/
theorem wordPattern_getLsbD (n : Width) (w : Slot) (j : Nat) :
    (wordPattern n w).getLsbD j = (decide (j < widthBits n) && w.getLsbD j) := by
  by_cases h : j < 32
  · have hm : (BitVec.ofNat 32 (2 ^ widthBits n - 1)).getLsbD j = decide (j < widthBits n) := by
      revert j; cases n <;> decide
    rw [wordPattern, BitVec.getLsbD_and, hm, Bool.and_comm]
  · rw [BitVec.getLsbD_of_ge _ _ (by omega), BitVec.getLsbD_of_ge w j (by omega), Bool.and_false]

/-- A run of bits below `N` is the same of a slot and of its pattern (rule R47). -/
theorem bitsTrace_wordPattern {n : Width} (w : Slot) {hi : Nat} (lo : Nat) (h : hi ≤ widthBits n) :
    bitsTrace (wordPattern n w) hi lo = bitsTrace w hi lo := by
  unfold bitsTrace
  refine congrArg List.flatten (List.map_congr_left fun j hj => ?_)
  have hj' : j < widthBits n := by
    simp only [List.mem_reverse, List.mem_range'_1] at hj
    omega
  rw [wordPattern_getLsbD, decide_eq_true hj', Bool.true_and]

/-- A frame of two patterns is the frame of their slots (rules R47, R93, R94). -/
theorem frameTrace_wordPattern (p : Params) (mode : I2sMode) (n : Width) (l r : Slot) :
    frameTrace p mode n (wordPattern n l) (wordPattern n r) = frameTrace p mode n l r := by
  have hn : 1 ≤ widthBits n := by cases n <;> decide
  cases mode <;>
    simp only [frameTrace, stdFrameTrace, ljFrameTrace, bitsTrace_wordPattern (n := n) _ _ le_rfl,
      bitsTrace_wordPattern (n := n) _ _ hn]

/-- A transfer of the patterns of two sequences is the transfer of their slots (rules R47, R95, R97). -/
theorem transferTrace_wordPairs (p : Params) (mode : I2sMode) (n : Width) (l r : List Slot) :
    transferTrace p mode n (wordPairs n l r) = transferTrace p mode n (l.zip r) := by
  simp only [transferTrace, wordPairs, List.zip_map, List.map_map]
  congr 2
  exact List.map_congr_left fun f _ => frameTrace_wordPattern p mode n f.1 f.2
end Sys2Proof.Machine
end

