-- ==== Sys2Proof/Laws/I2sRun.lean ====
section
/-! SUPPORT. The run of an I2S transfer whose port events the environment answers `ok`: the prologue, one frame,
and all frames of `I2S.WRITE` and of `I2S.WRITE_STREAM`. -/

namespace Sys2Proof.Machine

/-! ### What a frame start leaves as it was -/

/-- A frame start makes no port event; it goes on with the command or ends it with `Ok` (rules R95, R97). -/
theorem I2sUnit.startFrame_io (p : Params) (cmd : I2sRun) (u : I2sUnit) :
    (u.startFrame p cmd).io.trace = u.io.trace ∧ (u.startFrame p cmd).io.life = u.io.life ∧
    (u.startFrame p cmd).mode = u.mode ∧ (u.startFrame p cmd).seqL = u.seqL ∧ (u.startFrame p cmd).seqR = u.seqR ∧
    (u.startFrame p cmd).lvlSck = u.lvlSck ∧ (u.startFrame p cmd).lvlSd = u.lvlSd ∧ (u.startFrame p cmd).lvlWs = u.lvlWs ∧
    (((u.startFrame p cmd).io.seq = u.io.seq ∧ (u.startFrame p cmd).io.outcomes = u.io.outcomes) ∨
      ((u.startFrame p cmd).io.seq = .idle ∧ (u.startFrame p cmd).io.outcomes = u.io.outcomes ++ [.ok])) := by
  cases cmd <;> simp only [I2sUnit.startFrame] <;> repeat' split
  all_goals first
    | exact ⟨rfl, rfl, rfl, rfl, rfl, rfl, rfl, rfl, .inl ⟨rfl, rfl⟩⟩
    | exact ⟨rfl, rfl, rfl, rfl, rfl, rfl, rfl, rfl, .inr ⟨rfl, rfl⟩⟩

/-- What going on after a completed port event leaves as it was (rule R32). -/
theorem I2sUnit.advance_io (p : Params) (cmd : I2sRun) (i : Nat) (u : I2sUnit) :
    (u.advance p cmd i).io.trace = u.io.trace ∧ (u.advance p cmd i).io.life = u.io.life ∧
    (u.advance p cmd i).mode = u.mode ∧ (u.advance p cmd i).seqL = u.seqL ∧ (u.advance p cmd i).seqR = u.seqR ∧
    (u.advance p cmd i).lvlSck = u.lvlSck ∧ (u.advance p cmd i).lvlSd = u.lvlSd ∧ (u.advance p cmd i).lvlWs = u.lvlWs ∧
    (((u.advance p cmd i).io.seq = .running cmd (i + 1) ∧ (u.advance p cmd i).io.outcomes = u.io.outcomes) ∨
      ((u.advance p cmd i).io.seq = .idle ∧ (u.advance p cmd i).io.outcomes = u.io.outcomes ++ [.ok])) := by
  simp only [I2sUnit.advance]
  split
  · exact I2sUnit.startFrame_io p cmd { u with io := u.io.goto cmd (i + 1) }
  · split
    · exact I2sUnit.startFrame_io p cmd
        { u with io := u.io.goto cmd (i + 1), cur := { u.cur with frame := u.cur.frame + 1 } }
    · exact ⟨rfl, rfl, rfl, rfl, rfl, rfl, rfl, rfl, .inl ⟨rfl, rfl⟩⟩

/-- What the start of a transfer leaves as it was (rules R95, R96, R97). -/
theorem I2sUnit.begin_io (p : Params) (cmd : I2sRun) (n : Width) (u : I2sUnit) :
    (u.begin p cmd n).io.trace = u.io.trace ∧ (u.begin p cmd n).io.life = u.io.life ∧
    (u.begin p cmd n).mode = u.mode ∧ (u.begin p cmd n).seqL = u.seqL ∧ (u.begin p cmd n).seqR = u.seqR ∧
    (u.begin p cmd n).lvlSck = u.lvlSck ∧ (u.begin p cmd n).lvlSd = u.lvlSd ∧ (u.begin p cmd n).lvlWs = u.lvlWs ∧
    (((u.begin p cmd n).io.seq = .running cmd 0 ∧ (u.begin p cmd n).io.outcomes = u.io.outcomes) ∨
      ((u.begin p cmd n).io.seq = .idle ∧ (u.begin p cmd n).io.outcomes = u.io.outcomes ++ [.ok])) := by
  simp only [I2sUnit.begin]
  split
  · exact I2sUnit.startFrame_io p cmd
      { u with io := u.io.start cmd, cur := { u.cur with n := n, frame := 0, bitOffset := Config.freeOffset u.io.fresh % (widthBits n + 1) } }
  · exact ⟨rfl, rfl, rfl, rfl, rfl, rfl, rfl, rfl, .inl ⟨rfl, rfl⟩⟩

/-! ### Frames answered `ok` -/

/-- What the frames of a transfer leave as they were. -/
structure I2sUnit.SameTransfer (u v : I2sUnit) : Prop where
  life     : v.io.life = u.io.life
  outcomes : v.io.outcomes = u.io.outcomes
  fresh    : v.io.fresh = u.io.fresh
  mode     : v.mode = u.mode
  n        : v.cur.n = u.cur.n
  seqL     : v.seqL = u.seqL
  seqR     : v.seqR = u.seqR

theorem I2sUnit.SameTransfer.trans {u v w : I2sUnit} (h : I2sUnit.SameTransfer u v) (k : I2sUnit.SameTransfer v w) : I2sUnit.SameTransfer u w :=
  ⟨k.life.trans h.life, k.outcomes.trans h.outcomes, k.fresh.trans h.fresh, k.mode.trans h.mode, k.n.trans h.n,
      k.seqL.trans h.seqL, k.seqR.trans h.seqR⟩

/-- The events of the frames of a transfer (rules R95, R97). -/
def framesTrace (p : Params) (mode : I2sMode) (n : Width) (fs : List (Slot × Slot)) : List Event :=
  (fs.map (fun f => frameTrace p mode n f.1 f.2)).flatten

/-- One frame whose words are loaded: its events, then the next frame starts. -/
theorem I2sUnit.frame_run {p : Params} {cmd : I2sRun} {u : I2sUnit} (l r : Slot)
    (hs : u.io.seq = .running cmd (u.frameStart p)) (h : u.io.AllOk .i2s) (n : Width) (hn : u.cur.n = n) :
    ∃ v : I2sUnit, I2sUnit.SameTransfer u v ∧ v.prodL = u.prodL ∧ v.prodR = u.prodR ∧
        u.Shows v (frameTrace p u.mode n (wordPattern n l) (wordPattern n r)) ∧ v.io.AllOk .i2s ∧
      v.io.seq = .running cmd (v.frameStart p) ∧ v.cur.frame = u.cur.frame + 1 ∧
      iterEvent (I2sUnit.event p) (frameTrace p u.mode n (wordPattern n l) (wordPattern n r)).length (u.load p l r) =
          .ok (I2sUnit.startFrame p cmd v) := by
  subst hn
  obtain ⟨v, h1, h2, h3, h4, h5⟩ := I2sUnit.frame_ok (p := p) (cmd := cmd) (j := 0) (u :=
      u.load p l r) rfl (frameActs_ne_nil p _ _) (by rw [Nat.add_zero]; exact hs) h
  rw [Nat.add_zero] at h4
  have hev : (frameActs p (u.load p l r).mode (u.load p l r).cur.n).map (I2sAct.okEvent (u.load p l r).cur) =
      frameTrace p u.mode u.cur.n (wordPattern u.cur.n l) (wordPattern u.cur.n r) :=
      frameActs_okEvents p u.mode (u.load p l r).cur
  have hlen := congrArg List.length hev
  rw [List.length_map] at hlen
  rw [List.drop_zero] at h2 h4 h5
  rw [hev] at h2
  rw [hlen] at h4 h5
  refine ⟨{ v with cur := { v.cur with frame := v.cur.frame + 1 } }, ?_, h1.prodL, h1.prodR, ?_, h3, ?_, ?_, h5⟩
  · exact ⟨h1.life, h1.outcomes, h1.fresh, h1.mode, h1.n, h1.seqL, h1.seqR⟩
  · exact ⟨h2.trace, h2.lvlSck, h2.lvlSd, h2.lvlWs, h2.drives, h2.ticks⟩
  · show v.io.seq = _
    rw [h4]
    congr 1
    simp only [I2sUnit.frameStart, h1.mode, h1.n, h1.frame, I2sUnit.load, Nat.add_mul, Nat.one_mul, ← hlen, Nat.add_assoc]
  · show v.cur.frame + 1 = _
    rw [h1.frame]; rfl

/-- All frames of `I2S.WRITE` (rules R46, R95). -/
theorem I2sUnit.write_run {p : Params} {n : Width} (ls rs : List Slot) (hlr : ls.length = rs.length) (u : I2sUnit)
    (hL : u.seqL.drop u.cur.frame = ls) (hR : u.seqR.drop u.cur.frame = rs)
    (hs : u.io.seq = .running .write (u.frameStart p)) (h : u.io.AllOk .i2s) (hn : u.cur.n = n) :
    ∃ v : I2sUnit, I2sUnit.SameTransfer u v ∧ v.prodL = u.prodL ∧ v.prodR = u.prodR ∧
        u.Shows v (framesTrace p u.mode n (wordPairs n ls rs)) ∧
      iterEvent (I2sUnit.event p) (framesTrace p u.mode n (wordPairs n ls rs)).length (u.startFrame p .write) =
          .ok (v.finish .ok) := by
  induction ls generalizing rs u with
  | nil =>
    obtain rfl : rs = [] := by cases rs with | nil => rfl | cons => simp at hlr
    have : u.seqL[u.cur.frame]? = none := by
      rw [List.getElem?_eq_none_iff]; exact List.drop_eq_nil_iff.mp hL
    refine ⟨u, ⟨rfl, rfl, rfl, rfl, rfl, rfl, rfl⟩, rfl, rfl, I2sUnit.Shows.refl u, ?_⟩
    simp [framesTrace, wordPairs, I2sUnit.startFrame, this]
  | cons l ls ih =>
    obtain ⟨r, rs, rfl⟩ : ∃ r rs', rs = r :: rs' := by cases rs with | nil => simp at hlr | cons => exact ⟨_, _, rfl⟩
    have e1 : u.seqL[u.cur.frame]? = some l := by have := congrArg (fun m => m[0]?) hL; simpa using this
    have e2 : u.seqR[u.cur.frame]? = some r := by have := congrArg (fun m => m[0]?) hR; simpa using this
    obtain ⟨v, h1, h2, h3, h4, h5, h6, h7, h8⟩ := I2sUnit.frame_run (p := p) l r hs h n hn
    have hL' : v.seqL.drop v.cur.frame = ls := by rw [h1.seqL, h7, ← List.drop_drop, hL]; rfl
    have hR' : v.seqR.drop v.cur.frame = rs := by rw [h1.seqR, h7, ← List.drop_drop, hR]; rfl
    obtain ⟨w, k1, k2, k3, k4, k5⟩ := ih rs (by simpa using hlr) v hL' hR' h6 h5 (h1.n.trans hn)
    have hf : framesTrace p u.mode n (wordPairs n (l :: ls) (r :: rs)) =
        frameTrace p u.mode n (wordPattern n l) (wordPattern n r) ++ framesTrace p u.mode n (wordPairs n ls rs) := rfl
    rw [h1.mode] at k4 k5
    refine ⟨w, h1.trans k1, k2.trans h2, k3.trans h3, ?_, ?_⟩
    · rw [hf]; exact h4.trans k4
    · rw [hf, List.length_append]
      have : u.startFrame p .write = u.load p l r := by simp [I2sUnit.startFrame, e1, e2]
      rw [this, iterEvent_add_ok h8, k5]

/-- The prologue, then the first frame starts (rule R96). -/
theorem I2sUnit.prologue_run {p : Params} {cmd : I2sRun} {n : Width} (u : I2sUnit) (h : u.io.AllOk .i2s) :
    ∃ v : I2sUnit, v.io.life = u.io.life ∧ v.io.outcomes = u.io.outcomes ∧ v.io.fresh = u.io.fresh ∧ v.mode =
        u.mode ∧ v.seqL = u.seqL ∧ v.seqR = u.seqR ∧ v.prodL = u.prodL ∧ v.prodR = u.prodR ∧ v.cur.n = n ∧
        v.cur.frame = 0 ∧ v.io.AllOk .i2s ∧ u.Shows v (prologueTrace p u.mode) ∧
    v.io.seq = .running cmd (v.frameStart p) ∧
    iterEvent (I2sUnit.event p) (prologueTrace p u.mode).length (u.begin p cmd n) = .ok (v.startFrame p cmd) := by
  have hpt : prologueTrace p u.mode = [] ∧ prologueActs p u.mode = [] ∨ prologueTrace p u.mode = [dOk .i2sWs false] ∧
      prologueActs p u.mode = [.ws false] := by
    obtain ⟨lj, std, tf, rx, bo⟩ := p
    cases u.mode <;> cases lj <;> cases std <;> simp [prologueTrace, prologueActs]
  rcases hpt with ⟨h1, h2⟩ | ⟨h1, h2⟩
  · refine ⟨{ u with io := u.io.start cmd, cur := { u.cur with n := n, frame := 0, bitOffset := Config.freeOffset u.io.fresh % (widthBits n + 1) } }, rfl, rfl, rfl,
        rfl, rfl, rfl, rfl, rfl, rfl, rfl, h, ?_, ?_, ?_⟩
    · rw [h1]; exact ⟨by simp [UnitIo.start], rfl, rfl, rfl, rfl, rfl⟩
    · simp [UnitIo.start, I2sUnit.frameStart, h2]
    · simp [h1, I2sUnit.begin, h2]
  · let b : I2sUnit := { u with io := u.io.start cmd, cur := { u.cur with n := n, frame := 0, bitOffset := Config.freeOffset u.io.fresh % (widthBits n + 1) } }
    refine ⟨{ (b.okAct (.ws false)) with io := (b.okAct (.ws false)).io.goto cmd 1 }, rfl, rfl, rfl, rfl, rfl, rfl,
        rfl, rfl, rfl, rfl, I2sUnit.okAct_allOk (a := .ws false) (u := b) h, ?_, ?_, ?_⟩
    · rw [h1]
      exact ⟨rfl, rfl, rfl, rfl, rfl, rfl⟩
    · simp [UnitIo.goto, I2sUnit.frameStart, I2sUnit.okAct, h2, b]
    · have hb : u.begin p cmd n = b := by simp [I2sUnit.begin, h2, b]
      rw [hb, h1]
      have hev : b.event p = .ok ((b.okAct (.ws false)).advance p cmd 0) := by
        rw [I2sUnit.event_running (a := .ws false) rfl (by simp [I2sUnit.actAt, b, h2]), I2sUnit.perform_ok (u :=
            b) h]; rfl
      rw [List.length_singleton, show 1 = 0 + 1 from rfl, iterEvent_succ_ok hev, iterEvent_zero,
          I2sUnit.advance_prologue (by simp [I2sUnit.okAct, b, h2])]

/-- All frames of `I2S.WRITE_STREAM` (rules R48, R97). -/
theorem I2sUnit.stream_run {p : Params} {n : Width} (ls rs : List Slot) (pl pr : Producer) (u : I2sUnit) (hf : u.StreamFrames ls rs pl pr)
    (hs : u.io.seq = .running .writeStream (u.frameStart p)) (h : u.io.AllOk .i2s) (hn : u.cur.n = n) :
    ∃ v : I2sUnit, I2sUnit.SameTransfer u v ∧ v.prodL = pl ∧ v.prodR = pr ∧
        u.Shows v (framesTrace p u.mode n (wordPairs n ls rs)) ∧
      iterEvent (I2sUnit.event p) (framesTrace p u.mode n (wordPairs n ls rs)).length (u.startFrame p .writeStream) =
          .ok (v.finish .ok) := by
  induction ls generalizing rs u with
  | nil =>
    obtain ⟨hlr, hf⟩ := hf
    obtain rfl : rs = [] := by cases rs with | nil => rfl | cons => simp at hlr
    rcases hf with ⟨h1, h2, rfl, rfl⟩ | ⟨x, h1, h2, rfl, rfl⟩
    · refine ⟨{ u with prodL := .empty }, ⟨rfl, rfl, rfl, rfl, rfl, rfl, rfl⟩, rfl, rfl, ⟨by simp [framesTrace,
          wordPairs], rfl, rfl, rfl, by simp [framesTrace, wordPairs], by simp [framesTrace, wordPairs, ticksIn]⟩, ?_⟩
      have : (u.prodL.next (Config.freePull .left)).1 = none := by simpa [Producer.YieldsThenEnds, Draws.first] using h1
      simp [framesTrace, wordPairs, I2sUnit.startFrame, pull, this]
    · refine ⟨{ u with prodL := u.prodL.skip (Config.freePull .left) 1, prodR := .empty }, ⟨rfl, rfl, rfl, rfl, rfl,
          rfl, rfl⟩, rfl, rfl, ⟨by simp [framesTrace, wordPairs], rfl, rfl, rfl, by simp [framesTrace, wordPairs],
          by simp [framesTrace, wordPairs, ticksIn]⟩, ?_⟩
      have e1 : (u.prodL.next (Config.freePull .left)).1 = some x := by simpa [Producer.Yields, Draws.first] using h1
      have e2 : (u.prodR.next (Config.freePull .right)).1 = none := by simpa [Producer.YieldsThenEnds,
          Draws.first] using h2
      simp [framesTrace, wordPairs, I2sUnit.startFrame, pull, e1, e2, Draws.skip]
  | cons l ls ih =>
    have hlr := hf.1
    obtain ⟨r, rs, rfl⟩ : ∃ r rs', rs = r :: rs' := by cases rs with | nil => simp at hlr | cons => exact ⟨_, _, rfl⟩
    have e1 : (u.prodL.next (Config.freePull .left)).1 = some l := by
      rcases hf.2 with ⟨h1, h2, rfl, rfl⟩ | ⟨x, h1, h2, rfl, rfl⟩
      · have := congrArg (fun m => m[0]?) h1; simpa [Draws.first] using this
      · have := congrArg (fun m => m[0]?) h1; simpa [Draws.first] using this
    have e2 : (u.prodR.next (Config.freePull .right)).1 = some r := by
      rcases hf.2 with ⟨h1, h2, rfl, rfl⟩ | ⟨x, h1, h2, rfl, rfl⟩
      · have := congrArg (fun m => m[0]?) h2; simpa [Draws.first] using this
      · have := congrArg (fun m => m[0]?) h2; simpa [Draws.first] using this
    let u' : I2sUnit := { u with prodL := (u.prodL.next (Config.freePull .left)).2, prodR :=
        (u.prodR.next (Config.freePull .right)).2 }
    obtain ⟨v, h1, h2, h3, h4, h5, h6, h7, h8⟩ := I2sUnit.frame_run (p := p) (u := u') l r hs h n hn
    have hf' : v.StreamFrames ls rs pl pr := by
      refine ⟨by simpa using hlr, ?_⟩
      rw [h2, h3]
      rcases hf.2 with ⟨h1, h2, h3, h4⟩ | ⟨x, h1, h2, h3, h4⟩
      · exact .inl ⟨by have := congrArg List.tail h1; simpa [Producer.YieldsThenEnds, Draws.first] using this,
          by have := congrArg List.tail h2; simpa [Producer.Yields, Draws.first] using this, h3, h4⟩
      · exact .inr ⟨x, by have := congrArg List.tail h1; simpa [Producer.Yields, Draws.first] using this,
          by have := congrArg List.tail h2; simpa [Producer.YieldsThenEnds, Draws.first] using this, h3, h4⟩
    obtain ⟨w, k1, k2, k3, k4, k5⟩ := ih rs v hf' h6 h5 (h1.n.trans hn)
    have hff : framesTrace p u.mode n (wordPairs n (l :: ls) (r :: rs)) =
        frameTrace p u.mode n (wordPattern n l) (wordPattern n r) ++ framesTrace p u.mode n (wordPairs n ls rs) := rfl
    rw [h1.mode] at k4 k5
    have h4' : u.Shows v (frameTrace p u.mode n (wordPattern n l) (wordPattern n r)) := ⟨h4.trace, h4.lvlSck,
        h4.lvlSd, h4.lvlWs, h4.drives, h4.ticks⟩
    have h1' : I2sUnit.SameTransfer u v := ⟨h1.life, h1.outcomes, h1.fresh, h1.mode, h1.n, h1.seqL, h1.seqR⟩
    refine ⟨w, h1'.trans k1, k2, k3, ?_, ?_⟩
    · rw [hff]; exact h4'.trans k4
    · rw [hff, List.length_append]
      have : u.startFrame p .writeStream = u'.load p l r := by simp [I2sUnit.startFrame, pull, e1, e2, u']
      rw [this]
      have := iterEvent_add_ok h8
      rw [this]
      exact k5

end Sys2Proof.Machine
end

