-- ==== Sys2Proof/Laws/PerInstr.lean ====
section
/-! SUPPORT. The family `EncodingRow`, one lemma per command: its command word names its own unit and selects exactly one row
of the opcode map, the row of its mnemonic (rules R63, R75). -/

namespace Sys2Proof.Laws.EncodingRow

/-- The mnemonic of a command (rule R75). -/
def mnemonicOf : Instr → String
  | .i2sInit _ => "I2S.INIT"
  | .i2sWrite _ => "I2S.WRITE"
  | .i2sWriteStream _ => "I2S.WRITE_STREAM"
  | .i2sRelease => "I2S.RELEASE"
  | .uartInit => "UART.INIT"
  | .uartWrite _ => "UART.WRITE"
  | .uartRead => "UART.READ"
  | .uartRelease => "UART.RELEASE"
  | .spiInit _ _ => "SPI.INIT"
  | .spiSend _ => "SPI.SEND"
  | .spiRead => "SPI.READ"
  | .spiSetBitOrder _ => "SPI.SET_BIT_ORDER"
  | .spiRelease => "SPI.RELEASE"

/-- The rows a word selects, by mnemonic. -/
def rowsOf (c : CmdWord) : List String := (opcodeMap.filter (fun r => r.selects c)).map OpRow.mnemonic

/-- The command's word is for its unit and selects its row alone. -/
def Statement (i : Instr) : Prop := unitField (encode i) = some i.unit ∧ rowsOf (encode i) = [mnemonicOf i]

theorem i2sInit (mode : BitVec 1) : Statement (.i2sInit mode) := by
  unfold Statement; revert mode; decide +kernel
theorem i2sWrite (wid : BitVec 2) : Statement (.i2sWrite wid) := by
  unfold Statement; revert wid; decide +kernel
theorem i2sWriteStream (wid : BitVec 2) : Statement (.i2sWriteStream wid) := by
  unfold Statement; revert wid; decide +kernel
theorem i2sRelease : Statement .i2sRelease := by unfold Statement; decide +kernel
theorem uartInit : Statement .uartInit := by unfold Statement; decide +kernel
theorem uartWrite (byte : Byte) : Statement (.uartWrite byte) := by
  unfold Statement; revert byte; decide +kernel
theorem uartRead : Statement .uartRead := by unfold Statement; decide +kernel
theorem uartRelease : Statement .uartRelease := by unfold Statement; decide +kernel
theorem spiInit (bo mode2 : BitVec 2) : Statement (.spiInit bo mode2) := by
  unfold Statement; revert bo mode2; decide +kernel
theorem spiSend (byte : Byte) : Statement (.spiSend byte) := by
  unfold Statement; revert byte; decide +kernel
theorem spiRead : Statement .spiRead := by unfold Statement; decide +kernel
theorem spiSetBitOrder (bo1 : BitVec 1) : Statement (.spiSetBitOrder bo1) := by
  unfold Statement; revert bo1; decide +kernel
theorem spiRelease : Statement .spiRelease := by unfold Statement; decide +kernel

end Sys2Proof.Laws.EncodingRow
end

