-- ==== Sys2Proof/Laws/Spi.lean ====
section
/-! SUPPORT. What an SPI event can do, and the run of an SPI send whose port events the environment answers `ok`. -/

namespace Sys2Proof.Machine

/-! ### One event -/

/-- What an SPI event can do: nothing on an idle unit; otherwise its port event completes or ends the command with an
error. -/
theorem SpiUnit.event_cases {p : Params} {u v : SpiUnit} (h : u.event p = .ok v) :
    (u.io.seq = .idle ∧ v = u) ∨
    ∃ cmd i, u.io.seq = .running cmd i ∧
      (((u.acts cmd)[i]? = none ∧ v = u.finish .ok) ∨
        ∃ a, (u.acts cmd)[i]? = some a ∧
          ((∃ w, u.perform p a = .done w ∧ v = w.advance cmd i) ∨ u.perform p a = .again v ∨
            (∃ o w, u.perform p a = .raised o w ∧ v = w.finish o))) := by
  unfold SpiUnit.event at h
  split at h
  · rename_i hs; cases h; exact .inl ⟨hs, rfl⟩
  · rename_i cmd i hs
    refine .inr ⟨cmd, i, hs, ?_⟩
    split at h
    · rename_i ha; cases h; exact .inl ⟨ha, rfl⟩
    · rename_i a ha
      refine .inr ⟨a, ha, ?_⟩
      cases hp : u.perform p a <;> simp only [hp, EventEnd.settle] at h <;> cases h
      · exact .inl ⟨_, rfl, rfl⟩
      · exact .inr (.inl rfl)
      · exact .inr (.inr ⟨_, _, rfl, rfl⟩)

theorem SpiUnit.event_running {p : Params} {u : SpiUnit} {cmd : SpiRun} {i : Nat} {a : SpiAct}
    (hs : u.io.seq = .running cmd i) (ha : (u.acts cmd)[i]? = some a) :
    u.event p = (u.perform p a).settle (SpiUnit.advance cmd i) SpiUnit.finish := by
  simp [SpiUnit.event, hs, ha]

@[simp] theorem modeSeq_length (cpol cpha : Bool) : (modeSeq cpol cpha).length = 5 := by
  cases cpol <;> cases cpha <;> rfl

@[simp] theorem spiSendActs_length (cpol cpha : Bool) (byte : Byte) : (spiSendActs cpol cpha byte).length = 48 := by
  cases cpol <;> cases cpha <;> rfl

/-- What a port event leaves as it was, and the trace and the levels it makes: `u` before, `v` after, `ev` the event. -/
structure SpiUnit.Performed (u v : SpiUnit) (ev : Event) : Prop where
  trace    : v.io.trace = u.io.trace ++ [ev]
  seq      : v.io.seq = u.io.seq
  outcomes : v.io.outcomes = u.io.outcomes
  lvlSck   : v.lvlSck = levelThrough .spiSck u.lvlSck ev
  lvlMosi  : v.lvlMosi = levelThrough .spiMosi u.lvlMosi ev
  own      : ∀ l lvl, l.unit ≠ .spi → levelThrough l lvl ev = lvl

/-- What an event other than a completed construction leaves as it was. -/
structure SpiUnit.SameFields (u v : SpiUnit) : Prop where
  life     : v.io.life = u.io.life
  fresh    : v.io.fresh = u.io.fresh
  cpol     : v.cpol = u.cpol
  cpha     : v.cpha = u.cpha
  bitOrder : v.bitOrder = u.bitOrder

/-- What one SPI port event can do (rules R122, R124, R126 to R133, R149): complete, as a construction, as a sample or as
neither; raise an error that its event shows, no field written; or be stuck. -/
theorem SpiUnit.perform_cases (p : Params) (a : SpiAct) (u : SpiUnit) :
    (∃ v ev, u.perform p a = .done v ∧ u.Performed v ev ∧ ev.pinError = none ∧
      (∀ t, ev ≠ .wait (some t)) ∧
      ((∃ bo m, a = .construct bo m ∧ ∃ w : SpiUnit, u.SameFields w ∧ v = w.constructed p bo m) ∨
        (a = .sample ∧ u.SameFields v ∧ ∃ (w : SpiUnit) (l : Bool), ev = sAt .spiMiso l ∧ v = w.takeBit l ∧ w.rxacc = u.rxacc ∧
          w.bitcnt = u.bitcnt ∧ w.rxbuf = u.rxbuf ∧ w.rxvalid = u.rxvalid) ∨
        ((∀ bo m, a ≠ .construct bo m) ∧ a ≠ .sample ∧ (∀ l, ev ≠ sAt .spiMiso l) ∧ u.SameFields v ∧
          v.rxacc = u.rxacc ∧ v.bitcnt = u.bitcnt ∧ v.rxbuf = u.rxbuf ∧ v.rxvalid = u.rxvalid))) ∨
    (∃ v ev o, u.perform p a = .raised o v ∧ u.Performed v ev ∧ u.SameFields v ∧ v.rxbuf = u.rxbuf ∧
      v.rxvalid = u.rxvalid ∧
      ((∃ e, o = .busError e ∧ ev.pinError = some e) ∨
        (∃ t, o = .timerError t ∧ ev = .wait (some t) ∧ p.timerFailPolicy = .alwaysFatal))) ∨
    (u.perform p a = .stuck (.timerStopped .spi) ∧ (u.io.ticks.next (freeTick .spi)).1 = .never) := by
  cases a with
  | mosi byte i =>
    rcases UnitIo.tryDrive_cases .spiMosi (txBit u.bitOrder byte i)
      (fun io l => { u with io := io, lvlMosi := l }) u.io with
      ⟨h1, h2⟩ | ⟨e, h1, h2⟩
    · exact .inl ⟨_, .drive .spiMosi (txBit u.bitOrder byte i) .ok, h2, ⟨by rw [← h1]; rfl, rfl, rfl, rfl, rfl,
          fun _ _ hl => levelThrough_other rfl hl⟩, rfl, fun t ht => (by cases ht),
        .inr (.inr ⟨fun _ _ hc => (by cases hc), fun hc => (by cases hc), fun l hl => (by cases hl),
          ⟨rfl, rfl, rfl, rfl, rfl⟩, rfl, rfl, rfl, rfl⟩)⟩
    · exact .inr (.inl ⟨_, .drive .spiMosi (txBit u.bitOrder byte i) (.err e), _, h2, ⟨by rw [← h1]; rfl, rfl, rfl, rfl, rfl,
          fun _ _ hl => levelThrough_other rfl hl⟩, ⟨rfl, rfl, rfl, rfl, rfl⟩, rfl, rfl,
        .inl ⟨e, rfl, rfl⟩⟩)
  | sck v =>
    rcases UnitIo.tryDrive_cases .spiSck v (fun io l => { u with io := io, lvlSck := l }) u.io with
      ⟨h1, h2⟩ | ⟨e, h1, h2⟩
    · exact .inl ⟨_, .drive .spiSck v .ok, h2, ⟨by rw [← h1]; rfl, rfl, rfl, rfl, rfl,
          fun _ _ hl => levelThrough_other rfl hl⟩, rfl, fun t ht => (by cases ht),
        .inr (.inr ⟨fun _ _ hc => (by cases hc), fun hc => (by cases hc), fun l hl => (by cases hl),
          ⟨rfl, rfl, rfl, rfl, rfl⟩, rfl, rfl, rfl, rfl⟩)⟩
    · exact .inr (.inl ⟨_, .drive .spiSck v (.err e), _, h2, ⟨by rw [← h1]; rfl, rfl, rfl, rfl, rfl,
          fun _ _ hl => levelThrough_other rfl hl⟩, ⟨rfl, rfl, rfl, rfl, rfl⟩, rfl, rfl,
        .inl ⟨e, rfl, rfl⟩⟩)
  | tick =>
    rcases UnitIo.tryWait_cases .spi p (fun io => { u with io := io }) (fun io => { u with io := io }) u.io with
      ⟨-, h⟩ | ⟨t, -, hf, h⟩ | ⟨h1, h⟩
    · exact .inl ⟨_, .wait none, h, ⟨rfl, rfl, rfl, rfl, rfl, fun _ _ _ => rfl⟩, rfl, fun t ht => (by cases ht),
        .inr (.inr ⟨fun _ _ hc => (by cases hc), fun hc => (by cases hc), fun l hl => (by cases hl),
          ⟨rfl, rfl, rfl, rfl, rfl⟩, rfl, rfl, rfl, rfl⟩)⟩
    · exact .inr (.inl ⟨_, .wait (some t), _, h, ⟨rfl, rfl, rfl, rfl, rfl, fun _ _ _ => rfl⟩,
        ⟨rfl, rfl, rfl, rfl, rfl⟩, rfl, rfl,
        .inr ⟨t, rfl, rfl, tickFatal_true (.inr rfl) hf⟩⟩)
    · exact .inr (.inr ⟨h, h1⟩)
  | sample =>
    rcases UnitIo.trySample_cases .spiMiso u.miso (fun io ds => { u with io := io, miso := ds })
      (fun v u => .done (u.takeBit v)) u.io with ⟨v, -, h⟩ | ⟨e, -, h⟩
    · refine .inl ⟨_, .sample .spiMiso (.level v), h, ⟨by simp, by simp, by simp, by simp [levelThrough],
        by simp [levelThrough], fun _ _ _ => rfl⟩, rfl, fun t ht => (by cases ht), .inr (.inl ⟨rfl, ?_, _, v, rfl, rfl, rfl, rfl, rfl, rfl⟩)⟩
      exact ⟨by simp, by simp, by simp, by simp, by simp⟩
    · exact .inr (.inl ⟨_, .sample .spiMiso (.err e), _, h, ⟨rfl, rfl, rfl, rfl, rfl, fun _ _ _ => rfl⟩,
        ⟨rfl, rfl, rfl, rfl, rfl⟩, rfl, rfl, .inl ⟨e, rfl, rfl⟩⟩)
  | construct bo m =>
    rcases UnitIo.tryDrive_cases .spiSck (cpolOf m) (fun io l => { u with io := io, lvlSck := l }) u.io with
      ⟨h1, h2⟩ | ⟨e, h1, h2⟩
    · exact .inl ⟨_, .drive .spiSck (cpolOf m) .ok, congrArg (EventEnd.andThen (SpiUnit.constructed p bo m)) h2,
        ⟨by rw [← h1]; rfl, rfl, rfl, rfl, rfl,
          fun _ _ hl => levelThrough_other rfl hl⟩, rfl, fun t ht => (by cases ht),
        .inl ⟨bo, m, rfl, { u with io := (u.io.drive .spiSck (cpolOf m)).2, lvlSck := Level.ofBit (cpolOf m) },
          ⟨rfl, rfl, rfl, rfl, rfl⟩, rfl⟩⟩
    · exact .inr (.inl ⟨_, .drive .spiSck (cpolOf m) (.err e), _,
        congrArg (EventEnd.andThen (SpiUnit.constructed p bo m)) h2, ⟨by rw [← h1]; rfl, rfl, rfl, rfl, rfl,
          fun _ _ hl => levelThrough_other rfl hl⟩, ⟨rfl, rfl, rfl, rfl, rfl⟩, rfl, rfl,
        .inl ⟨e, rfl, rfl⟩⟩)

/-! ### Events answered `ok` -/

/-- The level of the next sample of `MISO`, low where it fails. -/
def SpiUnit.nextMiso (u : SpiUnit) : Bool :=
  match (u.miso.next (Config.freeSample .spi)).1 with
  | .level v => v
  | .err _   => false

/-- The unit after a sample of `MISO`. -/
def SpiUnit.sampled (u : SpiUnit) : SpiUnit :=
  { u with io := u.io.record (sAt .spiMiso u.nextMiso), miso := u.miso.skip (Config.freeSample .spi) 1 }

/-- The unit after a drive of `SCK` answered `ok`. -/
def SpiUnit.droveSck (v : Bool) (u : SpiUnit) : SpiUnit :=
  { u with io := u.io.drove .spiSck v, lvlSck := Level.ofBit v }

/-- The unit after a drive of `MOSI` answered `ok`. -/
def SpiUnit.droveMosi (v : Bool) (u : SpiUnit) : SpiUnit :=
  { u with io := u.io.drove .spiMosi v, lvlMosi := Level.ofBit v }

/-- The unit after a port event answered `ok`. -/
def SpiUnit.okAct (p : Params) (a : SpiAct) (u : SpiUnit) : SpiUnit :=
  match a with
  | .construct bo mode2 => SpiUnit.constructed p bo mode2 (u.droveSck (cpolOf mode2))
  | .mosi byte i        => u.droveMosi (txBit u.bitOrder byte i)
  | .sck v              => u.droveSck v
  | .tick               => { u with io := u.io.waited .spi }
  | .sample             => u.sampled.takeBit u.nextMiso

/-- The port event is answered `ok`: a sample by a level, anything else by the environment throughout. -/
def SpiUnit.Answered (a : SpiAct) (u : SpiUnit) : Prop :=
  match a with
  | .sample => ∃ v, (u.miso.next (Config.freeSample .spi)).1 = .level v
  | _       => True

theorem SpiUnit.perform_ok {p : Params} {a : SpiAct} {u : SpiUnit} (h : u.io.AllOk .spi) (ha : u.Answered a) :
    u.perform p a = .done (u.okAct p a) := by
  cases a with
  | construct bo mode2 =>
    simp only [SpiUnit.perform, SpiUnit.driveSck, UnitIo.tryDrive_ok h (l := .spiSck) rfl]; rfl
  | mosi byte i => simp only [SpiUnit.perform, SpiUnit.driveMosi, UnitIo.tryDrive_ok h (l := .spiMosi) rfl]; rfl
  | sck v => simp only [SpiUnit.perform, SpiUnit.driveSck, UnitIo.tryDrive_ok h (l := .spiSck) rfl]; rfl
  | tick => simp only [SpiUnit.perform, UnitIo.tryWait_ok h]; rfl
  | sample =>
    obtain ⟨v, h1⟩ : ∃ v, (u.miso.next (Config.freeSample .spi)).1 = .level v := ha
    simp [SpiUnit.perform, UnitIo.trySample, UnitIo.sample, InLine.unit, h1, SpiUnit.okAct,
      SpiUnit.sampled, SpiUnit.nextMiso, Draws.skip, sAt]

theorem SpiUnit.okAct_allOk {p : Params} {a : SpiAct} {u : SpiUnit} (h : u.io.AllOk .spi) :
    (u.okAct p a).io.AllOk .spi := by
  cases a with
  | sample => simp only [SpiUnit.okAct, SpiUnit.takeBit_io]; exact h.record _
  | construct bo mode2 => exact h.drove (l := .spiSck) rfl (cpolOf mode2)
  | mosi byte i => exact h.drove rfl _
  | sck v => exact h.drove rfl _
  | tick => exact h.waited

/-- No port event of a send writes the control fields (rule R29). -/
theorem SpiUnit.okAct_config {p : Params} {a : SpiAct} {u : SpiUnit} (ha : ∀ bo mode2, a ≠ .construct bo mode2) :
    (u.okAct p a).cpol = u.cpol ∧ (u.okAct p a).cpha = u.cpha ∧ (u.okAct p a).bitOrder = u.bitOrder := by
  cases a with
  | construct bo mode2 => exact absurd rfl (ha bo mode2)
  | sample =>
    simp only [SpiUnit.okAct, SpiUnit.takeBit_cpol, SpiUnit.takeBit_cpha, SpiUnit.takeBit_bitOrder]
    exact ⟨rfl, rfl, rfl⟩
  | mosi byte i => exact ⟨rfl, rfl, rfl⟩
  | sck v => exact ⟨rfl, rfl, rfl⟩
  | tick => exact ⟨rfl, rfl, rfl⟩

/-- The unit after the port events of a list, from position `i` on, each answered `ok`. -/
def SpiUnit.okRun (p : Params) (cmd : SpiRun) : Nat → List SpiAct → SpiUnit → SpiUnit
  | _, [], u     => u
  | i, a :: l, u => SpiUnit.okRun p cmd (i + 1) l { u.okAct p a with io := (u.okAct p a).io.goto cmd (i + 1) }

/-- Each port event of a list is answered `ok` when its turn comes. -/
def SpiUnit.AnsweredAll (p : Params) (cmd : SpiRun) : Nat → List SpiAct → SpiUnit → Prop
  | _, [], _     => True
  | i, a :: l, u =>
    u.Answered a ∧ SpiUnit.AnsweredAll p cmd (i + 1) l { u.okAct p a with io := (u.okAct p a).io.goto cmd (i + 1) }

theorem spiSendActs_ne_construct {cpol cpha : Bool} {byte : Byte} {a : SpiAct} (h : a ∈ spiSendActs cpol cpha byte)
    (bo mode2 : BitVec 2) : a ≠ .construct bo mode2 := by
  rintro rfl
  simp only [spiSendActs, List.mem_flatMap, List.mem_cons] at h
  obtain ⟨i, -, h | h⟩ := h
  · cases h
  · cases cpol <;> cases cpha <;> simp [modeSeq] at h

/-- The rest of a send, every port event answered `ok`: its events one by one, then its outcome. -/
theorem SpiUnit.run_ok {p : Params} {byte : Byte} {l : List SpiAct} {i : Nat} {u : SpiUnit}
    (hl : (u.acts (.send byte)).drop i = l) (hne : l ≠ []) (hs : u.io.seq = .running (.send byte) i)
    (h : u.io.AllOk .spi) (ha : u.AnsweredAll p (.send byte) i l) :
    iterEvent (SpiUnit.event p) l.length u = .ok ((u.okRun p (.send byte) i l).finish .ok) := by
  induction l generalizing i u with
  | nil => exact absurd rfl hne
  | cons a l ih =>
    have hi : (u.acts (.send byte))[i]? = some a := by
      have := congrArg (fun m => m[0]?) hl
      simpa using this
    have hlt := (List.getElem?_eq_some_iff.mp hi).1
    have hlen : (u.acts (.send byte)).length = i + (l.length + 1) := by
      have h1 := congrArg List.length hl
      simp only [List.length_drop, List.length_cons] at h1
      omega
    have hmem : a ∈ u.acts (.send byte) := List.mem_of_getElem? hi
    have hcfg := SpiUnit.okAct_config (p := p) (u := u) (spiSendActs_ne_construct hmem)
    have hacts : ∀ io : UnitIo SpiRun,
        SpiUnit.acts (.send byte) { u.okAct p a with io := io } = u.acts (.send byte) := by
      intro io
      simp only [SpiUnit.acts, hcfg.1, hcfg.2.1]
    have hacts0 : (u.okAct p a).acts (.send byte) = u.acts (.send byte) := hacts (u.okAct p a).io
    have hev : u.event p = .ok ((u.okAct p a).advance (.send byte) i) := by
      rw [SpiUnit.event_running hs hi, SpiUnit.perform_ok h ha.1]; rfl
    rw [List.length_cons, iterEvent_succ_ok hev]
    by_cases hl0 : l = []
    · subst hl0
      have h1 : ¬ i + 1 < (u.acts (.send byte)).length := by simp at hlen; omega
      simp only [List.length_nil, iterEvent_zero, SpiUnit.advance, hacts0, h1, if_false, SpiUnit.okRun]
      rfl
    · have h1 : i + 1 < (u.acts (.send byte)).length := by
        have : 0 < l.length := List.length_pos_iff.mpr hl0
        omega
      have hadv : (u.okAct p a).advance (.send byte) i =
          { u.okAct p a with io := (u.okAct p a).io.goto (.send byte) (i + 1) } := by
        simp only [SpiUnit.advance, hacts0, h1, if_true]
      rw [hadv]
      refine ih ?_ hl0 rfl (SpiUnit.okAct_allOk h) ha.2
      rw [hacts, ← List.drop_drop, hl]; rfl

end Sys2Proof.Machine
end

