-- ==== Sys2Proof/Laws/SpiRun.lean ====
section
/-! SUPPORT. The run of `SPI.SEND` whose port events the environment answers `ok`: one bit in each of the four modes,
    and the
whole byte. -/

namespace Sys2Proof.Machine

/-- One bit of a send, answered `ok` (rules R126 to R131, R133). -/
theorem SpiUnit.okRun_bit (p : Params) (cmd : SpiRun) (byte : Byte) (k i : Nat) (life : Life) (seq : Seq SpiRun)
    (drives : Draws DriveAnswer) (ticks : Draws TickAnswer) (trace : List Event) (outcomes : List CmdOutcome) (fresh : Nat)
    (l1 l2 : Level) (miso : Draws SampleAnswer) (cpol cpha : Bool) (bo : BitOrder) (rxbuf rxacc : Byte) (rxvalid : Bool)
    (n : BitVec 4) (v : Bool) (hl : (miso.next (Config.freeSample .spi)).1 = .level v) (rest : List SpiAct) :
    let u : SpiUnit :=
      ⟨⟨life, seq, drives, ticks, trace, outcomes, fresh⟩, l1, l2, miso, cpol, cpha, bo, rxbuf, rxvalid, rxacc, n⟩
    let w : SpiUnit := SpiUnit.takeBit v
      ⟨⟨life, .running cmd (i + 6), drives.skip (Config.freeDrive .spi) 3, ticks.skip (freeTick .spi) 2,
        trace ++ spiBitTrace cpol cpha (txBit bo byte k) v, outcomes, fresh⟩, Level.ofBit cpol,
        Level.ofBit (txBit bo byte k), miso.skip (Config.freeSample .spi) 1, cpol, cpha, bo, rxbuf, rxvalid, rxacc, n⟩
    SpiUnit.okRun p cmd i (.mosi byte k :: modeSeq cpol cpha ++ rest) u = SpiUnit.okRun p cmd (i + 6) rest w ∧
    (SpiUnit.AnsweredAll p cmd i (.mosi byte k :: modeSeq cpol cpha ++ rest) u ↔
      SpiUnit.AnsweredAll p cmd (i + 6) rest w) := by
  intro u w
  rcases em (n + 1#4 = 8#4) with h8 | h8 <;> cases cpol <;> cases cpha <;>
    simp [modeSeq, SpiUnit.okRun, SpiUnit.AnsweredAll, SpiUnit.Answered, SpiUnit.okAct, SpiUnit.droveSck,
      SpiUnit.droveMosi, SpiUnit.sampled, SpiUnit.nextMiso, hl, UnitIo.goto, UnitIo.record, UnitIo.drove, UnitIo.waited,
      u, w, SpiUnit.takeBit, h8, spiBitTrace, Draws.skip, OutLine.unit, Level.ofBit]

theorem spiSendActs_eq (cpol cpha : Bool) (byte : Byte) : spiSendActs cpol cpha byte =
    (.mosi byte 0 :: modeSeq cpol cpha ++ (.mosi byte 1 :: modeSeq cpol cpha ++ (.mosi byte 2 :: modeSeq cpol cpha ++
      (.mosi byte 3 :: modeSeq cpol cpha ++ (.mosi byte 4 :: modeSeq cpol cpha ++ (.mosi byte 5 :: modeSeq cpol cpha ++
        (.mosi byte 6 :: modeSeq cpol cpha ++ (.mosi byte 7 :: modeSeq cpol cpha ++ [])))))))) := by
  cases cpol <;> cases cpha <;> rfl

/-- A bit that is not the eighth leaves `RXBUF` and `RXVALID` (rule R131). -/
theorem SpiUnit.takeBit_more {n : BitVec 4} (hn : n + 1#4 ≠ 8#4) (v : Bool) (io : UnitIo SpiRun) (a b : Level)
    (m : Draws SampleAnswer) (cpol cpha : Bool) (bo : BitOrder) (rxbuf : Byte) (rxvalid : Bool) (acc : Byte) :
    SpiUnit.takeBit v ⟨io, a, b, m, cpol, cpha, bo, rxbuf, rxvalid, acc, n⟩ =
      ⟨io, a, b, m, cpol, cpha, bo, rxbuf, rxvalid, shiftIn acc v, n + 1#4⟩ := by
  simp [SpiUnit.takeBit, hn]

/-- All port events of a send answered `ok` (rules R125 to R134). -/
theorem SpiUnit.okRun_send (p : Params) (byte : Byte) (life : Life) (seq : Seq SpiRun) (drives : Draws DriveAnswer)
    (ticks : Draws TickAnswer) (trace : List Event) (outcomes : List CmdOutcome) (fresh : Nat) (l1 l2 : Level)
    (miso : Draws SampleAnswer) (cpol cpha : Bool) (bo : BitOrder) (rxbuf : Byte) (rxvalid : Bool)
    (a b c d e f g h : Bool) (hl : miso.Levels .spiMiso [a, b, c, d, e, f, g, h]) :
    SpiUnit.AnsweredAll p (.send byte) 0 (spiSendActs cpol cpha byte)
        ⟨⟨life, seq, drives, ticks, trace, outcomes, fresh⟩, l1, l2, miso, cpol, cpha, bo, rxbuf, rxvalid, 0#8, 0#4⟩ ∧
    SpiUnit.okRun p (.send byte) 0 (spiSendActs cpol cpha byte)
        ⟨⟨life, seq, drives, ticks, trace, outcomes, fresh⟩, l1, l2, miso, cpol, cpha, bo, rxbuf, rxvalid, 0#8, 0#4⟩ =
      ⟨⟨life, .running (.send byte) 48, drives.skip (Config.freeDrive .spi) 24, ticks.skip (freeTick .spi) 16,
        trace ++ spiSendTrace cpol cpha ((List.range 8).map (txBit bo byte)) [a, b, c, d, e, f, g, h], outcomes, fresh⟩,
        Level.ofBit cpol, Level.ofBit (txBit bo byte 7), miso.skip (Config.freeSample .spi) 8, cpol, cpha, bo,
        [a, b, c, d, e, f, g, h].foldl shiftIn 0#8, true, [a, b, c, d, e, f, g, h].foldl shiftIn 0#8, 8#4⟩ := by
  obtain ⟨h1, hl⟩ := hl.cons
  obtain ⟨h2, hl⟩ := hl.cons
  obtain ⟨h3, hl⟩ := hl.cons
  obtain ⟨h4, hl⟩ := hl.cons
  obtain ⟨h5, hl⟩ := hl.cons
  obtain ⟨h6, hl⟩ := hl.cons
  obtain ⟨h7, hl⟩ := hl.cons
  obtain ⟨h8, hl⟩ := hl.cons
  have hs : ∀ d, (Draws.next (Config.freeSample .spi) d).2 = d.skip (Config.freeSample .spi) 1 := fun _ => rfl
  simp only [InLine.unit] at *
  simp only [hs] at h2 h3 h4 h5 h6 h7 h8
  rw [spiSendActs_eq]
  constructor
  · rw [(SpiUnit.okRun_bit p _ byte 0 _ _ _ _ _ _ _ _ _ _ _ _ _ _ _ _ _ _ a h1 _).2, SpiUnit.takeBit_more (by decide)]
    rw [(SpiUnit.okRun_bit p _ byte 1 _ _ _ _ _ _ _ _ _ _ _ _ _ _ _ _ _ _ b h2 _).2, SpiUnit.takeBit_more (by decide)]
    rw [(SpiUnit.okRun_bit p _ byte 2 _ _ _ _ _ _ _ _ _ _ _ _ _ _ _ _ _ _ c h3 _).2, SpiUnit.takeBit_more (by decide)]
    rw [(SpiUnit.okRun_bit p _ byte 3 _ _ _ _ _ _ _ _ _ _ _ _ _ _ _ _ _ _ d h4 _).2, SpiUnit.takeBit_more (by decide)]
    rw [(SpiUnit.okRun_bit p _ byte 4 _ _ _ _ _ _ _ _ _ _ _ _ _ _ _ _ _ _ e h5 _).2, SpiUnit.takeBit_more (by decide)]
    rw [(SpiUnit.okRun_bit p _ byte 5 _ _ _ _ _ _ _ _ _ _ _ _ _ _ _ _ _ _ f h6 _).2, SpiUnit.takeBit_more (by decide)]
    rw [(SpiUnit.okRun_bit p _ byte 6 _ _ _ _ _ _ _ _ _ _ _ _ _ _ _ _ _ _ g h7 _).2, SpiUnit.takeBit_more (by decide)]
    rw [(SpiUnit.okRun_bit p _ byte 7 _ _ _ _ _ _ _ _ _ _ _ _ _ _ _ _ _ _ h h8 _).2]
    trivial
  · rw [(SpiUnit.okRun_bit p _ byte 0 _ _ _ _ _ _ _ _ _ _ _ _ _ _ _ _ _ _ a h1 _).1, SpiUnit.takeBit_more (by decide)]
    rw [(SpiUnit.okRun_bit p _ byte 1 _ _ _ _ _ _ _ _ _ _ _ _ _ _ _ _ _ _ b h2 _).1, SpiUnit.takeBit_more (by decide)]
    rw [(SpiUnit.okRun_bit p _ byte 2 _ _ _ _ _ _ _ _ _ _ _ _ _ _ _ _ _ _ c h3 _).1, SpiUnit.takeBit_more (by decide)]
    rw [(SpiUnit.okRun_bit p _ byte 3 _ _ _ _ _ _ _ _ _ _ _ _ _ _ _ _ _ _ d h4 _).1, SpiUnit.takeBit_more (by decide)]
    rw [(SpiUnit.okRun_bit p _ byte 4 _ _ _ _ _ _ _ _ _ _ _ _ _ _ _ _ _ _ e h5 _).1, SpiUnit.takeBit_more (by decide)]
    rw [(SpiUnit.okRun_bit p _ byte 5 _ _ _ _ _ _ _ _ _ _ _ _ _ _ _ _ _ _ f h6 _).1, SpiUnit.takeBit_more (by decide)]
    rw [(SpiUnit.okRun_bit p _ byte 6 _ _ _ _ _ _ _ _ _ _ _ _ _ _ _ _ _ _ g h7 _).1, SpiUnit.takeBit_more (by decide)]
    rw [(SpiUnit.okRun_bit p _ byte 7 _ _ _ _ _ _ _ _ _ _ _ _ _ _ _ _ _ _ h h8 _).1]
    simp [SpiUnit.okRun, SpiUnit.takeBit, spiSendTrace, List.range, List.range.loop, Draws.skip]

end Sys2Proof.Machine
end

