-- ==== Sys2Proof/Laws/Uart.lean ====
section
/-! SUPPORT. What a UART event can do, and the run of a UART command whose port events the environment answers `ok`. -/

namespace Sys2Proof.Machine

/-! ### One event -/

/-- What a UART event can do: nothing on an idle unit; otherwise its port event completes, is made again, or ends the
command with an error. -/
theorem UartUnit.event_cases {p : Params} {u v : UartUnit} (h : u.event p = .ok v) :
    (u.io.seq = .idle ∧ v = u) ∨
    ∃ cmd i, u.io.seq = .running cmd i ∧
      (((uartActs cmd)[i]? = none ∧ v = u.finish (u.outcome cmd)) ∨
        ∃ a, (uartActs cmd)[i]? = some a ∧
          ((∃ w, u.perform p a = .done w ∧ v = w.advance cmd i) ∨ u.perform p a = .again v ∨
            (∃ o w, u.perform p a = .raised o w ∧ v = w.finish o))) := by
  unfold UartUnit.event at h
  split at h
  · rename_i hs; cases h; exact .inl ⟨hs, rfl⟩
  · rename_i cmd i hs
    refine .inr ⟨cmd, i, hs, ?_⟩
    split at h
    · rename_i ha; cases h; exact .inl ⟨ha, rfl⟩
    · rename_i a ha
      refine .inr ⟨a, ha, ?_⟩
      cases hp : u.perform p a <;> simp only [hp, EventEnd.settle] at h <;> cases h
      · exact .inl ⟨_, rfl, rfl⟩
      · exact .inr (.inl rfl)
      · exact .inr (.inr ⟨_, _, rfl, rfl⟩)

theorem UartUnit.event_running {p : Params} {u : UartUnit} {cmd : UartRun} {i : Nat} {a : UartAct}
    (hs : u.io.seq = .running cmd i) (ha : (uartActs cmd)[i]? = some a) :
    u.event p = (u.perform p a).settle (UartUnit.advance cmd i) UartUnit.finish := by
  simp [UartUnit.event, hs, ha]

@[simp] theorem uartWriteActs_length : uartWriteActs.length = 20 := by decide

@[simp] theorem uartReadActs_length : uartReadActs.length = 19 := by decide

/-- What a port event leaves as it was, and the trace and the level it makes: `u` before, `v` after, `ev` the event. -/
structure UartUnit.Performed (u v : UartUnit) (ev : Event) : Prop where
  trace    : v.io.trace = u.io.trace ++ [ev]
  seq      : v.io.seq = u.io.seq
  life     : v.io.life = u.io.life
  outcomes : v.io.outcomes = u.io.outcomes
  fresh    : v.io.fresh = u.io.fresh
  lvlTx    : v.lvlTx = levelThrough .uartTx u.lvlTx ev
  own      : ∀ l lvl, l.unit ≠ .uart → levelThrough l lvl ev = lvl

/-- What one UART port event can do (rules R109, R110, R114, R149): complete, be made again after a high poll, raise an error
that its event shows, or be stuck. -/
theorem UartUnit.perform_cases (p : Params) (a : UartAct) (u : UartUnit) :
    (∃ v ev, u.perform p a = .done v ∧ u.Performed v ev ∧ ev.pinError = none ∧
      (∀ t, ev ≠ .wait (some t))) ∨
    (a = .poll ∧ ∃ v, u.perform p a = .again v ∧ u.Performed v (sAt .uartRx true) ∧
      v.txsr = u.txsr ∧ v.rxacc = u.rxacc ∧ v.bitcnt = u.bitcnt) ∨
    (∃ v ev o, u.perform p a = .raised o v ∧ u.Performed v ev ∧
      ((∃ e, o = .busError e ∧ ev.pinError = some e) ∨
        (∃ t, o = .timerError t ∧ ev = .wait (some t) ∧ p.timerFailPolicy = .alwaysFatal))) ∨
    (u.perform p a = .stuck (.timerStopped .uart) ∧ (u.io.ticks.next (freeTick .uart)).1 = .never) := by
  cases a with
  | start =>
    rcases UnitIo.tryDrive_cases .uartTx false (fun io l => { u with io := io, lvlTx := l }) u.io with
      ⟨h1, h2⟩ | ⟨e, h1, h2⟩
    · exact .inl ⟨_, .drive .uartTx false .ok, h2, ⟨by rw [← h1]; rfl, rfl, rfl, rfl, rfl, rfl,
          fun _ _ hl => levelThrough_other rfl hl⟩, rfl, fun t ht => by cases ht⟩
    · exact .inr (.inr (.inl ⟨_, .drive .uartTx false (.err e), _, h2, ⟨by rw [← h1]; rfl, rfl, rfl, rfl, rfl, rfl,
          fun _ _ hl => levelThrough_other rfl hl⟩, .inl ⟨e, rfl, rfl⟩⟩))
  | data =>
    rcases UnitIo.tryDrive_cases .uartTx (u.txsr.getLsbD 0) (fun io l => { u with io := io, lvlTx := l }) u.io with
      ⟨h1, h2⟩ | ⟨e, h1, h2⟩
    · exact .inl ⟨_, .drive .uartTx (u.txsr.getLsbD 0) .ok, h2, ⟨by rw [← h1]; rfl, rfl, rfl, rfl, rfl, rfl,
          fun _ _ hl => levelThrough_other rfl hl⟩, rfl, fun t ht => by cases ht⟩
    · exact .inr (.inr (.inl ⟨_, .drive .uartTx (u.txsr.getLsbD 0) (.err e), _, h2, ⟨by rw [← h1]; rfl, rfl, rfl, rfl, rfl, rfl,
          fun _ _ hl => levelThrough_other rfl hl⟩, .inl ⟨e, rfl, rfl⟩⟩))
  | stop =>
    rcases UnitIo.tryDrive_cases .uartTx true (fun io l => { u with io := io, lvlTx := l }) u.io with
      ⟨h1, h2⟩ | ⟨e, h1, h2⟩
    · exact .inl ⟨_, .drive .uartTx true .ok, h2, ⟨by rw [← h1]; rfl, rfl, rfl, rfl, rfl, rfl,
          fun _ _ hl => levelThrough_other rfl hl⟩, rfl, fun t ht => by cases ht⟩
    · exact .inr (.inr (.inl ⟨_, .drive .uartTx true (.err e), _, h2, ⟨by rw [← h1]; rfl, rfl, rfl, rfl, rfl, rfl,
          fun _ _ hl => levelThrough_other rfl hl⟩, .inl ⟨e, rfl, rfl⟩⟩))
  | tick =>
    rcases UnitIo.tryWait_cases .uart p (fun io => { u with io := io }) (fun io => { u with io := io }) u.io with
      ⟨-, h⟩ | ⟨t, -, hf, h⟩ | ⟨h1, h⟩
    · exact .inl ⟨_, .wait none, h, ⟨rfl, rfl, rfl, rfl, rfl, rfl, fun _ _ _ => rfl⟩, rfl, fun t ht => by cases ht⟩
    · exact .inr (.inr (.inl ⟨_, .wait (some t), _, h, ⟨rfl, rfl, rfl, rfl, rfl, rfl, fun _ _ _ => rfl⟩, .inr ⟨t, rfl, rfl, tickFatal_true (.inl rfl) hf⟩⟩))
    · exact .inr (.inr (.inr ⟨h, h1⟩))
  | shiftTick =>
    rcases UnitIo.tryWait_cases .uart p (fun io => UartUnit.shiftOut { u with io := io }) (fun io => { u with io := io }) u.io with
      ⟨-, h⟩ | ⟨t, -, hf, h⟩ | ⟨h1, h⟩
    · exact .inl ⟨_, .wait none, h, ⟨rfl, rfl, rfl, rfl, rfl, rfl, fun _ _ _ => rfl⟩, rfl, fun t ht => by cases ht⟩
    · exact .inr (.inr (.inl ⟨_, .wait (some t), _, h, ⟨rfl, rfl, rfl, rfl, rfl, rfl, fun _ _ _ => rfl⟩, .inr ⟨t, rfl, rfl, tickFatal_true (.inl rfl) hf⟩⟩))
    · exact .inr (.inr (.inr ⟨h, h1⟩))
  | openTick =>
    rcases UnitIo.tryWait_cases .uart p (fun io => { u with io := io, rxacc := 0#8 }) (fun io => { u with io := io }) u.io with
      ⟨-, h⟩ | ⟨t, -, hf, h⟩ | ⟨h1, h⟩
    · exact .inl ⟨_, .wait none, h, ⟨rfl, rfl, rfl, rfl, rfl, rfl, fun _ _ _ => rfl⟩, rfl, fun t ht => by cases ht⟩
    · exact .inr (.inr (.inl ⟨_, .wait (some t), _, h, ⟨rfl, rfl, rfl, rfl, rfl, rfl, fun _ _ _ => rfl⟩, .inr ⟨t, rfl, rfl, tickFatal_true (.inl rfl) hf⟩⟩))
    · exact .inr (.inr (.inr ⟨h, h1⟩))
  | countTick =>
    rcases UnitIo.tryWait_cases .uart p (fun io => { u with io := io, bitcnt := u.bitcnt + 1#4 }) (fun io => { u with io := io }) u.io with
      ⟨-, h⟩ | ⟨t, -, hf, h⟩ | ⟨h1, h⟩
    · exact .inl ⟨_, .wait none, h, ⟨rfl, rfl, rfl, rfl, rfl, rfl, fun _ _ _ => rfl⟩, rfl, fun t ht => by cases ht⟩
    · exact .inr (.inr (.inl ⟨_, .wait (some t), _, h, ⟨rfl, rfl, rfl, rfl, rfl, rfl, fun _ _ _ => rfl⟩, .inr ⟨t, rfl, rfl, tickFatal_true (.inl rfl) hf⟩⟩))
    · exact .inr (.inr (.inr ⟨h, h1⟩))
  | sample =>
    rcases UnitIo.trySample_cases .uartRx u.rx (fun io ds => { u with io := io, rx := ds })
      (fun v u => .done { u with rxacc := assemble p.uartRxOrder u.rxacc v }) u.io with
      ⟨v, -, h⟩ | ⟨e, -, h⟩
    · exact .inl ⟨_, .sample .uartRx (.level v), h, ⟨rfl, rfl, rfl, rfl, rfl, rfl, fun _ _ _ => rfl⟩, rfl, fun t ht => by cases ht⟩
    · exact .inr (.inr (.inl ⟨_, .sample .uartRx (.err e), _, h, ⟨rfl, rfl, rfl, rfl, rfl, rfl, fun _ _ _ => rfl⟩, .inl ⟨e, rfl, rfl⟩⟩))
  | poll =>
    rcases UnitIo.trySample_cases .uartRx u.rx (fun io ds => { u with io := io, rx := ds }) (fun v u => if v then .again u else .done u) u.io with
      ⟨v, -, h⟩ | ⟨e, -, h⟩
    · cases v with
      | false => exact .inl ⟨_, .sample .uartRx (.level false), h, ⟨rfl, rfl, rfl, rfl, rfl, rfl, fun _ _ _ => rfl⟩, rfl, fun t ht => by cases ht⟩
      | true => exact .inr (.inl ⟨rfl, _, h, ⟨rfl, rfl, rfl, rfl, rfl, rfl, fun _ _ _ => rfl⟩, rfl, rfl, rfl⟩)
    · exact .inr (.inr (.inl ⟨_, .sample .uartRx (.err e), _, h, ⟨rfl, rfl, rfl, rfl, rfl, rfl, fun _ _ _ => rfl⟩, .inl ⟨e, rfl, rfl⟩⟩))

/-! ### Events answered `ok` -/

/-- The level of the next sample of `RX`, low where it fails. -/
def UartUnit.nextRx (u : UartUnit) : Bool :=
  match (u.rx.next (Config.freeSample .uart)).1 with
  | .level v => v
  | .err _   => false

/-- The unit after a sample of `RX`. -/
def UartUnit.sampled (u : UartUnit) : UartUnit :=
  { u with io := u.io.record (sAt .uartRx u.nextRx), rx := u.rx.skip (Config.freeSample .uart) 1 }

/-- The unit after a drive of `TX` answered `ok`. -/
def UartUnit.drove (v : Bool) (u : UartUnit) : UartUnit :=
  { u with io := u.io.drove .uartTx v, lvlTx := Level.ofBit v }

/-- The unit after a wait answered `ok`. -/
def UartUnit.waited (u : UartUnit) : UartUnit := { u with io := u.io.waited .uart }

/-- The unit after a port event answered `ok`. -/
def UartUnit.okAct (p : Params) (a : UartAct) (u : UartUnit) : UartUnit :=
  match a with
  | .start     => u.drove false
  | .data      => u.drove (u.txsr.getLsbD 0)
  | .stop      => u.drove true
  | .poll      => u.sampled
  | .sample    => { u.sampled with rxacc := assemble p.uartRxOrder u.rxacc u.nextRx }
  | .tick      => u.waited
  | .shiftTick => u.waited.shiftOut
  | .openTick  => { u.waited with rxacc := 0#8 }
  | .countTick => { u.waited with bitcnt := u.bitcnt + 1#4 }

/-- The port event is answered `ok`: drives and waits by the environment throughout, a sample here by a level, low for the
start poll. -/
def UartUnit.Answered (a : UartAct) (u : UartUnit) : Prop :=
  match a with
  | .poll   => (u.rx.next (Config.freeSample .uart)).1 = .level false
  | .sample => ∃ v, (u.rx.next (Config.freeSample .uart)).1 = .level v
  | _       => True

theorem UartUnit.perform_ok {p : Params} {a : UartAct} {u : UartUnit} (h : u.io.AllOk .uart) (ha : u.Answered a) :
    u.perform p a = .done (u.okAct p a) := by
  cases a with
  | start => simp only [UartUnit.perform, UartUnit.driveTx, UnitIo.tryDrive_ok h (l := .uartTx) rfl]; rfl
  | data => simp only [UartUnit.perform, UartUnit.driveTx, UnitIo.tryDrive_ok h (l := .uartTx) rfl]; rfl
  | stop => simp only [UartUnit.perform, UartUnit.driveTx, UnitIo.tryDrive_ok h (l := .uartTx) rfl]; rfl
  | tick => simp only [UartUnit.perform, UartUnit.wait, UnitIo.tryWait_ok h]; rfl
  | shiftTick => simp only [UartUnit.perform, UartUnit.wait, UnitIo.tryWait_ok h]; rfl
  | openTick => simp only [UartUnit.perform, UartUnit.wait, UnitIo.tryWait_ok h]; rfl
  | countTick => simp only [UartUnit.perform, UartUnit.wait, UnitIo.tryWait_ok h]; rfl
  | poll =>
    have h1 : (u.rx.next (Config.freeSample .uart)).1 = .level false := ha
    simp [UartUnit.perform, UartUnit.sampleRx, UnitIo.trySample, UnitIo.sample, InLine.unit, h1, UartUnit.okAct,
      UartUnit.sampled, UartUnit.nextRx, Draws.skip, sAt]
  | sample =>
    obtain ⟨v, h1⟩ : ∃ v, (u.rx.next (Config.freeSample .uart)).1 = .level v := ha
    simp [UartUnit.perform, UartUnit.sampleRx, UnitIo.trySample, UnitIo.sample, InLine.unit, h1, UartUnit.okAct,
      UartUnit.sampled, UartUnit.nextRx, Draws.skip, sAt]

theorem UartUnit.okAct_allOk {p : Params} {a : UartAct} {u : UartUnit} (h : u.io.AllOk .uart) :
    (u.okAct p a).io.AllOk .uart := by
  cases a <;> first | exact h.drove rfl _ | exact h.waited | exact h.record _

/-- The unit after the port events of a list, from position `i` on, each answered `ok`. -/
def UartUnit.okRun (p : Params) (cmd : UartRun) : Nat → List UartAct → UartUnit → UartUnit
  | _, [], u     => u
  | i, a :: l, u => UartUnit.okRun p cmd (i + 1) l { u.okAct p a with io := (u.okAct p a).io.goto cmd (i + 1) }

/-- Each port event of a list is answered `ok` when its turn comes. -/
def UartUnit.AnsweredAll (p : Params) (cmd : UartRun) : Nat → List UartAct → UartUnit → Prop
  | _, [], _     => True
  | i, a :: l, u =>
    u.Answered a ∧ UartUnit.AnsweredAll p cmd (i + 1) l { u.okAct p a with io := (u.okAct p a).io.goto cmd (i + 1) }

/-- The rest of a UART command, every port event answered `ok`: its events one by one, then its outcome. -/
theorem UartUnit.run_ok {p : Params} {cmd : UartRun} {l : List UartAct} {i : Nat} {u : UartUnit}
    (hl : (uartActs cmd).drop i = l) (hne : l ≠ []) (hs : u.io.seq = .running cmd i) (h : u.io.AllOk .uart)
    (ha : u.AnsweredAll p cmd i l) :
    iterEvent (UartUnit.event p) l.length u = .ok ((u.okRun p cmd i l).finish ((u.okRun p cmd i l).outcome cmd)) := by
  induction l generalizing i u with
  | nil => exact absurd rfl hne
  | cons a l ih =>
    have hi : (uartActs cmd)[i]? = some a := by
      have := congrArg (fun m => m[0]?) hl
      simpa using this
    have hlen : (uartActs cmd).length = i + (l.length + 1) := by
      have h1 := congrArg List.length hl
      have h2 : i < (uartActs cmd).length := by
        rw [List.getElem?_eq_some_iff] at hi; exact hi.1
      simp only [List.length_drop, List.length_cons] at h1
      omega
    have hev : u.event p = .ok ((u.okAct p a).advance cmd i) := by
      rw [UartUnit.event_running hs hi, UartUnit.perform_ok h ha.1]; rfl
    rw [List.length_cons, iterEvent_succ_ok hev]
    by_cases hl0 : l = []
    · subst hl0
      have h1 : ¬ i + 1 < (uartActs cmd).length := by simp at hlen; omega
      simp only [List.length_nil, iterEvent_zero, UartUnit.advance, h1, if_false, UartUnit.okRun]
      cases cmd <;> rfl
    · have h1 : i + 1 < (uartActs cmd).length := by
        have : 0 < l.length := List.length_pos_iff.mpr hl0
        omega
      have hadv : (u.okAct p a).advance cmd i = { u.okAct p a with io := (u.okAct p a).io.goto cmd (i + 1) } := by
        simp [UartUnit.advance, h1]
      rw [hadv]
      refine ih ?_ hl0 rfl (UartUnit.okAct_allOk h) ha.2
      rw [← List.drop_drop, hl]; rfl

/-- The start poll reads high: one sample, and the position stays (rules R113, R114). -/
theorem UartUnit.event_poll_high {p : Params} {u : UartUnit} (hs : u.io.seq = .running .read 0)
    (h1 : (u.rx.next (Config.freeSample .uart)).1 = .level true) :
    u.event p = .ok { u with io := u.io.record (sAt .uartRx true), rx := u.rx.skip (Config.freeSample .uart) 1 } := by
  rw [UartUnit.event_running (a := .poll) hs (by decide)]
  simp [UartUnit.perform, UartUnit.sampleRx, UnitIo.trySample, UnitIo.sample, InLine.unit, h1, Draws.skip, sAt]

end Sys2Proof.Machine
end

