-- ==== Sys2Proof/Laws/UartRun.lean ====
section
/-! SUPPORT. The runs of `UART.WRITE` and `UART.READ` whose port events the environment answers `ok`,
    as the register values and
the traces they end with. -/

namespace Sys2Proof.Machine

theorem uartWriteActs_eq : uartWriteActs =
    [.start, .tick, .data, .shiftTick, .data, .shiftTick, .data, .shiftTick, .data, .shiftTick, .data, .shiftTick, .data,
      .shiftTick, .data, .shiftTick, .data, .shiftTick, .stop, .tick] := by decide

theorem uartReadActs_eq : uartReadActs =
    [.poll, .openTick, .sample, .countTick, .sample, .countTick, .sample, .countTick, .sample, .countTick, .sample,
        .countTick,
      .sample, .countTick, .sample, .countTick, .sample, .countTick, .tick] := by decide

/-- All port events of a write answered `ok` (rules R108, R110). -/
theorem UartUnit.okRun_write (p : Params) (byte : Byte) (life : Life) (seq : Seq UartRun) (drives : Draws DriveAnswer)
    (ticks : Draws TickAnswer) (trace : List Event) (outcomes : List CmdOutcome) (fresh : Nat) (lvl : Level)
    (rx : Draws SampleAnswer) (rxacc : Byte) :
    ∃ tx n, UartUnit.okRun p (.write byte) 0 uartWriteActs
        ⟨⟨life, seq, drives, ticks, trace, outcomes, fresh⟩, lvl, rx, byte, rxacc, 0#4⟩ =
      ⟨⟨life, .running (.write byte) 20, drives.skip (Config.freeDrive .uart) 10, ticks.skip (freeTick .uart) 10,
        trace ++ uartWriteTrace byte, outcomes, fresh⟩, .high, rx, tx, rxacc, n⟩ := by
  simp only [uartWriteActs_eq, UartUnit.okRun, UartUnit.okAct, UartUnit.drove, UartUnit.waited, UartUnit.shiftOut,
    UnitIo.goto, UnitIo.drove, UnitIo.waited, Level.ofBit, OutLine.unit]
  refine ⟨byte >>> 1 >>> 1 >>> 1 >>> 1 >>> 1 >>> 1 >>> 1 >>> 1, 8#4, ?_⟩
  simp [uartWriteTrace, txSlot, List.range', Draws.skip]

/-- All port events of a read from the low poll on, answered `ok` (rules R113 to R116). -/
theorem UartUnit.okRun_read (p : Params) (life : Life) (seq : Seq UartRun) (drives : Draws DriveAnswer)
    (ticks : Draws TickAnswer) (trace : List Event) (outcomes : List CmdOutcome) (fresh : Nat) (lvl : Level)
    (rx : Draws SampleAnswer) (txsr rxacc : Byte) (a b c d e f g h : Bool)
    (hl : rx.Levels .uartRx [false, a, b, c, d, e, f, g, h]) :
    UartUnit.AnsweredAll p .read 0 uartReadActs
        ⟨⟨life, seq, drives, ticks, trace, outcomes, fresh⟩, lvl, rx, txsr, rxacc, 0#4⟩ ∧
    UartUnit.okRun p .read 0 uartReadActs
        ⟨⟨life, seq, drives, ticks, trace, outcomes, fresh⟩, lvl, rx, txsr, rxacc, 0#4⟩ =
      ⟨⟨life, .running .read 19, drives, ticks.skip (freeTick .uart) 10,
        trace ++ uartReadTrace 0 [a, b, c, d, e, f, g, h], outcomes, fresh⟩, lvl,
        rx.skip (Config.freeSample .uart) 9, txsr, [a, b, c, d, e, f, g, h].foldl (assemble p.uartRxOrder) 0#8, 8#4⟩ := by
  obtain ⟨h0, hl⟩ := hl.cons
  obtain ⟨h1, hl⟩ := hl.cons
  obtain ⟨h2, hl⟩ := hl.cons
  obtain ⟨h3, hl⟩ := hl.cons
  obtain ⟨h4, hl⟩ := hl.cons
  obtain ⟨h5, hl⟩ := hl.cons
  obtain ⟨h6, hl⟩ := hl.cons
  obtain ⟨h7, hl⟩ := hl.cons
  obtain ⟨h8, hl⟩ := hl.cons
  simp only [InLine.unit] at *
  constructor
  · simp only [uartReadActs_eq, UartUnit.AnsweredAll, UartUnit.Answered, UartUnit.okAct, UartUnit.sampled,
        UartUnit.waited, Draws.skip, UnitIo.goto, UnitIo.waited, UnitIo.record, UartUnit.nextRx, h0, h1, h2, h3, h4,
        h5, h6, h7, h8]
    simp
  · simp only [uartReadActs_eq, UartUnit.okRun, UartUnit.okAct, UartUnit.sampled, UartUnit.waited, UnitIo.goto,
        UnitIo.record, UnitIo.waited, Draws.skip, UartUnit.nextRx, h0, h1, h2, h3, h4, h5, h6, h7, h8]
    simp [uartReadTrace]

/-- `n` high polls: a sample each, and the position stays (rules R113, R114, R117). -/
theorem UartUnit.polls (p : Params) (n : Nat) (u : UartUnit) (vs : List Bool) (hs : u.io.seq = .running .read 0)
    (h : u.rx.Levels .uartRx (List.replicate n true ++ vs)) :
    iterEvent (UartUnit.event p) n u =
      .ok { u with
        io := { u.io with trace := u.io.trace ++ List.replicate n (sAt .uartRx true) }
        rx := u.rx.skip (Config.freeSample .uart) n } := by
  induction n generalizing u with
  | zero => simp
  | succ n ih =>
    rw [List.replicate_succ, List.cons_append] at h
    obtain ⟨h1, h2⟩ := h.cons
    let v : UartUnit :=
      { u with io := u.io.record (sAt .uartRx true), rx := u.rx.skip (Config.freeSample .uart) 1 }
    rw [iterEvent_succ_ok (UartUnit.event_poll_high hs h1), ih v hs h2]
    simp [v, UnitIo.record, List.replicate_succ, Draws.skip]

end Sys2Proof.Machine
end

