-- ==== Sys2Proof/Tests/Slice0.lean ====
section
/-! SUPPORT. Small tests: reserved fields, words decoded by hand, one step of each command and of the spec's vectors
(95_test_vectors.md), and for every statement with hypotheses a state and operands that meet them. -/

namespace Sys2Proof.Tests

open Sys2Proof Sys2Proof.Machine

/-! ### Small states -/

/-- The next state of an outcome, if it has one. -/
def nextOf : Host.Outcome State Fault Refusal → Option State
  | .next s    => some s
  | .fault _   => none
  | .refused _ => none

/-- The refusal of an outcome, if it has one. -/
def refusalOf : Host.Outcome State Fault Refusal → Option Refusal
  | .next _    => none
  | .fault _   => none
  | .refused r => some r

/-- Power-on with an environment that answers `ok` and samples high, and the running unit or the host to move. -/
def quiet : State :=
  { State.reset with
    i2s   := { I2sUnit.reset with io := { UnitIo.reset with drives := ⟨[], .always .ok⟩, ticks := ⟨[], .always .ok⟩ } }
    uart  :=
      { UartUnit.reset with
        io := { UnitIo.reset with drives := ⟨[], .always .ok⟩, ticks := ⟨[], .always .ok⟩ }
        rx := ⟨[], .always (.level true)⟩ }
    spi   :=
      { SpiUnit.reset with
        io := { UnitIo.reset with drives := ⟨[], .always .ok⟩, ticks := ⟨[], .always .ok⟩ }
        miso := ⟨[], .always (.level true)⟩ }
    sched := ⟨[], .always .auto⟩ }

/-- The same with all three units CONFIGURED. -/
def ready : State :=
  { quiet with
    i2s  := { quiet.i2s with io := { quiet.i2s.io with life := .configured } }
    uart := { quiet.uart with io := { quiet.uart.io with life := .configured } }
    spi  := { quiet.spi with io := { quiet.spi.io with life := .configured } } }

/-- The I2S unit at the start of a frame of bytes. -/
def inFrame (mode : I2sMode) (ws : Level) : State :=
  { ready with
    i2s := { ready.i2s with
      io := { ready.i2s.io with seq := .running .write 0 }
      lvlWs := ws
      mode := mode
      cur := ⟨.w8, 0, 0xAB#32, 0xCD#32, 0⟩
      seqL := [0xAB#32]
      seqR := [0xCD#32] } }

/-- The UART unit at position `i` of a command. -/
def inUart (cmd : UartRun) (i : Nat) : State :=
  { ready with uart := { ready.uart with io := { ready.uart.io with seq := .running cmd i }, txsr := 0x41#8 } }

/-- The SPI unit at position `i` of a command. -/
def inSpi (cmd : SpiRun) (i : Nat) (n : BitVec 4) (acc : Byte) : State :=
  { ready with spi := { ready.spi with io := { ready.spi.io with seq := .running cmd i }, bitcnt := n, rxacc := acc } }

/-- The host is about to issue a command. -/
def hosting (h : HostCmd) (s : State) : State := { s with host := [h], sched := ⟨[.host], .always .auto⟩ }

/-! ### Reserved fields (rule R77 (d), (e)) -/

theorem test_width_reserved_write : (Instr.i2sWrite 3#2).wellFormed = false := by decide
theorem test_width_reserved_stream : (Instr.i2sWriteStream 3#2).wellFormed = false := by decide
theorem test_order_reserved_init : (Instr.spiInit 3#2 0#2).wellFormed = false := by decide
theorem test_reserved_width_no_word : decode (encode (.i2sWrite 3#2)) = .error .reservedValue := by decide
theorem test_reserved_order_no_word : decode (encode (.spiInit 3#2 1#2)) = .error .reservedValue := by decide

/-! ### Words written out from rules R63 to R71, `UNIT` `OP` `ARG` by hand -/

theorem test_decode_i2s_init : decode 0b00010000000000000000000000000001#32 = .ok (.i2sInit 1#1) := by decide
theorem test_decode_i2s_write : decode 0b00010001000000000000000000000001#32 = .ok (.i2sWrite 1#2) := by decide
theorem test_decode_i2s_write_stream : decode 0b00010010000000000000000000000010#32 = .ok (.i2sWriteStream 2#2) := by decide
theorem test_decode_i2s_release : decode 0b00011111000000000000000000000000#32 = .ok .i2sRelease := by decide
theorem test_decode_uart_init : decode 0b00100000000000000000000000000000#32 = .ok .uartInit := by decide
theorem test_decode_uart_write : decode 0b00100001000000000000000001000001#32 = .ok (.uartWrite 0x41#8) := by decide
theorem test_decode_uart_read : decode 0b00100010000000000000000000000000#32 = .ok .uartRead := by decide
theorem test_decode_uart_release : decode 0b00101111000000000000000000000000#32 = .ok .uartRelease := by decide
theorem test_decode_spi_init : decode 0b00110000000000000000000000001001#32 = .ok (.spiInit 2#2 1#2) := by decide
theorem test_decode_spi_send : decode 0b00110001000000000000000010100101#32 = .ok (.spiSend 0xA5#8) := by decide
theorem test_decode_spi_read : decode 0b00110010000000000000000000000000#32 = .ok .spiRead := by decide
theorem test_decode_spi_set_bit_order : decode 0b00110011000000000000000000000001#32 = .ok (.spiSetBitOrder 1#1) := by decide
theorem test_decode_spi_release : decode 0b00111111000000000000000000000000#32 = .ok .spiRelease := by decide

/-- V52, V57, V58, V65 to V68. -/
theorem test_decode_refused :
    decode 0x10000002#32 = .error .argBits ∧ decode 0x21000141#32 = .error .argBits ∧
    decode 0x23000000#32 = .error .reservedOp ∧ decode 0x33000002#32 = .error .argBits ∧
    decode 0x00000000#32 = .error .reservedUnit ∧ decode 0x4F000000#32 = .error .reservedUnit ∧
    decode 0x1F000001#32 = .error .argBits := by decide

/-! ### One step each (95_test_vectors.md) -/

/-- V14: INIT writes `MODE` and `LIFE`. -/
theorem test_i2s_init : (nextOf (exec (.i2sInit 1#1) quiet)).map (fun s => (s.i2s.mode, s.i2s.io.life, s.i2s.io.outcomes)) =
    some (.leftJustified, .configured, [.ok]) := by decide

/-- V14: INIT of a CONFIGURED unit is refused. -/
theorem test_i2s_init_twice : refusalOf (exec (.i2sInit 0#1) ready) = some .alreadyConfigured := by decide

/-- V7: empty sequences complete at once in StandardI2S. -/
theorem test_i2s_write_empty : (nextOf (exec (.i2sWrite 1#2) ready)).map (fun s => (s.i2s.io.trace, s.i2s.io.outcomes)) =
    some ([], [.ok]) := by decide

/-- V8: unequal lengths are refused. -/
theorem test_i2s_write_lengths :
    refusalOf (exec (.i2sWrite 0#2) { ready with i2s := { ready.i2s with seqL := [1#32, 2#32], seqR := [3#32] } }) =
      some .lengthMismatch := by decide

/-- V11: the first pair is pulled from both producers as the stream starts. -/
theorem test_i2s_write_stream :
    (nextOf (exec (.i2sWriteStream 0#2)
        { ready with i2s := { ready.i2s with
          prodL := ⟨[some 1#32, some 2#32], .always none⟩, prodR := ⟨[some 4#32], .always none⟩ } })).map
      (fun s => (s.i2s.cur.uL, s.i2s.cur.uR, s.i2s.prodL.script, s.i2s.prodR.script)) =
      some (1#32, 4#32, [some 2#32], []) := by decide

/-- V11, variant: `PL` ends at once, and `PR` is never pulled. -/
theorem test_i2s_write_stream_ends :
    (nextOf (exec (.i2sWriteStream 0#2)
        { ready with i2s := { ready.i2s with prodL := ⟨[none], .always none⟩, prodR := ⟨[some 4#32], .always none⟩ } })).map
      (fun s => (s.i2s.io.trace, s.i2s.io.outcomes, s.i2s.prodR.script)) = some ([], [.ok], [some 4#32]) := by decide

/-- V14: release. -/
theorem test_i2s_release : (nextOf (exec .i2sRelease ready)).map (fun s => (s.i2s.io.life, s.i2s.io.outcomes)) =
    some (.unconfigured, [.ok]) := by decide

/-- V1: the first event of the frame is `D(SD,1)`, bit 7 of `0xAB`. -/
theorem test_i2s_first_bit :
    (nextOf (unitTurn .i2s (inFrame .standardI2s .low))).map (fun s => (s.i2s.io.trace, s.i2s.lvlSd)) =
      some ([.drive .i2sSd true .ok], .high) := by decide

/-- R94: as the second frame starts `bit_offset` is still `N`, and its leading `D(WS,0)` clears it. -/
theorem test_lj_bit_offset :
    (nextOf (unitTurn .i2s
        { inFrame .leftJustified .high with i2s := { (inFrame .leftJustified .high).i2s with
          io := { (inFrame .leftJustified .high).i2s.io with seq := .running .write 81 }
          seqL := [0xAB#32, 1#32], seqR := [0xCD#32, 2#32] } })).map
      (fun s => (s.i2s.cur.frame, s.i2s.cur.uL, s.i2s.cur.bitOffset)) = some (1, 1#32, 8) ∧
    (nextOf (unitTurn .i2s
        { inFrame .leftJustified .high with i2s := { (inFrame .leftJustified .high).i2s with
          io := { (inFrame .leftJustified .high).i2s.io with seq := .running .write 82 }
          cur := ⟨.w8, 1, 1#32, 2#32, 8⟩ } })).map
      (fun s => (s.i2s.io.trace, s.i2s.cur.bitOffset)) = some ([.drive .i2sWs false .ok], 0) := by decide

/-- V12: the drive of `WS` after 7 bits fails. -/
theorem test_i2s_ws_error :
    (nextOf (unitTurn .i2s
        { inFrame .standardI2s .low with i2s := { (inFrame .standardI2s .low).i2s with
          io := { (inFrame .standardI2s .low).i2s.io with
            seq := .running .write 35, drives := ⟨[.err ⟨7⟩], .always .ok⟩ } } })).map
      (fun s => (s.i2s.io.trace, s.i2s.io.outcomes, s.i2s.lvlWs)) =
      some ([.drive .i2sWs true (.err ⟨7⟩)], [.busError ⟨7⟩], .x) := by decide

theorem test_uart_init : (nextOf (exec .uartInit quiet)).map (fun s => (s.uart.io.life, s.uart.io.outcomes)) =
    some (.configured, [.ok]) := by decide

/-- V20: the start bit comes first. -/
theorem test_uart_write :
    (nextOf (exec (.uartWrite 0x41#8) ready)).map (fun s => (nextOf (unitTurn .uart s)).map (fun t => t.uart.io.trace)) =
      some (some [.drive .uartTx false .ok]) := by decide

/-- V20: data bit 0 of `0x41` is 1. -/
theorem test_uart_data_bit :
    (nextOf (unitTurn .uart (inUart (.write 0x41#8) 2))).map (fun s => (s.uart.io.trace, s.uart.lvlTx)) =
      some ([.drive .uartTx true .ok], .high) := by decide

/-- V26: a high poll is made again. -/
theorem test_uart_read_poll :
    (nextOf (exec .uartRead ready)).map (fun s => (nextOf (unitTurn .uart s)).map (fun t => (t.uart.io.trace, t.uart.io.seq))) =
      some (some ([.sample .uartRx (.level true)], .running .read 0)) := by decide

/-- V25: the last wait returns the byte assembled. -/
theorem test_uart_read_end :
    (nextOf (unitTurn .uart
        { inUart .read 18 with uart := { (inUart .read 18).uart with rxacc := 0x41#8, bitcnt := 8#4 } })).map
      (fun s => (s.uart.io.trace, s.uart.io.outcomes, s.uart.io.seq)) = some ([.wait none], [.okByte 0x41#8], .idle) := by decide

theorem test_uart_release : (nextOf (exec .uartRelease ready)).map (fun s => (s.uart.io.life, s.uart.io.outcomes)) =
    some (.unconfigured, [.ok]) := by decide

/-- V32: construction of mode 2 drives `SCK` high; nothing is written before. -/
theorem test_spi_init :
    ((nextOf (exec (.spiInit 0#2 2#2) quiet)).bind (fun s => nextOf (unitTurn .spi s))).map
      (fun t => (t.spi.io.life, t.spi.lvlSck, t.spi.cpol, t.spi.cpha, t.spi.bitOrder)) =
      some (.configured, .high, true, false, .msbFirst) := by decide

/-- V40: construction fails. -/
theorem test_spi_init_error :
    (nextOf (unitTurn .spi
        { quiet with spi := { quiet.spi with
          io := { quiet.spi.io with seq := .running (.init 0#2 2#2) 0, drives := ⟨[.err ⟨9⟩], .always .ok⟩ } } })).map
      (fun s => (s.spi.io.trace, s.spi.io.outcomes, s.spi.io.life, s.spi.lvlSck)) =
      some ([.drive .spiSck true (.err ⟨9⟩)], [.busError ⟨9⟩], .unconfigured, .x) := by decide

/-- V33: MSBFirst sends bit 7 first, LSBFirst bit 0. -/
theorem test_spi_send :
    (nextOf (exec (.spiSend 0x80#8) ready)).map (fun s => (nextOf (unitTurn .spi s)).map (fun t => t.spi.io.trace)) =
      some (some [.drive .spiMosi true .ok]) := by decide

/-- V30: the eighth sample completes the byte. -/
theorem test_spi_eighth_sample :
    (nextOf (unitTurn .spi (inSpi (.send 0xFF#8) 45 7#4 0x7F#8))).map (fun s => (s.spi.rxbuf, s.spi.rxvalid, s.spi.io.trace)) =
      some (0xFF#8, true, [.sample .spiMiso (.level true)]) := by decide

/-- V31: no byte yet. -/
theorem test_spi_read_none : (nextOf (exec .spiRead ready)).map (fun s => s.spi.io.outcomes) = some [.noData] := by decide

/-- V43: reading does not clear. -/
theorem test_spi_read_byte :
    (nextOf (exec .spiRead { ready with spi := { ready.spi with rxbuf := 0xA5#8, rxvalid := true } })).map
      (fun s => (s.spi.io.outcomes, s.spi.rxvalid)) = some ([.okByte 0xA5#8], true) := by decide

/-- V44: the order changes without an event. -/
theorem test_spi_set_bit_order :
    (nextOf (exec (.spiSetBitOrder 1#1) ready)).map (fun s => (s.spi.bitOrder, s.spi.io.trace)) =
      some (.lsbFirst, []) := by decide

/-- V43: release clears `RXVALID`. -/
theorem test_spi_release :
    (nextOf (exec .spiRelease { ready with spi := { ready.spi with rxvalid := true } })).map
      (fun s => (s.spi.rxvalid, s.spi.io.life)) = some (false, .unconfigured) := by decide

/-- V14, V31: on a unit at power-on everything but INIT is refused. -/
theorem test_not_configured :
    refusalOf (exec (.i2sWrite 0#2) quiet) = some .notConfigured ∧ refusalOf (exec .uartRead quiet) = some .notConfigured ∧
    refusalOf (exec (.spiSend 1#8) quiet) = some .notConfigured := by decide

/-- Rules R114 and R132 under `AlwaysFatal`: V23's and V42's failing wait. -/
theorem test_tick_fatal :
    (nextOf (unitTurn .spi
        { inSpi (.send 0xFF#8) 1 0#4 0#8 with
          params := { Params.default with timerFailPolicy := .alwaysFatal }
          spi := { (inSpi (.send 0xFF#8) 1 0#4 0#8).spi with
            io := { (inSpi (.send 0xFF#8) 1 0#4 0#8).spi.io with ticks := ⟨[.err ⟨5⟩], .always .ok⟩ } } })).map
      (fun s => (s.spi.io.trace, s.spi.io.outcomes)) = some ([.wait (some ⟨5⟩)], [.timerError ⟨5⟩]) := by decide

/-- Right after power-on: `I2S.INIT` runs, and `UART.READ` is refused (rule R24, log 1). -/
theorem test_first_step :
    (nextOf (step (State.reset.withFetchWord 32 0x10000001))).map (fun s => (s.i2s.mode, s.i2s.io.outcomes)) =
      some (.leftJustified, [.ok]) ∧
    refusalOf (step (State.reset.withFetchWord 32 0x22000000)) = some .notConfigured := by decide

/-! ### Operations on data -/

/-- V2 and V16: word patterns. -/
theorem test_word_patterns :
    wordPattern .w16 (slotOf (-1)) = 0xFFFF#32 ∧ wordPattern .w16 (slotOf (-32768)) = 0x8000#32 ∧
    wordPattern .w8 0x000001FF#32 = 0xFF#32 ∧ wordPattern .w8 0xFFFFFF00#32 = 0#32 ∧
    wordPattern .w32 (slotOf (-2147483648)) = 0x80000000#32 := by decide

/-- V2: the emissions of `0xAB` and of `0x1234`. -/
theorem test_bit_at :
    (List.range' 1 8).map (bitAt .w8 0xAB#32) = [true, false, true, false, true, false, true, true] ∧
    (List.range' 1 16).map (bitAt .w16 0x1234#32) =
      [false, false, false, true, false, false, true, false, false, false, true, true, false, true, false, false] := by decide

/-- V1: the frame `0xAB` / `0xCD`, written as the vector has it. -/
theorem test_std_frame_trace :
    stdFrameTrace 8 0xAB#32 0xCD#32 =
      ([true, false, true, false, true, false, true].map bitTrace).flatten ++ [dOk .i2sWs true] ++ bitTrace true ++
        ([true, true, false, false, true, true, false].map bitTrace).flatten ++ [dOk .i2sWs false] ++ bitTrace true := by
  decide +kernel

/-- V5: the frame `0xAB` / `0xCD`. -/
theorem test_lj_frame_trace :
    ljFrameTrace true 8 0xAB#32 0xCD#32 =
      [dOk .i2sWs false] ++ ([true, false, true, false, true, false, true, true].map bitTrace).flatten ++ [dOk .i2sWs true] ++
        ([true, true, false, false, true, true, false, true].map bitTrace).flatten := by
  decide +kernel

/-- The port events of a frame make that trace: the events of `StdFrame` for `0xAB` and `0xCD` are V1's. -/
theorem test_frame_acts :
    (frameActs Params.default .standardI2s .w8).map (I2sAct.okEvent ⟨.w8, 0, 0xAB#32, 0xCD#32, 0⟩) =
      stdFrameTrace 8 0xAB#32 0xCD#32 := by decide +kernel

/-- V20: the trace of `0x41`. -/
theorem test_uart_write_trace :
    uartWriteTrace 0x41#8 =
      ([false, true, false, false, false, false, false, true, false, true].map (fun v => [dOk .uartTx v, wOk])).flatten := by
  decide

/-- V25: eight samples in both orders. -/
theorem test_assemble :
    [true, false, false, false, false, false, true, false].foldl (assemble .lsbFirst) 0#8 = 0x41#8 ∧
    [true, false, false, false, false, false, true, false].foldl (assemble .msbFill) 0#8 = 0x82#8 := by decide

/-- V33: the bits of `0x1C` in both orders. -/
theorem test_tx_bits :
    (List.range 8).map (txBit .msbFirst 0x1C#8) = [false, false, false, true, true, true, false, false] ∧
    (List.range 8).map (txBit .lsbFirst 0x1C#8) = [false, false, true, true, true, false, false, false] := by decide

/-- V34: the samples of mode 1 make `0xA6`. -/
theorem test_shift_in :
    [true, false, true, false, false, true, true, false].foldl shiftIn 0#8 = 0xA6#8 := by decide

/-- V34 to V36: one bit in modes 1, 2 and 3. -/
theorem test_spi_bits :
    spiBitTrace false true true true =
      [dOk .spiMosi true, dOk .spiSck true, wOk, sAt .spiMiso true, dOk .spiSck false, wOk] ∧
    spiBitTrace true false true false =
      [dOk .spiMosi true, wOk, dOk .spiSck false, sAt .spiMiso false, wOk, dOk .spiSck true] ∧
    spiBitTrace true true false true =
      [dOk .spiMosi false, dOk .spiSck false, wOk, sAt .spiMiso true, dOk .spiSck true, wOk] := by decide

/-- The result words of 95_test_vectors.md, section 1. -/
theorem test_result_words :
    resultWord .ok = 0x00000000#32 ∧ resultWord (.okByte 0xA5#8) = 0x000000A5#32 ∧
    resultWord (.busError ⟨3⟩) = 0x10000000#32 ∧ resultWord (.timerError ⟨4⟩) = 0x20000000#32 ∧
    resultWord .noData = 0x30000000#32 := by decide

/-! ### Every statement with hypotheses has states and operands that meet them -/

/-- All answers of a unit in these states are `ok`. -/
theorem allOk_always {c : Type} {u : UnitId} {io : UnitIo c} (h1 : io.drives = ⟨[], .always .ok⟩)
    (h2 : io.ticks = ⟨[], .always .ok⟩) : io.AllOk u := by
  rw [UnitIo.AllOk, h1, h2]; exact ⟨Draws.all_always rfl, Draws.all_always rfl⟩

/-- `SPI.SEND 0xA5`, without operands. -/
def sendCmd : HostCmd := HostCmd.ofWord 0x310000A5#32

theorem witness_DecodeEncode : (Instr.i2sWrite 2#2).wellFormed = true ∧ (Instr.spiInit 2#2 3#2).wellFormed = true := by decide

theorem witness_EncodeDecode : decode 0x3000000B#32 = .ok (.spiInit 2#2 3#2) := by decide

/-- A word for each clause of rule R77, at the edge of the field where it has one, and one that meets none. -/
theorem witness_ReservedWordsRefused :
    (∀ w, (hosting (HostCmd.ofWord w) ready).HostMoves (HostCmd.ofWord w) []) ∧
    ReservedWord 0x0F000000#32 ∧ ReservedWord 0x40000000#32 ∧ ReservedWord 0x23000000#32 ∧ ReservedWord 0x21000100#32 ∧
    ReservedWord 0x30000010#32 ∧ ReservedWord 0x11000003#32 ∧ ReservedWord 0x3000000C#32 ∧
    ¬ ReservedWord 0x3000000B#32 ∧ ¬ ReservedWord 0x210000FF#32 := by
  refine ⟨fun _ => ⟨rfl, rfl⟩, ?_⟩
  simp [ReservedWord, argWidth]

theorem witness_RowsDisjoint : ∃ r ∈ opcodeMap, r.selects 0x3000000B#32 = true := by decide

theorem witness_OperandLayout : ([0xAB#32, 1#32] : List Slot).length < 2 ^ 32 ∧ ([] : List Slot).length < 2 ^ 32 := by decide

/-- V10's write at both bounds of the width, one beyond each bound, and an outcome without a byte. -/
theorem witness_AssembledWordsDecode :
    (∀ w : Int, w ∈ [-2147483648] ∨ w ∈ [4294967295] → -(2 ^ (widthBits .w32 - 1) : Int) ≤ w ∧ w < 2 ^ widthBits .w32) ∧
    (assembleLine (.i2sWrite .w32 [-2147483648] [4294967295])).isSome = true ∧
    ((-2147483649 : Int) < -(2 ^ (widthBits .w32 - 1) : Int) ∧ (2 ^ widthBits .w32 : Int) ≤ 4294967296) ∧
    assembleLine (.i2sWrite .w32 [-2147483649] [0]) = none ∧ assembleLine (.i2sFrame .w32 0 4294967296) = none ∧
    ∀ b, CmdOutcome.noData ≠ .okByte b := by
  refine ⟨fun w hw => ?_, by decide, by decide, by decide, by decide, fun b h => by cases h⟩
  simp only [List.mem_singleton] at hw
  rcases hw with rfl | rfl <;> decide

theorem witness_StepRunsCommand :
    (hosting sendCmd ready).HostMoves sendCmd [] ∧ decode sendCmd.word = .ok (.spiSend 0xA5#8) ∧
    (hosting sendCmd ready).busy .spi = false := ⟨⟨rfl, rfl⟩, by decide, rfl⟩

theorem witness_StepRunsEvent :
    (inUart .read 0).mover ((inUart .read 0).sched.next Config.freeTurn).1 = some .uart := by decide

theorem witness_HostWaitsForOutcome :
    (hosting sendCmd (inSpi (.send 1#8) 0 0#4 0#8)).HostMoves sendCmd [] ∧ decode sendCmd.word = .ok (.spiSend 0xA5#8) ∧
    (hosting sendCmd (inSpi (.send 1#8) 0 0#4 0#8)).busy .spi = true := ⟨⟨rfl, rfl⟩, by decide, rfl⟩

theorem witness_FetchWordRuns : decodeTableWord 32 0x10000001 = some (.i2sInit 1#1) := by decide

theorem witness_IdleUnitSilent : ready.busy .i2s = false ∧ ready.busy .uart = false ∧ ready.busy .spi = false := by decide

/-- Each clause of rule R148, and an INIT and a write that meet none. -/
theorem witness_RefusalOrder :
    (ReservedWord 0x11000003#32) ∧
    (decode 0x22000000#32 = .ok .uartRead ∧ quiet.busy .uart = false ∧ quiet.lifeOf .uart = .unconfigured) ∧
    (decode 0x10000000#32 = .ok (.i2sInit 0#1) ∧ ready.busy .i2s = false ∧ ready.lifeOf .i2s = .configured) ∧
    (decode 0x11000000#32 = .ok (.i2sWrite 0#2) ∧ ready.busy .i2s = false ∧
      ([1#32, 2#32] : List Slot).length ≠ ([3#32] : List Slot).length) ∧
    (isInit .uartInit = true ∧ quiet.lifeOf .uart = .unconfigured) ∧
    (isInit (.i2sWrite 0#2) = false ∧ ready.lifeOf .i2s = .configured) := by
  refine ⟨by simp [ReservedWord], ⟨by decide, rfl, rfl⟩, ⟨by decide, rfl, rfl⟩, ⟨by decide, rfl, by decide⟩, ⟨rfl, rfl⟩, rfl, rfl⟩

theorem witness_I2sInitResult : quiet.i2s.io.Constructible := ⟨rfl, rfl⟩

theorem witness_I2sWriteResult :
    widthOf 2#2 = some .w32 ∧ (inFrame .standardI2s .x).i2s.seqL.length = (inFrame .standardI2s .x).i2s.seqR.length ∧
    ready.i2s.io.Ready ∧ ready.i2s.io.AllOk .i2s ∧ ready.i2s.seqL.length = ready.i2s.seqR.length :=
  ⟨by decide, rfl, ⟨rfl, rfl⟩, allOk_always rfl rfl, rfl⟩

/-- The I2S unit with two producers. -/
def streaming (l r : Producer) : State := { ready with i2s := { ready.i2s with prodL := l, prodR := r } }

/-- V11, and its variant. -/
theorem witness_I2sWriteStreamResult :
    (streaming ⟨[some 1#32, some 2#32, some 3#32], .always none⟩ ⟨[some 4#32, some 5#32], .always none⟩).i2s.StreamFrames
      [1#32, 2#32] [4#32, 5#32] ⟨[], .always none⟩ .empty ∧
    (streaming ⟨[none], .always none⟩ ⟨[some 4#32], .always none⟩).i2s.StreamFrames [] [] .empty
      ⟨[some 4#32], .always none⟩ ∧
    widthOf 0#2 = some .w8 ∧ (∀ l r, (streaming l r).i2s.io.Ready) ∧ ∀ l r, (streaming l r).i2s.io.AllOk .i2s :=
  ⟨⟨rfl, .inr ⟨3#32, rfl, rfl, rfl, rfl⟩⟩, ⟨rfl, .inl ⟨rfl, rfl, rfl, rfl⟩⟩, by decide, fun _ _ => ⟨rfl, rfl⟩,
    fun _ _ => allOk_always rfl rfl⟩

/-- The I2S unit with two sequences, and producers that yield them. -/
def streamingBoth : State :=
  { ready with i2s := { ready.i2s with
      seqL := [1#32, 2#32], seqR := [4#32, 5#32]
      prodL := ⟨[some 1#32, some 2#32], .always none⟩, prodR := ⟨[some 4#32, some 5#32], .always none⟩ } }

theorem witness_StreamTraceIsWriteTrace :
    widOk 0#2 = true ∧ streamingBoth.i2s.io.Ready ∧ streamingBoth.i2s.io.AllOk .i2s ∧
    streamingBoth.i2s.seqL.length = streamingBoth.i2s.seqR.length ∧
    streamingBoth.i2s.prodL.YieldsThenEnds .left streamingBoth.i2s.seqL ∧
    streamingBoth.i2s.prodR.YieldsThenEnds .right streamingBoth.i2s.seqR :=
  ⟨by decide, ⟨rfl, rfl⟩, allOk_always rfl rfl, rfl, rfl, rfl⟩

theorem witness_EndlessStream :
    (streaming ⟨[], .always (some 1#32)⟩ ⟨[], .always (some 2#32)⟩).i2s.prodL.All (fun a => a ≠ none) (Config.freePull .left) ∧
    (streaming ⟨[], .always (some 1#32)⟩ ⟨[], .always (some 2#32)⟩).i2s.prodR.All (fun a => a ≠ none) (Config.freePull .right) :=
  ⟨Draws.all_always (by decide), Draws.all_always (by decide)⟩

/-- A transfer with a last frame and one with none, as a write and as a stream. -/
theorem witness_FinalI2sLevels :
    streamingBoth.I2sTransfer (.i2sWrite 0#2) .w8 (wordPairs .w8 [1#32, 2#32] [4#32, 5#32]) ∧
    (wordPairs .w8 [1#32, 2#32] [4#32, 5#32]).getLast? = some (2#32, 5#32) ∧
    ready.I2sTransfer (.i2sWrite 0#2) .w8 [] ∧
    (streaming ⟨[none], .always none⟩ ⟨[some 4#32], .always none⟩).I2sTransfer (.i2sWriteStream 0#2) .w8 [] :=
  ⟨⟨by decide, rfl, rfl⟩, by decide, ⟨by decide, rfl, rfl⟩,
    ⟨by decide, [], [], _, _, ⟨rfl, .inl ⟨rfl, rfl, rfl, rfl⟩⟩, rfl⟩⟩

/-- Every level `WS` may have before the frame. -/
theorem witness_StandardWsEdges (ws : Level) :
    (inFrame .standardI2s ws).i2s.mode = .standardI2s ∧ (inFrame .standardI2s ws).i2s.io.AllOk .i2s ∧
    (inFrame .standardI2s ws).i2s.lvlWs = ws ∧
    (inFrame .standardI2s ws).i2s.io.seq =
      .running .write ((inFrame .standardI2s ws).i2s.frameStart (inFrame .standardI2s ws).params) :=
  ⟨rfl, allOk_always rfl rfl, rfl, rfl⟩

theorem witness_LeftJustifiedWs :
    (inFrame .leftJustified .x).i2s.mode = .leftJustified ∧ (inFrame .leftJustified .x).params.ljWsPerFrame = true ∧
    (inFrame .leftJustified .x).i2s.io.AllOk .i2s ∧
    (inFrame .leftJustified .x).i2s.io.seq =
      .running .write ((inFrame .leftJustified .x).i2s.frameStart (inFrame .leftJustified .x).params) :=
  ⟨rfl, rfl, allOk_always rfl rfl, rfl⟩

theorem witness_UartInitResult : quiet.uart.io.Constructible := ⟨rfl, rfl⟩

theorem witness_UartWriteResult : ready.uart.io.Ready ∧ ready.uart.io.AllOk .uart := ⟨⟨rfl, rfl⟩, allOk_always rfl rfl⟩

/-- The UART unit before a read whose samples are the levels given. -/
def hearing (vs : List Bool) : State :=
  { ready with uart := { ready.uart with rx := ⟨vs.map .level, .always (.level true)⟩ } }

/-- V25 without a poll before the low one, V26 with three. -/
theorem witness_UartReadResult :
    (hearing [false, true, false, false, false, false, false, true, false]).uart.rx.Levels .uartRx
      (List.replicate 0 true ++ false :: [true, false, false, false, false, false, true, false]) ∧
    (hearing [true, true, true, false, true, false, true, false, false, true, false, true]).uart.rx.Levels .uartRx
      (List.replicate 3 true ++ false :: [true, false, true, false, false, true, false, true]) ∧
    (∀ vs, (hearing vs).uart.io.Ready) ∧ ∀ vs, (hearing vs).uart.io.AllOk .uart :=
  ⟨rfl, rfl, fun _ => ⟨rfl, rfl⟩, fun _ => allOk_always rfl rfl⟩

theorem witness_UartSlotLevels : ready.uart.io.Ready ∧ ready.uart.io.AllOk .uart := ⟨⟨rfl, rfl⟩, allOk_always rfl rfl⟩

theorem witness_UartAssembly :
    ([true, false, false, false, false, false, true, false] : List Bool).length = 8 ∧ 7 < 8 := by decide

theorem witness_UartReadUnbounded :
    ready.uart.io.Ready ∧ ready.uart.rx.All (fun a => a = .level true) (Config.freeSample .uart) :=
  ⟨⟨rfl, rfl⟩, Draws.all_always rfl⟩

/-- The writer's trace of `0x41`, from the state in which it starts. -/
theorem written :
    ((nextOf (exec (.uartWrite 0x41#8) ready)).bind (fun t => nextOf (runUnit .uart 20 t))).map (fun t => t.uart.io.trace) =
      some (uartWriteTrace 0x41#8) := by decide +kernel

/-- V24: the reader samples the writer's data bits of `0x41`. -/
theorem witness_UartRoundTrip :
    (hearing [false, true, false, false, false, false, false, true, false]).uart.rx.Levels .uartRx
      (List.replicate 0 true ++ false :: [true, false, false, false, false, false, true, false]) ∧
    ∀ t t' tr, exec (.uartWrite 0x41#8) ready = .next t → runUnit .uart 20 t = .next t' →
      t'.uart.io.trace = ready.uart.io.trace ++ tr →
      ∀ k v, [true, false, false, false, false, false, true, false][k]? = some v →
        slotLevel .uartTx ready.uart.lvlTx tr (1 + k) = Level.ofBit v := by
  refine ⟨rfl, fun t t' tr h1 h2 h3 k v hk => ?_⟩
  have h4 := written
  rw [h1] at h4
  simp only [nextOf, Option.bind_some, h2, Option.map_some, Option.some.injEq] at h4
  have h5 : tr = uartWriteTrace 0x41#8 := by rw [← h4, h3]; rfl
  have h6 : k < 8 := (List.getElem?_eq_some_iff.mp hk).1
  have h7 : ∀ k < 8, ∀ v, [true, false, false, false, false, false, true, false][k]? = some v →
      slotLevel .uartTx .x (uartWriteTrace 0x41#8) (1 + k) = Level.ofBit v := by decide +kernel
  rw [h5]
  exact h7 k h6 v hk

theorem witness_SpiInitResult :
    boOk 2#2 = true ∧ quiet.spi.io.Constructible ∧ (quiet.spi.io.drives.next (Config.freeDrive .spi)).1 = .ok :=
  ⟨by decide, ⟨rfl, rfl⟩, rfl⟩

/-- The SPI unit whose next drive fails. -/
def failing : State :=
  { quiet with spi := { quiet.spi with io := { quiet.spi.io with drives := ⟨[.err ⟨9⟩], .always .ok⟩ } } }

theorem witness_SpiInitFailure :
    boOk 2#2 = true ∧ failing.spi.io.Constructible ∧ (failing.spi.io.drives.next (Config.freeDrive .spi)).1 = .err ⟨9⟩ :=
  ⟨by decide, ⟨rfl, rfl⟩, rfl⟩

/-- V32: modes 2 and 3 have one polarity. -/
theorem witness_SpiInitIdempotent :
    boOk 0#2 = true ∧ quiet.spi.io.Constructible ∧ (quiet.spi.io.drives.next (Config.freeDrive .spi)).1 = .ok ∧
    (2#2).getLsbD 1 = (3#2).getLsbD 1 := ⟨by decide, ⟨rfl, rfl⟩, rfl, by decide⟩

/-- V30: every sample is high. -/
theorem witness_SpiSendResult :
    (List.replicate 8 true).length = 8 ∧ ready.spi.io.Ready ∧ ready.spi.io.AllOk .spi ∧
    ready.spi.miso.Levels .spiMiso (List.replicate 8 true) := ⟨rfl, ⟨rfl, rfl⟩, allOk_always rfl rfl, rfl⟩

/-- At the eighth sample and at the event before it. -/
theorem witness_SpiByteCompletion :
    (inSpi (.send 0xFF#8) 45 7#4 0x7F#8).spi.Inv ∧ (inSpi (.send 0xFF#8) 44 7#4 0x7F#8).spi.Inv ∧
    (nextOf (unitTurn .spi (inSpi (.send 0xFF#8) 45 7#4 0x7F#8))).isSome = true ∧
    (nextOf (unitTurn .spi (inSpi (.send 0xFF#8) 44 7#4 0x7F#8))).isSome = true := by
  refine ⟨?_, ?_, by decide, by decide⟩ <;> simp [SpiUnit.Inv, inSpi, ready, quiet]

theorem witness_SpiBitOrderReversal :
    ready.spi.io.Ready ∧ ready.spi.io.AllOk .spi ∧
    ∃ samples : List Bool, samples.length = 8 ∧ ready.spi.miso.Levels .spiMiso samples :=
  ⟨⟨rfl, rfl⟩, allOk_always rfl rfl, List.replicate 8 true, rfl, rfl⟩

theorem witness_SpiReadResult : ready.spi.io.Ready := ⟨rfl, rfl⟩

theorem witness_SpiSetBitOrderResult : ready.spi.io.Ready := ⟨rfl, rfl⟩

theorem witness_ReleaseResult : ready.i2s.io.Ready ∧ ready.uart.io.Ready ∧ ready.spi.io.Ready :=
  ⟨⟨rfl, rfl⟩, ⟨rfl, rfl⟩, ⟨rfl, rfl⟩⟩

/-- V22: the drive of a data bit fails. -/
def uartDriveFails : State :=
  { inUart (.write 0x41#8) 8 with
    uart := { (inUart (.write 0x41#8) 8).uart with
      io := { (inUart (.write 0x41#8) 8).uart.io with drives := ⟨[.err ⟨7⟩], .always .ok⟩ } } }

theorem witness_PinErrorEndsCommand :
    (nextOf (unitTurn .uart uartDriveFails)).map (fun t => (t.traceOf .uart, t.outcomesOf .uart)) =
      some (uartDriveFails.traceOf .uart ++ [.drive .uartTx true (.err ⟨7⟩)], [.busError ⟨7⟩]) := by decide

/-- V23: a wait fails, under a policy. -/
def uartWaitFails (policy : TimerFailPolicy) : State :=
  { inUart (.write 0x41#8) 5 with
    params := { Params.default with timerFailPolicy := policy }
    uart := { (inUart (.write 0x41#8) 5).uart with
      io := { (inUart (.write 0x41#8) 5).uart.io with ticks := ⟨[.err ⟨3⟩], .always .ok⟩ } } }

/-- V13: a wait of the I2S unit fails. -/
def i2sWaitFails : State :=
  { inFrame .standardI2s .low with i2s := { (inFrame .standardI2s .low).i2s with
    io := { (inFrame .standardI2s .low).i2s.io with seq := .running .write 1, ticks := ⟨[.err ⟨3⟩], .always .ok⟩ } } }

/-- V42: a wait of the SPI unit fails. -/
def spiWaitFails : State :=
  { inSpi (.send 0xFF#8) 1 0#4 0#8 with spi := { (inSpi (.send 0xFF#8) 1 0#4 0#8).spi with
    io := { (inSpi (.send 0xFF#8) 1 0#4 0#8).spi.io with ticks := ⟨[.err ⟨3⟩], .always .ok⟩ } } }

/-- V13, V23 and V42: the waits of all three units, under both policies; an ignored failure is a plain `W`. -/
theorem witness_TickFailure :
    (uartWaitFails .reference).tickAnswer .uart = .err ⟨3⟩ ∧ i2sWaitFails.tickAnswer .i2s = .err ⟨3⟩ ∧
    spiWaitFails.tickAnswer .spi = .err ⟨3⟩ ∧
    (nextOf (unitTurn .uart (uartWaitFails .reference))).map (fun t => (t.traceOf .uart, t.busy .uart)) =
      some ([.wait none], true) ∧
    (nextOf (unitTurn .uart (uartWaitFails .alwaysFatal))).map (fun t => (t.traceOf .uart, t.busy .uart)) =
      some ([.wait (some ⟨3⟩)], false) ∧
    (nextOf (unitTurn .i2s i2sWaitFails)).map (fun t => (t.traceOf .i2s, t.busy .i2s)) =
      some ([.wait (some ⟨3⟩)], false) ∧
    (nextOf (unitTurn .spi spiWaitFails)).map (fun t => (t.traceOf .spi, t.busy .spi)) = some ([.wait none], true) := by
  decide

theorem witness_ErrorLeavesState :
    (CmdOutcome.busError ⟨7⟩).isPortError = true ∧
    (nextOf (unitTurn .uart uartDriveFails)).map (fun t => t.outcomesOf .uart) =
      some (uartDriveFails.outcomesOf .uart ++ [.busError ⟨7⟩]) := by decide

/-- A running unit whose timer stopped. -/
def stopped : State :=
  { inUart (.write 0x41#8) 1 with
    uart := { (inUart (.write 0x41#8) 1).uart with
      io := { (inUart (.write 0x41#8) 1).uart.io with ticks := ⟨[.never], .always .ok⟩ } } }

theorem witness_FaultOnlyWhenTimerStops : step stopped = .fault (.timerStopped .uart) := rfl

/-- A running unit in a state that meets the invariant, and a command that starts. -/
theorem witness_OneEventOneOutcome :
    (inUart .read 0).Inv ∧ (inUart .read 0).busy .uart = true ∧
    (nextOf (unitTurn .uart (inUart .read 0))).isSome = true ∧ (nextOf (exec (.uartWrite 1#8) ready)).isSome = true := by
  refine ⟨?_, by decide, by decide, by decide⟩
  simp [State.Inv, I2sUnit.Inv, UartUnit.Inv, SpiUnit.Inv, inUart, ready, quiet, I2sUnit.reset, UartUnit.reset, SpiUnit.reset,
    UnitIo.reset]

theorem witness_UnitsCommute :
    UnitId.uart ≠ UnitId.i2s ∧
    ((nextOf (unitTurn .uart { inFrame .standardI2s .low with uart := (inUart .read 0).uart })).bind
      (fun a => nextOf (unitTurn .i2s a))).isSome = true := by decide

/-- An event of each unit; the SPI ones of a send and of a construction. -/
theorem witness_UnitEventFrame :
    (nextOf (unitTurn .i2s (inFrame .standardI2s .low))).isSome = true ∧
    (nextOf (unitTurn .uart (inUart .read 0))).isSome = true ∧
    (nextOf (unitTurn .spi (inSpi (.send 0xFF#8) 45 7#4 0x7F#8))).isSome = true ∧
    (nextOf (unitTurn .spi (inSpi (.init 0#2 2#2) 0 0#4 0#8))).isSome = true := by decide

theorem witness_ExecFrame :
    (nextOf (exec .spiRelease ready)).isSome = true ∧ (nextOf (exec (.i2sInit 1#1) quiet)).isSome = true ∧
    (nextOf (exec (.spiSetBitOrder 1#1) ready)).isSome = true := by decide

theorem witness_StepKeepsInv : (inUart .read 0).Inv ∧ (nextOf (step (inUart .read 0))).isSome = true :=
  ⟨witness_OneEventOneOutcome.1, by decide⟩

theorem witness_StepKeepsLinesFollow :
    (inUart .read 0).LinesFollow ∧ (nextOf (step (inUart .read 0))).isSome = true := by
  refine ⟨⟨rfl, rfl, rfl, rfl, rfl, rfl⟩, by decide⟩

/-- Two states that differ in a byte that is not valid and in the cursor of an idle unit. -/
theorem witness_UnspecifiedUnread :
    ready.Inv ∧ ready.AgreesWith
      { ready with
        i2s := { ready.i2s with cur := ⟨.w32, 7, 1#32, 2#32, 3⟩ }
        spi := { ready.spi with rxbuf := 0xFF#8, rxacc := 1#8 } } := by
  constructor
  · simp [State.Inv, I2sUnit.Inv, UartUnit.Inv, SpiUnit.Inv, ready, quiet, I2sUnit.reset, UartUnit.reset, SpiUnit.reset,
      UnitIo.reset]
  · refine ⟨⟨.standardI2s, ⟨.w32, 7, 1#32, 2#32, 3⟩, rfl, fun _ => rfl, fun _ _ h => by cases h⟩,
      ⟨0#8, 0#8, 0#4, rfl, fun _ _ h => (by cases h), fun _ h => by cases h⟩,
      ⟨false, false, .msbFirst, 0xFF#8, 1#8, 0#4, rfl, fun _ => ⟨rfl, rfl, rfl⟩, fun h => (by cases h),
        fun _ _ h => by cases h⟩, rfl, rfl, rfl⟩

/-- Two states that differ in `bit_offset` before the first drive of WS of a LeftJustified command (log 20). -/
theorem witness_UnspecifiedUnread_bit_offset :
    (inFrame .leftJustified .x).Inv ∧ (inFrame .leftJustified .x).AgreesWith
      { inFrame .leftJustified .x with
        i2s := { (inFrame .leftJustified .x).i2s with cur := ⟨.w8, 0, 0xAB#32, 0xCD#32, 5⟩ } } := by
  constructor
  · refine ⟨⟨rfl, by decide, fun _ => rfl, .inr ⟨by decide, by decide, by decide, by decide, fun _ => ?_⟩⟩, trivial,
      fun _ => rfl, trivial⟩
    exact ⟨0xAB#32, 0xCD#32, rfl, rfl, by decide, by decide⟩
  · refine ⟨⟨.leftJustified, ⟨.w8, 0, 0xAB#32, 0xCD#32, 5⟩, rfl, fun _ => rfl, fun cmd i h => ?_⟩,
      ⟨0#8, 0#8, 0#4, rfl, fun _ _ h => (by cases h), fun _ h => by cases h⟩,
      ⟨false, false, .msbFirst, 0#8, 0#8, 0#4, rfl, fun _ => ⟨rfl, rfl, rfl⟩, fun h => (by cases h),
        fun _ _ h => by cases h⟩, rfl, rfl, rfl⟩
    cases h
    exact ⟨rfl, rfl, fun h => absurd h (by decide), fun _ => ⟨rfl, rfl⟩⟩

/-- Each clause: a write, a stream, a serial write, a serial read, a construction, a send, a command without events. -/
theorem witness_TickAndEventCounts :
    streamingBoth.I2sTransfer (.i2sWrite 0#2) .w8 (wordPairs .w8 [1#32, 2#32] [4#32, 5#32]) ∧
    (streaming ⟨[none], .always none⟩ ⟨[some 4#32], .always none⟩).I2sTransfer (.i2sWriteStream 0#2) .w8 [] ∧
    ready.uart.io.Ready ∧
    (hearing [true, false, true, false, false, false, false, false, true, false]).uart.rx.Levels .uartRx
      (List.replicate 1 true ++ false :: [true, false, false, false, false, false, true, false]) ∧
    boOk 0#2 = true ∧ quiet.spi.io.Constructible ∧ quiet.spi.io.AllOk .spi ∧
    ready.spi.io.Ready ∧ ready.spi.io.AllOk .spi ∧ ready.spi.miso.Levels .spiMiso (List.replicate 8 true) ∧
    (nextOf (exec .spiRead ready)).isSome = true :=
  ⟨witness_FinalI2sLevels.1, witness_FinalI2sLevels.2.2.2, ⟨rfl, rfl⟩, rfl, by decide, ⟨rfl, rfl⟩, allOk_always rfl rfl,
    ⟨rfl, rfl⟩, allOk_always rfl rfl, rfl, by decide⟩

/-- A wait called when a tick has come since, one called as a tick comes, one that waits a whole period, and with `Latched` a
tick exactly at the last return and one exactly at the call. -/
theorem witness_FirstWaitBounds :
    waitReturn .latched 10 3 0 5 = 5 ∧ waitReturn .nextEdge 10 3 0 5 = 13 ∧ waitReturn .nextEdge 10 3 3 3 = 13 ∧
    waitReturn .latched 10 3 13 15 = 23 ∧ waitReturn .latched 10 3 5 13 = 13 := by decide

/-- The bounds of rule R183: a whole period late, just under two, and just under one; and the first and the last sample. -/
theorem witness_UartSamplePhase :
    (10 ≤ 3 + 7 ∧ 3 + 7 < 2 * 10) ∧ (10 ≤ 9 + 10 ∧ 9 + 10 < 2 * 10) ∧ ¬ (9 + 11 < 2 * 10) ∧ 2 + 7 < 10 ∧
    ([true, false, false, false, false, false, true, false] : List Bool)[0]? = some true ∧
    ([true, false, false, false, false, false, true, false] : List Bool)[7]? = some false := by decide

end Sys2Proof.Tests
end

/-! ## The frame of a unit's event

What one turn of a unit leaves as it was (rules R3, R25, R27, R29, R34). The control fields, `LIFE` and `RXVALID` are those the
port event itself leaves: going on to the next position and ending the command write none of them. -/

namespace Sys2Proof.Machine

/-! ### The I2S unit -/

/-- A port event that raises an error keeps what one that completes keeps (rules R43, R149). -/
theorem I2sUnit.Performed.of_perform {p : Params} {a : I2sAct} {u w : I2sUnit}
    (h : u.perform p a = .done w ∨ ∃ o, u.perform p a = .raised o w) : ∃ ev, u.Performed w ev := by
  rcases I2sUnit.perform_cases p a u with ⟨v, ev, hd, hv, -⟩ | ⟨v, ev, o, hr, hv, -⟩ | ⟨hs, -⟩
  · obtain rfl : v = w := by simpa [hd] using h
    exact ⟨ev, hv⟩
  · obtain rfl : v = w := by simpa [hr] using h
    exact ⟨ev, hv⟩
  · simp [hs] at h

/-- `LIFE`, `MODE` and the sequences are written by commands alone, never by a port event (rules R24, R27, R46). -/
theorem I2sUnit.event_keeps_config {p : Params} {u v : I2sUnit} (h : u.event p = .ok v) :
    v.io.life = u.io.life ∧ v.mode = u.mode ∧ v.seqL = u.seqL ∧ v.seqR = u.seqR := by
  rcases I2sUnit.event_cases h with ⟨-, rfl⟩ | ⟨cmd, i, -, ⟨-, rfl⟩ | ⟨a, -, ⟨w, hd, rfl⟩ | ha | ⟨o, w, hr, rfl⟩⟩⟩
  · exact ⟨rfl, rfl, rfl, rfl⟩
  · exact ⟨rfl, rfl, rfl, rfl⟩
  · obtain ⟨ev, hw⟩ := I2sUnit.Performed.of_perform (.inl hd)
    obtain ⟨-, hlife, hmode, hseqL, hseqR, -⟩ := I2sUnit.advance_io p cmd i w
    exact ⟨hlife.trans hw.life, hmode.trans hw.mode, hseqL.trans hw.seqL, hseqR.trans hw.seqR⟩
  · exact absurd ha I2sUnit.perform_ne_again
  · obtain ⟨ev, hw⟩ := I2sUnit.Performed.of_perform (.inr ⟨o, hr⟩)
    exact ⟨hw.life, hw.mode, hw.seqL, hw.seqR⟩

/-! ### The UART unit -/

/-- A port event that is made again or raises an error keeps what one that completes keeps (rules R43, R114, R149). -/
theorem UartUnit.Performed.of_perform {p : Params} {a : UartAct} {u w : UartUnit}
    (h : u.perform p a = .done w ∨ u.perform p a = .again w ∨ ∃ o, u.perform p a = .raised o w) :
    ∃ ev, u.Performed w ev := by
  rcases UartUnit.perform_cases p a u with
    ⟨v, ev, hd, hv, -⟩ | ⟨-, v, ha, hv, -⟩ | ⟨v, ev, o, hr, hv, -⟩ | ⟨hs, -⟩
  · obtain rfl : v = w := by simpa [hd] using h
    exact ⟨ev, hv⟩
  · obtain rfl : v = w := by simpa [ha] using h
    exact ⟨_, hv⟩
  · obtain rfl : v = w := by simpa [hr] using h
    exact ⟨ev, hv⟩
  · simp [hs] at h

@[simp] theorem UartUnit.advance_life (cmd : UartRun) (i : Nat) (u : UartUnit) :
    (u.advance cmd i).io.life = u.io.life := by
  unfold UartUnit.advance; split <;> rfl

/-- `LIFE` is written by commands alone, never by a port event of the UART (rule R24). -/
theorem UartUnit.event_keeps_life {p : Params} {u v : UartUnit} (h : u.event p = .ok v) : v.io.life = u.io.life := by
  rcases UartUnit.event_cases h with ⟨-, rfl⟩ | ⟨cmd, i, -, ⟨-, rfl⟩ | ⟨a, -, ⟨w, hd, rfl⟩ | ha | ⟨o, w, hr, rfl⟩⟩⟩
  · rfl
  · rfl
  · obtain ⟨ev, hw⟩ := UartUnit.Performed.of_perform (.inl hd)
    rw [UartUnit.advance_life, hw.life]
  · obtain ⟨ev, hw⟩ := UartUnit.Performed.of_perform (.inr (.inl ha))
    exact hw.life
  · obtain ⟨ev, hw⟩ := UartUnit.Performed.of_perform (.inr (.inr ⟨o, hr⟩))
    rw [UartUnit.finish_io, UnitIo.close_life, hw.life]

/-! ### The SPI unit -/

/-- The same `LIFE`, control fields and `RXVALID`: what the sequencer never writes (rules R24, R29, R34). -/
structure SpiUnit.SameStatus (u v : SpiUnit) : Prop where
  life     : v.io.life = u.io.life
  cpol     : v.cpol = u.cpol
  cpha     : v.cpha = u.cpha
  bitOrder : v.bitOrder = u.bitOrder
  rxvalid  : v.rxvalid = u.rxvalid

theorem SpiUnit.finish_sameStatus (o : CmdOutcome) (u : SpiUnit) : u.SameStatus (u.finish o) :=
  ⟨rfl, rfl, rfl, rfl, rfl⟩

theorem SpiUnit.advance_sameStatus (cmd : SpiRun) (i : Nat) (u : SpiUnit) : u.SameStatus (u.advance cmd i) := by
  unfold SpiUnit.advance
  split
  · exact ⟨rfl, rfl, rfl, rfl, rfl⟩
  · exact SpiUnit.finish_sameStatus .ok u

/-- A sample never makes a received byte invalid (rules R34, R131). -/
theorem SpiUnit.takeBit_keeps_rxvalid (s : Bool) {u : SpiUnit} (h : u.rxvalid = true) : (u.takeBit s).rxvalid = true := by
  by_cases h8 : u.bitcnt + 1#4 = 8#4
  · exact (SpiUnit.takeBit_eighth s u h8).2
  · rw [(SpiUnit.takeBit_before s u h8).2, h]

/-- No SPI port event is made again: the poll is the UART's alone (rule R32). -/
theorem SpiUnit.perform_ne_again {p : Params} {a : SpiAct} {u v : SpiUnit} : u.perform p a ≠ .again v := by
  rcases SpiUnit.perform_cases p a u with ⟨w, ev, hd, -⟩ | ⟨w, ev, o, hr, -⟩ | ⟨hs, -⟩
  · simp [hd]
  · simp [hr]
  · simp [hs]

/-- A port event that fails writes no field (rules R43, R122). -/
theorem SpiUnit.perform_raised_sameStatus {p : Params} {a : SpiAct} {u w : SpiUnit} {o : CmdOutcome}
    (h : u.perform p a = .raised o w) : u.SameStatus w := by
  rcases SpiUnit.perform_cases p a u with ⟨v, ev, hd, -⟩ | ⟨v, ev, o', hr, -, hf, -, hrx, -⟩ | ⟨hs, -⟩
  · cases hd.symm.trans h
  · cases hr.symm.trans h; exact ⟨hf.life, hf.cpol, hf.cpha, hf.bitOrder, hrx⟩
  · cases hs.symm.trans h

/-- A construction's port event leaves no received byte (rule R40). -/
theorem SpiUnit.perform_construct_rxvalid {p : Params} {bo m : BitVec 2} {u w : SpiUnit}
    (h : u.perform p (.construct bo m) = .done w) : w.rxvalid = false := by
  rcases SpiUnit.perform_cases p (.construct bo m) u with
    ⟨v, ev, hd, -, -, -, ⟨bo', m', -, x, -, rfl⟩ | ⟨hs, -⟩ | ⟨hc, -⟩⟩ | ⟨v, ev, o, hr, -⟩ | ⟨hs, -⟩
  · cases hd.symm.trans h; exact SpiUnit.constructed_rxvalid p bo' m' x
  · cases hs
  · exact absurd rfl (hc bo m)
  · cases hr.symm.trans h
  · cases hs.symm.trans h

/-- A port event other than a construction's writes no control field, nor `LIFE`, and clears no received byte (rules R29,
R34). -/
theorem SpiUnit.perform_done_keeps {p : Params} {a : SpiAct} {u w : SpiUnit} (ha : ∀ bo m, a ≠ .construct bo m)
    (h : u.perform p a = .done w) : u.SameFields w ∧ (u.rxvalid = true → w.rxvalid = true) := by
  rcases SpiUnit.perform_cases p a u with
    ⟨v, ev, hd, -, -, -, ⟨bo, m, hc, -⟩ | ⟨-, hf, x, l, -, rfl, -, -, -, hx⟩ | ⟨-, -, -, hf, -, -, -, hv⟩⟩ |
      ⟨v, ev, o, hr, -⟩ | ⟨hs, -⟩
  · exact absurd hc (ha bo m)
  · cases hd.symm.trans h
    exact ⟨hf, fun hu => SpiUnit.takeBit_keeps_rxvalid l (hx.trans hu)⟩
  · cases hd.symm.trans h; exact ⟨hf, fun hu => hv.trans hu⟩
  · cases hr.symm.trans h
  · cases hs.symm.trans h

/-- What an SPI event can do to `LIFE`, the control fields and `RXVALID`: nothing, or what a completed port event of the running
command does to them. -/
theorem SpiUnit.event_status {p : Params} {u v : SpiUnit} (h : u.event p = .ok v) :
    u.SameStatus v ∨
    ∃ cmd i a w, u.io.seq = .running cmd i ∧ a ∈ u.acts cmd ∧ u.perform p a = .done w ∧ w.SameStatus v := by
  rcases SpiUnit.event_cases h with ⟨-, rfl⟩ | ⟨cmd, i, hs, ⟨-, rfl⟩ | ⟨a, hi, ⟨w, hd, rfl⟩ | ha | ⟨o, w, hr, rfl⟩⟩⟩
  · exact .inl ⟨rfl, rfl, rfl, rfl, rfl⟩
  · exact .inl (SpiUnit.finish_sameStatus .ok u)
  · exact .inr ⟨cmd, i, a, w, hs, List.mem_of_getElem? hi, hd, SpiUnit.advance_sameStatus cmd i w⟩
  · exact absurd ha SpiUnit.perform_ne_again
  · have hw := SpiUnit.perform_raised_sameStatus hr
    exact .inl ⟨hw.life, hw.cpol, hw.cpha, hw.bitOrder, hw.rxvalid⟩

/-- Outside a construction an event writes no control field, nor `LIFE`, and clears no received byte (rules R29, R34). -/
theorem SpiUnit.event_keeps_config {p : Params} {u v : SpiUnit} (h : u.event p = .ok v)
    (hinit : ∀ bo m i, u.io.seq ≠ .running (.init bo m) i) :
    v.io.life = u.io.life ∧ v.cpol = u.cpol ∧ v.cpha = u.cpha ∧ v.bitOrder = u.bitOrder ∧
      (u.rxvalid = true → v.rxvalid = true) := by
  rcases SpiUnit.event_status h with hv | ⟨cmd, i, a, w, hs, ha, hd, hv⟩
  · exact ⟨hv.life, hv.cpol, hv.cpha, hv.bitOrder, fun hu => hv.rxvalid.trans hu⟩
  · cases cmd with
    | init bo m => exact absurd hs (hinit bo m i)
    | send byte =>
      obtain ⟨hf, hrx⟩ := SpiUnit.perform_done_keeps (spiSendActs_ne_construct ha) hd
      exact ⟨hv.life.trans hf.life, hv.cpol.trans hf.cpol, hv.cpha.trans hf.cpha, hv.bitOrder.trans hf.bitOrder,
        fun hu => hv.rxvalid.trans (hrx hu)⟩

/-- A received byte becomes valid in a send alone (rules R34, R132). -/
theorem SpiUnit.event_rxvalid_of_not_send {p : Params} {u v : SpiUnit} (h : u.event p = .ok v)
    (hsend : ∀ b i, u.io.seq ≠ .running (.send b) i) (hrx : v.rxvalid = true) : u.rxvalid = true := by
  rcases SpiUnit.event_status h with hv | ⟨cmd, i, a, w, hs, ha, hd, hv⟩
  · exact hv.rxvalid.symm.trans hrx
  · cases cmd with
    | send byte => exact absurd hs (hsend byte i)
    | init bo m =>
      obtain rfl : a = .construct bo m := List.mem_singleton.mp ha
      have hw := hv.rxvalid.trans (SpiUnit.perform_construct_rxvalid hd)
      exact absurd (hrx.symm.trans hw) (by decide)

/-! ### All units -/

/-- Settles O47: a unit's turn replaces that unit's part of the state alone, and each unit's event keeps the fields the rules
say it keeps. -/
theorem unitEventFrame : Obligations.UnitEventFrame := by
  intro u s t h
  rcases unitTurn_cases h with ⟨rfl, x, hx, rfl⟩ | ⟨rfl, x, hx, rfl⟩ | ⟨rfl, x, hx, rfl⟩
  · obtain ⟨hlife, hmode, hseqL, hseqR⟩ := I2sUnit.event_keeps_config hx
    exact ⟨fun hu => absurd rfl hu, fun _ => rfl, fun _ => rfl, rfl, rfl, rfl, hmode, hseqL, hseqR, hlife, rfl,
      fun _ => ⟨rfl, rfl, rfl, rfl, id⟩, fun _ => id⟩
  · exact ⟨fun _ => rfl, fun hu => absurd rfl hu, fun _ => rfl, rfl, rfl, rfl, rfl, rfl, rfl, rfl,
      UartUnit.event_keeps_life hx, fun _ => ⟨rfl, rfl, rfl, rfl, id⟩, fun _ => id⟩
  · exact ⟨fun _ => rfl, fun _ => rfl, fun hu => absurd rfl hu, rfl, rfl, rfl, rfl, rfl, rfl, rfl, rfl,
      SpiUnit.event_keeps_config hx, SpiUnit.event_rxvalid_of_not_send hx⟩

end Sys2Proof.Machine

/-! ## What a command does before its first port event

`exec` said once for all commands: a refusal check and the state the command leaves (rules R16, R24, R77, R95, R148). -/

namespace Sys2Proof.Machine

/-- The refusal check of the unit a command is for. -/
def State.unitRefusal (s : State) (init : Bool) : UnitId → Option Refusal
  | .i2s  => s.i2s.io.refusal init
  | .uart => s.uart.io.refusal init
  | .spi  => s.spi.io.refusal init

/-- Why a command is refused, in the order of rule R148. -/
def execRefusal (i : Instr) (s : State) : Option Refusal :=
  if i.wellFormed then
    (s.unitRefusal (isInit i) i.unit).or
      (match i with
        | .i2sWrite _ => s.i2s.lengthRefusal
        | _           => none)
  else some .reservedEncoding

/-- A transfer of the width a field names starts; the reserved width starts nothing (rules R67, R95, R97). -/
def I2sUnit.transfer (p : Params) (cmd : I2sRun) (wid : BitVec 2) (u : I2sUnit) : I2sUnit :=
  (widthOf wid).elim u (fun n => u.begin p cmd n)

/-- The state a command that is not refused leaves before its first port event. -/
def execEffect (i : Instr) (s : State) : State :=
  match i with
  | .i2sInit mode =>
    { s with i2s := { s.i2s with io := { s.i2s.io.close .ok 0 with life := .configured }, mode := i2sModeOf mode } }
  | .i2sWrite wid => { s with i2s := s.i2s.transfer s.params .write wid }
  | .i2sWriteStream wid => { s with i2s := s.i2s.transfer s.params .writeStream wid }
  | .i2sRelease =>
    { s with i2s := { s.i2s with
        io   := { s.i2s.io.close .ok 1 with life := .unconfigured }
        mode := Config.freeMode s.i2s.io.fresh } }
  | .uartInit => { s with uart := { s.uart with io := { s.uart.io.close .ok 0 with life := .configured } } }
  | .uartWrite byte =>
    { s with uart := { s.uart with io := s.uart.io.start (.write byte), txsr := byte, bitcnt := 0#4 } }
  | .uartRead => { s with uart := { s.uart with io := s.uart.io.start .read, bitcnt := 0#4 } }
  | .uartRelease => { s with uart := { s.uart with io := { s.uart.io.close .ok 0 with life := .unconfigured } } }
  | .spiInit bo mode2 => { s with spi := { s.spi with io := s.spi.io.start (.init bo mode2) } }
  | .spiSend byte => { s with spi := { s.spi with io := s.spi.io.start (.send byte), rxacc := 0#8, bitcnt := 0#4 } }
  | .spiRead => { s with spi := { s.spi with io := s.spi.io.close s.spi.received 0 } }
  | .spiSetBitOrder bo1 => { s with spi := { s.spi with io := s.spi.io.close .ok 0, bitOrder := bitOrderOf bo1 } }
  | .spiRelease => { s with spi := s.spi.released }

/-- The reserved width is the one no width stands for (rules R67, R77). -/
theorem widOk_eq (wid : BitVec 2) : widOk wid = (widthOf wid).isSome := by
  revert wid; decide

/-- A command's meaning is its refusal check and then its effect. -/
theorem exec_eq (i : Instr) (s : State) : exec i s = unlessRefused (execRefusal i s) (execEffect i s) := by
  cases i with
  | i2sWrite wid =>
    cases hn : widthOf wid <;>
      simp only [exec, execI2sWrite, execRefusal, execEffect, I2sUnit.transfer, Instr.wellFormed, widOk_eq, hn] <;> rfl
  | i2sWriteStream wid =>
    cases hn : widthOf wid <;>
      simp only [exec, execI2sWriteStream, execRefusal, execEffect, I2sUnit.transfer, Instr.wellFormed, widOk_eq, hn,
        Option.or_none] <;> rfl
  | spiInit bo mode2 =>
    cases hb : boOk bo <;>
      simp only [exec, execSpiInit, execRefusal, execEffect, Instr.wellFormed, hb, Option.or_none] <;> rfl
  | _ => simp only [execRefusal, Instr.wellFormed, if_true, Option.or_none]; rfl

theorem exec_next_iff {i : Instr} {s t : State} : exec i s = .next t ↔ execRefusal i s = none ∧ execEffect i s = t := by
  rw [exec_eq, unlessRefused_next]

/-- `busy` of a unit, read from its sequencer (rule R32). -/
theorem Seq.not_isIdle {c : Type} {q : Seq c} : (!q.isIdle) = false ↔ q = .idle := by cases q <;> simp

/-- A unit's check passes exactly when the unit is IDLE and its lifecycle fits (rules R16, R24). -/
theorem State.unitRefusal_none {s : State} {init : Bool} {u : UnitId} :
    s.unitRefusal init u = none ↔ s.busy u = false ∧ s.lifeOf u = (if init then .unconfigured else .configured) := by
  cases init <;> cases u <;>
    simp only [State.unitRefusal, UnitIo.refusal_use, UnitIo.refusal_construct, State.busy, State.lifeOf, Seq.not_isIdle, if_true,
      Bool.false_eq_true, if_false]

theorem I2sUnit.lengthRefusal_none {u : I2sUnit} : u.lengthRefusal = none ↔ u.seqL.length = u.seqR.length := by
  simp [I2sUnit.lengthRefusal]

/-- When a command is admitted (rules R16, R24, R77, R95). -/
theorem execRefusal_none {i : Instr} {s : State} :
    execRefusal i s = none ↔ i.wellFormed = true ∧ s.busy i.unit = false ∧
      s.lifeOf i.unit = (if isInit i then .unconfigured else .configured) ∧
      ((∃ wid, i = .i2sWrite wid) → s.i2s.seqL.length = s.i2s.seqR.length) := by
  unfold execRefusal
  split
  · rename_i hw
    simp only [Option.or_eq_none_iff, State.unitRefusal_none, hw, true_and, and_assoc]
    refine and_congr_right fun _ => and_congr_right fun _ => ?_
    split
    · simp [I2sUnit.lengthRefusal_none]
    · rename_i hne
      simp only [true_iff]
      rintro ⟨wid, rfl⟩
      exact absurd rfl (hne wid)
  · rename_i hw
    simp [hw]

/-- Settles O15: `exec` is a refusal check before an effect, and the check passes exactly under the conditions. -/
theorem execNextIff : Obligations.ExecNextIff := by
  intro i s
  refine ⟨?_, fun f hf => ?_⟩
  · simp only [exec_next_iff, exists_and_left, exists_eq', and_true]
    exact execRefusal_none
  · rw [exec_eq] at hf
    exact unlessRefused_ne_fault hf

/-! ### Commands without port events -/

/-- An admitted command leaves its effect. -/
theorem exec_next {i : Instr} {s : State} (hw : i.wellFormed = true) (hb : s.busy i.unit = false)
    (hl : s.lifeOf i.unit = if isInit i then .unconfigured else .configured)
    (hlen : (∃ wid, i = .i2sWrite wid) → s.i2s.seqL.length = s.i2s.seqR.length) : exec i s = .next (execEffect i s) :=
  exec_next_iff.mpr ⟨execRefusal_none.mpr ⟨hw, hb, hl, hlen⟩, rfl⟩

/-- Ending the command of an IDLE unit leaves `SEQ` as it was. -/
theorem UnitIo.close_of_idle {c : Type} {io : UnitIo c} (h : io.seq = .idle) (o : CmdOutcome) (n : Nat) :
    io.close o n = { io with outcomes := io.outcomes ++ [o], fresh := io.fresh + n } := by
  rw [UnitIo.close, ← h]

/-- Settles O17: `I2S.INIT` is admitted there, and its effect is the state of rule R86. -/
theorem i2sInitResult : Obligations.I2sInitResult := by
  rintro mode s ⟨hseq, hlife⟩
  exact exec_next rfl (Seq.not_isIdle.mpr hseq) hlife (fun ⟨_, h⟩ => nomatch h)

/-- Settles O25: `UART.INIT` is admitted there, and its effect is the state of rule R107. -/
theorem uartInitResult : Obligations.UartInitResult := by
  rintro s ⟨hseq, hlife⟩
  exact exec_next rfl (Seq.not_isIdle.mpr hseq) hlife (fun ⟨_, h⟩ => nomatch h)

/-- Settles O40: each release is admitted on a ready unit; what it leaves unspecified are the free values it takes. -/
theorem releaseResult : Obligations.ReleaseResult := by
  intro s
  refine ⟨?_, ?_, ?_⟩ <;> rintro ⟨hseq, hlife⟩
  · refine ⟨Config.freeMode s.i2s.io.fresh, s.i2s.io.fresh + 1,
      Eq.trans (exec_next rfl (Seq.not_isIdle.mpr hseq) hlife (fun ⟨_, h⟩ => nomatch h)) ?_⟩
    rw [execEffect, UnitIo.close_of_idle hseq]
  · refine Eq.trans (exec_next rfl (Seq.not_isIdle.mpr hseq) hlife (fun ⟨_, h⟩ => nomatch h)) ?_
    rw [execEffect, UnitIo.close_of_idle hseq]
    rfl
  · refine ⟨Config.freeBit .spi s.spi.io.fresh, Config.freeBit .spi (s.spi.io.fresh + 1), Config.freeBitOrder s.spi.io.fresh,
      Config.freeByte .spi (s.spi.io.fresh + 2), s.spi.io.fresh + 2 + 1,
      Eq.trans (exec_next rfl (Seq.not_isIdle.mpr hseq) hlife (fun ⟨_, h⟩ => nomatch h)) ?_⟩
    rw [execEffect, SpiUnit.released, UnitIo.close_of_idle hseq]
    rfl

end Sys2Proof.Machine

/-! ## What a command leaves unchanged -/

namespace Sys2Proof.Machine

/-! ### The ports of each unit -/

/-- The same trace, levels, answers still to come and sequences: what no I2S command changes before its first port event. -/
structure I2sUnit.SamePorts (u v : I2sUnit) : Prop where
  trace  : v.io.trace = u.io.trace
  drives : v.io.drives = u.io.drives
  ticks  : v.io.ticks = u.io.ticks
  lvlSck : v.lvlSck = u.lvlSck
  lvlSd  : v.lvlSd = u.lvlSd
  lvlWs  : v.lvlWs = u.lvlWs
  seqL   : v.seqL = u.seqL
  seqR   : v.seqR = u.seqR

/-- The same trace, level, answers still to come and `RXACC`: what no UART command changes before its first port event. -/
structure UartUnit.SamePorts (u v : UartUnit) : Prop where
  trace  : v.io.trace = u.io.trace
  drives : v.io.drives = u.io.drives
  ticks  : v.io.ticks = u.io.ticks
  lvlTx  : v.lvlTx = u.lvlTx
  rx     : v.rx = u.rx
  rxacc  : v.rxacc = u.rxacc

/-- The same trace, levels and answers still to come: what no SPI command changes before its first port event. -/
structure SpiUnit.SamePorts (u v : SpiUnit) : Prop where
  trace   : v.io.trace = u.io.trace
  drives  : v.io.drives = u.io.drives
  ticks   : v.io.ticks = u.io.ticks
  lvlSck  : v.lvlSck = u.lvlSck
  lvlMosi : v.lvlMosi = u.lvlMosi
  miso    : v.miso = u.miso

theorem I2sUnit.startFrame_samePorts (p : Params) (cmd : I2sRun) (u : I2sUnit) : u.SamePorts (u.startFrame p cmd) := by
  obtain ⟨htrace, -, -, hseqL, hseqR, hsck, hsd, hws, -⟩ := I2sUnit.startFrame_io p cmd u
  have hanswers : (u.startFrame p cmd).io.drives = u.io.drives ∧ (u.startFrame p cmd).io.ticks = u.io.ticks := by
    cases cmd <;> simp only [I2sUnit.startFrame] <;> repeat' split
    all_goals exact ⟨rfl, rfl⟩
  exact ⟨htrace, hanswers.1, hanswers.2, hsck, hsd, hws, hseqL, hseqR⟩

/-- The unit as a transfer starts, before any frame does (rules R44, R95, R97). -/
def I2sUnit.opened (cmd : I2sRun) (n : Width) (u : I2sUnit) : I2sUnit :=
  { u with
    io  := u.io.start cmd
    cur := { u.cur with n := n, frame := 0, bitOffset := Config.freeOffset u.io.fresh % (widthBits n + 1) } }

theorem I2sUnit.begin_frame {p : Params} {u : I2sUnit} (h : (prologueActs p u.mode).length = 0) (cmd : I2sRun) (n : Width) :
    u.begin p cmd n = (u.opened cmd n).startFrame p cmd := if_pos h

theorem I2sUnit.begin_prologue {p : Params} {u : I2sUnit} (h : (prologueActs p u.mode).length ≠ 0) (cmd : I2sRun) (n : Width) :
    u.begin p cmd n = u.opened cmd n := if_neg h

theorem I2sUnit.begin_samePorts (p : Params) (cmd : I2sRun) (n : Width) (u : I2sUnit) : u.SamePorts (u.begin p cmd n) := by
  by_cases hp : (prologueActs p u.mode).length = 0
  · rw [I2sUnit.begin_frame hp]
    have h := I2sUnit.startFrame_samePorts p cmd (u.opened cmd n)
    exact ⟨h.trace, h.drives, h.ticks, h.lvlSck, h.lvlSd, h.lvlWs, h.seqL, h.seqR⟩
  · rw [I2sUnit.begin_prologue hp]
    exact ⟨rfl, rfl, rfl, rfl, rfl, rfl, rfl, rfl⟩

theorem I2sUnit.transfer_cases (p : Params) (cmd : I2sRun) (wid : BitVec 2) (u : I2sUnit) :
    u.transfer p cmd wid = u ∨ ∃ n, u.transfer p cmd wid = u.begin p cmd n := by
  unfold I2sUnit.transfer
  cases widthOf wid with
  | none => exact .inl rfl
  | some n => exact .inr ⟨n, rfl⟩

theorem I2sUnit.transfer_samePorts (p : Params) (cmd : I2sRun) (wid : BitVec 2) (u : I2sUnit) :
    u.SamePorts (u.transfer p cmd wid) := by
  rcases I2sUnit.transfer_cases p cmd wid u with h | ⟨n, h⟩ <;> rw [h]
  · exact ⟨rfl, rfl, rfl, rfl, rfl, rfl, rfl, rfl⟩
  · exact I2sUnit.begin_samePorts p cmd n u

/-- `LIFE` and `MODE` are not written by a transfer (rules R24, R27). -/
theorem I2sUnit.transfer_config (p : Params) (cmd : I2sRun) (wid : BitVec 2) (u : I2sUnit) :
    (u.transfer p cmd wid).io.life = u.io.life ∧ (u.transfer p cmd wid).mode = u.mode := by
  rcases I2sUnit.transfer_cases p cmd wid u with h | ⟨n, h⟩ <;> rw [h]
  · exact ⟨rfl, rfl⟩
  · obtain ⟨-, hlife, hmode, -⟩ := I2sUnit.begin_io p cmd n u
    exact ⟨hlife, hmode⟩

/-- `I2S.WRITE` pulls no producer (rule R95). -/
theorem I2sUnit.transfer_write_prods (p : Params) (wid : BitVec 2) (u : I2sUnit) :
    (u.transfer p .write wid).prodL = u.prodL ∧ (u.transfer p .write wid).prodR = u.prodR := by
  rcases I2sUnit.transfer_cases p .write wid u with h | ⟨n, h⟩ <;> rw [h]
  · exact ⟨rfl, rfl⟩
  · simp only [I2sUnit.begin, I2sUnit.startFrame]
    repeat' split
    all_goals exact ⟨rfl, rfl⟩

/-! ### The effect of a command, unit by unit -/

section
variable (i : Instr) (s : State)

@[simp] theorem execEffect_params : (execEffect i s).params = s.params := by cases i <;> rfl
@[simp] theorem execEffect_host : (execEffect i s).host = s.host := by cases i <;> rfl
@[simp] theorem execEffect_sched : (execEffect i s).sched = s.sched := by cases i <;> rfl

/-- A command is for one unit (rules R3, R63). -/
theorem execEffect_others :
    (i.unit ≠ .i2s → (execEffect i s).i2s = s.i2s) ∧ (i.unit ≠ .uart → (execEffect i s).uart = s.uart) ∧
    (i.unit ≠ .spi → (execEffect i s).spi = s.spi) := by
  cases i <;> refine ⟨fun h => ?_, fun h => ?_, fun h => ?_⟩ <;> first | rfl | exact absurd rfl h

theorem execEffect_samePorts :
    s.i2s.SamePorts (execEffect i s).i2s ∧ s.uart.SamePorts (execEffect i s).uart ∧ s.spi.SamePorts (execEffect i s).spi := by
  refine ⟨?_, ?_, ?_⟩
  · cases i with
    | i2sWrite wid => exact I2sUnit.transfer_samePorts s.params .write wid s.i2s
    | i2sWriteStream wid => exact I2sUnit.transfer_samePorts s.params .writeStream wid s.i2s
    | _ => exact ⟨rfl, rfl, rfl, rfl, rfl, rfl, rfl, rfl⟩
  · cases i <;> exact ⟨rfl, rfl, rfl, rfl, rfl, rfl⟩
  · cases i <;> exact ⟨rfl, rfl, rfl, rfl, rfl, rfl⟩

theorem execEffect_traceOf (u : UnitId) : (execEffect i s).traceOf u = s.traceOf u := by
  obtain ⟨hi, hu, hs⟩ := execEffect_samePorts i s
  cases u with
  | i2s => exact hi.trace
  | uart => exact hu.trace
  | spi => exact hs.trace

theorem execEffect_lvl (l : OutLine) : (execEffect i s).lvl l = s.lvl l := by
  obtain ⟨hi, hu, hs⟩ := execEffect_samePorts i s
  cases l with
  | i2sSck => exact hi.lvlSck
  | i2sSd => exact hi.lvlSd
  | i2sWs => exact hi.lvlWs
  | uartTx => exact hu.lvlTx
  | spiSck => exact hs.lvlSck
  | spiMosi => exact hs.lvlMosi

/-- The producers are pulled by `I2S.WRITE_STREAM` alone (rule R48). -/
theorem execEffect_prods (h : (execEffect i s).i2s.prodL ≠ s.i2s.prodL ∨ (execEffect i s).i2s.prodR ≠ s.i2s.prodR) :
    ∃ w, i = .i2sWriteStream w := by
  cases i with
  | i2sWriteStream wid => exact ⟨wid, rfl⟩
  | i2sWrite wid =>
    obtain ⟨hl, hr⟩ := I2sUnit.transfer_write_prods s.params wid s.i2s
    exact (h.elim (absurd hl) (absurd hr))
  | _ => exact (h.elim (absurd rfl) (absurd rfl))

/-- `I2S.CUR` is set by the transfers alone (rule R28). -/
theorem execEffect_cur (h : (execEffect i s).i2s.cur ≠ s.i2s.cur) : ∃ w, i = .i2sWrite w ∨ i = .i2sWriteStream w := by
  cases i with
  | i2sWrite wid => exact ⟨wid, .inl rfl⟩
  | i2sWriteStream wid => exact ⟨wid, .inr rfl⟩
  | _ => exact absurd rfl h

/-- `MODE` is written by INIT and RELEASE alone (rule R27). -/
theorem execEffect_mode (h : (execEffect i s).i2s.mode ≠ s.i2s.mode) : i = .i2sRelease ∨ ∃ m, i = .i2sInit m := by
  cases i with
  | i2sInit m => exact .inr ⟨m, rfl⟩
  | i2sRelease => exact .inl rfl
  | i2sWrite wid => exact absurd (I2sUnit.transfer_config s.params .write wid s.i2s).2 h
  | i2sWriteStream wid => exact absurd (I2sUnit.transfer_config s.params .writeStream wid s.i2s).2 h
  | _ => exact absurd rfl h

/-- `TXSR` is loaded by `UART.WRITE` alone (rule R31). -/
theorem execEffect_txsr (h : (execEffect i s).uart.txsr ≠ s.uart.txsr) : ∃ b, i = .uartWrite b := by
  cases i with
  | uartWrite b => exact ⟨b, rfl⟩
  | _ => exact absurd rfl h

/-- `UART.BITCNT` is cleared by `UART.WRITE` and `UART.READ` alone (rule R31). -/
theorem execEffect_uart_bitcnt (h : (execEffect i s).uart.bitcnt ≠ s.uart.bitcnt) : i = .uartRead ∨ ∃ b, i = .uartWrite b := by
  cases i with
  | uartRead => exact .inl rfl
  | uartWrite b => exact .inr ⟨b, rfl⟩
  | _ => exact absurd rfl h

/-- `SPI.RXACC` and `SPI.BITCNT` are cleared by `SPI.SEND` alone (rule R30). -/
theorem execEffect_spi_transient
    (h : (execEffect i s).spi.rxacc ≠ s.spi.rxacc ∨ (execEffect i s).spi.bitcnt ≠ s.spi.bitcnt) : ∃ b, i = .spiSend b := by
  cases i with
  | spiSend b => exact ⟨b, rfl⟩
  | _ => exact (h.elim (absurd rfl) (absurd rfl))

/-- `CPOL`, `CPHA` and the received byte are written by RELEASE alone: `SPI.INIT` writes them at its port event (rules R29, R34,
R40). -/
theorem execEffect_spi_config
    (h : (execEffect i s).spi.cpol ≠ s.spi.cpol ∨ (execEffect i s).spi.cpha ≠ s.spi.cpha ∨
      (execEffect i s).spi.rxvalid ≠ s.spi.rxvalid ∨ (execEffect i s).spi.rxbuf ≠ s.spi.rxbuf) : i = .spiRelease := by
  cases i with
  | spiRelease => rfl
  | _ => rcases h with h | h | h | h <;> exact absurd rfl h

/-- `BITORDER` is written by `SPI.SET_BIT_ORDER` and RELEASE (rule R29). -/
theorem execEffect_bitOrder (h : (execEffect i s).spi.bitOrder ≠ s.spi.bitOrder) :
    i = .spiRelease ∨ ∃ b, i = .spiSetBitOrder b := by
  cases i with
  | spiRelease => exact .inl rfl
  | spiSetBitOrder b => exact .inr ⟨b, rfl⟩
  | _ => exact absurd rfl h

theorem execEffect_lifeOf_other {u : UnitId} (h : i.unit ≠ u) : (execEffect i s).lifeOf u = s.lifeOf u := by
  obtain ⟨hi2s, huart, hspi⟩ := execEffect_others i s
  cases u with
  | i2s => exact congrArg (fun x => x.io.life) (hi2s h)
  | uart => exact congrArg (fun x => x.io.life) (huart h)
  | spi => exact congrArg (fun x => x.io.life) (hspi h)

/-- `LIFE` is written by the INITs and RELEASEs, each on its own unit (rule R24). `SPI.INIT` writes it at its port event. -/
theorem execEffect_lifeOf (u : UnitId) (h : (execEffect i s).lifeOf u ≠ s.lifeOf u) :
    i.unit = u ∧ (isInit i = true ∧ (execEffect i s).lifeOf u = .configured ∨
      (i = .i2sRelease ∨ i = .uartRelease ∨ i = .spiRelease) ∧ (execEffect i s).lifeOf u = .unconfigured) := by
  rcases eq_or_ne i.unit u with rfl | hu
  · cases i with
    | i2sInit m => exact ⟨rfl, .inl ⟨rfl, rfl⟩⟩
    | uartInit => exact ⟨rfl, .inl ⟨rfl, rfl⟩⟩
    | i2sRelease => exact ⟨rfl, .inr ⟨.inl rfl, rfl⟩⟩
    | uartRelease => exact ⟨rfl, .inr ⟨.inr (.inl rfl), rfl⟩⟩
    | spiRelease => exact ⟨rfl, .inr ⟨.inr (.inr rfl), rfl⟩⟩
    | i2sWrite wid => exact absurd (I2sUnit.transfer_config s.params .write wid s.i2s).1 h
    | i2sWriteStream wid => exact absurd (I2sUnit.transfer_config s.params .writeStream wid s.i2s).1 h
    | _ => exact absurd rfl h
  · exact absurd (execEffect_lifeOf_other i s hu) h

end

/-- Settles O48: a command that starts leaves `execEffect`, which changes what the lemmas above say and nothing else. -/
theorem execFrame : Obligations.ExecFrame := by
  intro i s t h
  obtain ⟨-, rfl⟩ := exec_next_iff.mp h
  obtain ⟨hi2s, huart, hspi⟩ := execEffect_others i s
  obtain ⟨ki, ku, ks⟩ := execEffect_samePorts i s
  exact ⟨hi2s, huart, hspi, execEffect_params i s, execEffect_host i s, execEffect_sched i s, execEffect_traceOf i s,
    execEffect_lvl i s, ki.drives, ku.drives, ks.drives, ki.ticks, ku.ticks, ks.ticks, ku.rx, ks.miso, ki.seqL, ki.seqR,
    execEffect_prods i s, execEffect_cur i s, execEffect_mode i s, execEffect_txsr i s, ku.rxacc, execEffect_uart_bitcnt i s,
    execEffect_spi_transient i s, execEffect_spi_config i s, execEffect_bitOrder i s, execEffect_lifeOf i s⟩

/-! ### Whose turn it is -/

theorem step_host {s : State} (h : s.mover (s.sched.next Config.freeTurn).1 = none) : step s = hostTurn s.tookTurn :=
  takeTurn_host (s := s.tookTurn) h

theorem step_unit {s : State} {u : UnitId} (h : s.mover (s.sched.next Config.freeTurn).1 = some u) :
    step s = unitTurn u s.tookTurn :=
  takeTurn_unit (s := s.tookTurn) h

/-- Settles O9: the turn is the host's, and its word decodes to a command for a unit that is IDLE. -/
theorem stepRunsCommand : Obligations.StepRunsCommand := by
  rintro s h rest i ⟨hhost, hmover⟩ hdec hidle
  rw [step_host hmover, hostTurn_cons (s := s.tookTurn) hhost hdec, State.tookTurn_busy, hidle]
  rfl

/-- Settles O10: the turn is the unit's. -/
theorem stepRunsEvent : Obligations.StepRunsEvent := by
  intro s u hmover
  exact step_unit hmover

/-- Settles O11: the turn is the host's, and its word decodes to a command for a unit that runs one. -/
theorem hostWaitsForOutcome : Obligations.HostWaitsForOutcome := by
  rintro s h rest i ⟨hhost, hmover⟩ hdec hbusy
  rw [step_host hmover, hostTurn_cons (s := s.tookTurn) hhost hdec, State.tookTurn_busy, hbusy]
  rfl

theorem decode_of_decodeTableWord {nbits w : Nat} {i : Instr} (h : decodeTableWord nbits w = some i) :
    decode (tableWord nbits w) = .ok i := by
  unfold decodeTableWord at h
  cases hd : decode (tableWord nbits w) with
  | error e => simp [hd, Except.toOption] at h
  | ok j => simpa [hd, Except.toOption] using h

@[simp] theorem State.idleUnit_busy (u : UnitId) (s : State) : (s.idleUnit u).busy u = false := by cases u <;> rfl

/-- A command word put before the host is the host's next, on a unit that is IDLE. -/
theorem State.withCommandWord_ok {c : CmdWord} {i : Instr} (s : State) (h : decode c = .ok i) :
    s.withCommandWord c =
      State.idleUnit i.unit { s with host := HostCmd.ofWord c :: s.host, sched := ⟨.host :: s.sched.script, s.sched.rest⟩ } := by
  simp only [State.withCommandWord, h]

/-- Settles O12: the turn put before the schedule is the host's, and the word put before its commands is the one it issues. -/
theorem fetchWordRuns : Obligations.FetchWordRuns := by
  intro s nbits w i h
  have hdec := decode_of_decodeTableWord h
  rw [State.withFetchWord, State.withCommandWord_ok s hdec]
  have hmoves : (State.idleUnit i.unit { s with
      host := HostCmd.ofWord (tableWord nbits w) :: s.host
      sched := ⟨.host :: s.sched.script, s.sched.rest⟩ }).HostMoves (HostCmd.ofWord (tableWord nbits w)) s.host := by
    cases i.unit <;> exact ⟨rfl, rfl⟩
  rw [stepRunsCommand _ _ _ i hmoves hdec (State.idleUnit_busy _ _)]
  cases i.unit <;> rfl

theorem I2sUnit.event_idle {u : I2sUnit} (h : u.io.seq = .idle) (p : Params) : u.event p = .ok u := by
  simp only [I2sUnit.event, h]

theorem UartUnit.event_idle {u : UartUnit} (h : u.io.seq = .idle) (p : Params) : u.event p = .ok u := by
  simp only [UartUnit.event, h]

theorem SpiUnit.event_idle {u : SpiUnit} (h : u.io.seq = .idle) (p : Params) : u.event p = .ok u := by
  simp only [SpiUnit.event, h]

/-- Settles O13: an idle unit's event is no event. -/
theorem idleUnitSilent : Obligations.IdleUnitSilent := by
  intro u s h
  cases u with
  | i2s => rw [unitTurn, I2sUnit.event_idle (Seq.not_isIdle.mp h)]; rfl
  | uart => rw [unitTurn, UartUnit.event_idle (Seq.not_isIdle.mp h)]; rfl
  | spi => rw [unitTurn, SpiUnit.event_idle (Seq.not_isIdle.mp h)]; rfl

/-! ### Power-on -/

/-- Settles O49: every field is the one `State.reset` states. -/
theorem resetState : Obligations.ResetState :=
  ⟨fun u => by cases u <;> exact ⟨rfl, rfl⟩, rfl, rfl, rfl, fun l => by cases l <;> rfl, rfl⟩

/-- Settles O50: every unit is IDLE, and `RXVALID` is 0. -/
theorem resetInv : Obligations.ResetInv := ⟨trivial, trivial, fun _ => rfl, trivial⟩

/-- Settles O52: every line is unknown, and every trace empty. -/
theorem resetLinesFollow : Obligations.ResetLinesFollow := ⟨rfl, rfl, rfl, rfl, rfl, rfl⟩

end Sys2Proof.Machine

/-! ## What a step shows: port events and line levels

A unit's turn makes at most one port event, and each level is the one the event leaves (rules R26, R58). -/

namespace Sys2Proof.Machine

/-! ### One turn -/

/-- What a step can do: take the turn alone, a unit's event, or a command on a unit that is IDLE. -/
theorem step_next_cases {s t : State} (h : step s = .next t) :
    t = s.tookTurn ∨ (∃ u, unitTurn u s.tookTurn = .next t) ∨
    ∃ i c cs, s.busy i.unit = false ∧ execRefusal i (State.handOver i c { s.tookTurn with host := cs }) = none ∧
      t = execEffect i (State.handOver i c { s.tookTurn with host := cs }) := by
  rcases step_cases h with hh | hu
  · rcases hostTurn_cases hh with ht | ⟨c, cs, i, -, -, hidle, hx⟩
    · exact .inl ht
    · obtain ⟨hr, ht⟩ := exec_next_iff.mp hx
      exact .inr (.inr ⟨i, c, cs, hidle, hr, ht.symm⟩)
  · exact .inr (.inl hu)

/-- The unit's turn made the port event `ev`, and every level followed it. -/
structure State.ShowsEvent (u : UnitId) (s t : State) (ev : Event) : Prop where
  trace : t.traceOf u = s.traceOf u ++ [ev]
  lvl   : ∀ l, t.lvl l = levelThrough l (s.lvl l) ev

theorem I2sUnit.Performed.showsEvent {s : State} {w v : I2sUnit} {ev : Event} (h : s.i2s.Performed w ev)
    (htrace : v.io.trace = w.io.trace) (hsck : v.lvlSck = w.lvlSck) (hsd : v.lvlSd = w.lvlSd) (hws : v.lvlWs = w.lvlWs) :
    State.ShowsEvent .i2s s { s with i2s := v } ev := by
  refine ⟨htrace.trans h.trace, fun l => ?_⟩
  cases l with
  | i2sSck => exact hsck.trans h.lvlSck
  | i2sSd => exact hsd.trans h.lvlSd
  | i2sWs => exact hws.trans h.lvlWs
  | uartTx => exact (h.own .uartTx _ (by decide)).symm
  | spiSck => exact (h.own .spiSck _ (by decide)).symm
  | spiMosi => exact (h.own .spiMosi _ (by decide)).symm

theorem UartUnit.Performed.showsEvent {s : State} {w v : UartUnit} {ev : Event} (h : s.uart.Performed w ev)
    (htrace : v.io.trace = w.io.trace) (htx : v.lvlTx = w.lvlTx) : State.ShowsEvent .uart s { s with uart := v } ev := by
  refine ⟨htrace.trans h.trace, fun l => ?_⟩
  cases l with
  | uartTx => exact htx.trans h.lvlTx
  | i2sSck => exact (h.own .i2sSck _ (by decide)).symm
  | i2sSd => exact (h.own .i2sSd _ (by decide)).symm
  | i2sWs => exact (h.own .i2sWs _ (by decide)).symm
  | spiSck => exact (h.own .spiSck _ (by decide)).symm
  | spiMosi => exact (h.own .spiMosi _ (by decide)).symm

theorem SpiUnit.Performed.showsEvent {s : State} {w v : SpiUnit} {ev : Event} (h : s.spi.Performed w ev)
    (htrace : v.io.trace = w.io.trace) (hsck : v.lvlSck = w.lvlSck) (hmosi : v.lvlMosi = w.lvlMosi) :
    State.ShowsEvent .spi s { s with spi := v } ev := by
  refine ⟨htrace.trans h.trace, fun l => ?_⟩
  cases l with
  | spiSck => exact hsck.trans h.lvlSck
  | spiMosi => exact hmosi.trans h.lvlMosi
  | i2sSck => exact (h.own .i2sSck _ (by decide)).symm
  | i2sSd => exact (h.own .i2sSd _ (by decide)).symm
  | i2sWs => exact (h.own .i2sWs _ (by decide)).symm
  | uartTx => exact (h.own .uartTx _ (by decide)).symm

theorem UartUnit.advance_shown (cmd : UartRun) (i : Nat) (u : UartUnit) :
    (u.advance cmd i).io.trace = u.io.trace ∧ (u.advance cmd i).lvlTx = u.lvlTx := by
  unfold UartUnit.advance; split <;> exact ⟨rfl, rfl⟩

theorem SpiUnit.advance_shown (cmd : SpiRun) (i : Nat) (u : SpiUnit) :
    (u.advance cmd i).io.trace = u.io.trace ∧ (u.advance cmd i).lvlSck = u.lvlSck ∧
    (u.advance cmd i).lvlMosi = u.lvlMosi := by
  unfold SpiUnit.advance; split <;> exact ⟨rfl, rfl, rfl⟩

/-- An SPI port event that completes or raises an error is one event of the trace. -/
theorem SpiUnit.Performed.of_perform {p : Params} {a : SpiAct} {u w : SpiUnit}
    (h : u.perform p a = .done w ∨ ∃ o, u.perform p a = .raised o w) : ∃ ev, u.Performed w ev := by
  rcases SpiUnit.perform_cases p a u with ⟨v, ev, hd, hv, -⟩ | ⟨v, ev, o, hr, hv, -⟩ | ⟨hs, -⟩
  · obtain rfl : v = w := by simpa [hd] using h
    exact ⟨ev, hv⟩
  · obtain rfl : v = w := by simpa [hr] using h
    exact ⟨ev, hv⟩
  · simp [hs] at h

/-- A unit's turn shows one event, or none: then traces and levels are as they were. -/
theorem unitTurn_shows {u : UnitId} {s t : State} (h : unitTurn u s = .next t) :
    ((∀ v, t.traceOf v = s.traceOf v) ∧ ∀ l, t.lvl l = s.lvl l) ∨ ∃ ev, State.ShowsEvent u s t ev := by
  rcases unitTurn_cases h with ⟨rfl, v, hv, rfl⟩ | ⟨rfl, v, hv, rfl⟩ | ⟨rfl, v, hv, rfl⟩
  · rcases I2sUnit.event_cases hv with ⟨-, rfl⟩ | ⟨cmd, i, -, ⟨-, rfl⟩ | ⟨a, -, ⟨w, hd, rfl⟩ | ha | ⟨o, w, hr, rfl⟩⟩⟩
    · exact .inl ⟨fun _ => rfl, fun _ => rfl⟩
    · exact .inl ⟨fun v => by cases v <;> rfl, fun l => by cases l <;> rfl⟩
    · obtain ⟨ev, hw⟩ := I2sUnit.Performed.of_perform (.inl hd)
      obtain ⟨htrace, -, -, -, -, hsck, hsd, hws, -⟩ := I2sUnit.advance_io s.params cmd i w
      exact .inr ⟨ev, hw.showsEvent htrace hsck hsd hws⟩
    · exact absurd ha I2sUnit.perform_ne_again
    · obtain ⟨ev, hw⟩ := I2sUnit.Performed.of_perform (.inr ⟨o, hr⟩)
      exact .inr ⟨ev, hw.showsEvent rfl rfl rfl rfl⟩
  · rcases UartUnit.event_cases hv with ⟨-, rfl⟩ | ⟨cmd, i, -, ⟨-, rfl⟩ | ⟨a, -, ⟨w, hd, rfl⟩ | ha | ⟨o, w, hr, rfl⟩⟩⟩
    · exact .inl ⟨fun _ => rfl, fun _ => rfl⟩
    · exact .inl ⟨fun v => by cases v <;> rfl, fun l => by cases l <;> rfl⟩
    · obtain ⟨ev, hw⟩ := UartUnit.Performed.of_perform (.inl hd)
      obtain ⟨htrace, htx⟩ := UartUnit.advance_shown cmd i w
      exact .inr ⟨ev, hw.showsEvent htrace htx⟩
    · obtain ⟨ev, hw⟩ := UartUnit.Performed.of_perform (.inr (.inl ha))
      exact .inr ⟨ev, hw.showsEvent rfl rfl⟩
    · obtain ⟨ev, hw⟩ := UartUnit.Performed.of_perform (.inr (.inr ⟨o, hr⟩))
      exact .inr ⟨ev, hw.showsEvent rfl rfl⟩
  · rcases SpiUnit.event_cases hv with ⟨-, rfl⟩ | ⟨cmd, i, -, ⟨-, rfl⟩ | ⟨a, -, ⟨w, hd, rfl⟩ | ha | ⟨o, w, hr, rfl⟩⟩⟩
    · exact .inl ⟨fun _ => rfl, fun _ => rfl⟩
    · exact .inl ⟨fun v => by cases v <;> rfl, fun l => by cases l <;> rfl⟩
    · obtain ⟨ev, hw⟩ := SpiUnit.Performed.of_perform (.inl hd)
      obtain ⟨htrace, hsck, hmosi⟩ := SpiUnit.advance_shown cmd i w
      exact .inr ⟨ev, hw.showsEvent htrace hsck hmosi⟩
    · exact absurd ha SpiUnit.perform_ne_again
    · obtain ⟨ev, hw⟩ := SpiUnit.Performed.of_perform (.inr ⟨o, hr⟩)
      exact .inr ⟨ev, hw.showsEvent rfl rfl rfl⟩

/-! ### Levels follow the traces -/

theorem State.linesFollow_iff {s : State} : s.LinesFollow ↔ ∀ l, s.lvl l = levelOf l .x (s.traceOf l.unit) := by
  constructor
  · rintro ⟨hisck, hisd, hiws, htx, hssck, hmosi⟩ l
    cases l with
    | i2sSck => exact hisck
    | i2sSd => exact hisd
    | i2sWs => exact hiws
    | uartTx => exact htx
    | spiSck => exact hssck
    | spiMosi => exact hmosi
  · exact fun h => ⟨h .i2sSck, h .i2sSd, h .i2sWs, h .uartTx, h .spiSck, h .spiMosi⟩

/-- Levels that follow the traces still do where neither changed. -/
theorem State.LinesFollow.of_same {s t : State} (h : s.LinesFollow) (htrace : ∀ u, t.traceOf u = s.traceOf u)
    (hlvl : ∀ l, t.lvl l = s.lvl l) : t.LinesFollow :=
  State.linesFollow_iff.mpr fun l => by rw [hlvl, htrace, State.linesFollow_iff.mp h l]

/-- A unit's turn leaves the lines of the other units, and their traces (rules R3, R25). -/
theorem unitTurn_otherLines {u : UnitId} {s t : State} (h : unitTurn u s = .next t) {l : OutLine} (hl : l.unit ≠ u) :
    t.lvl l = s.lvl l ∧ t.traceOf l.unit = s.traceOf l.unit := by
  rcases unitTurn_cases h with ⟨rfl, x, -, rfl⟩ | ⟨rfl, x, -, rfl⟩ | ⟨rfl, x, -, rfl⟩ <;>
    cases l <;> first | exact ⟨rfl, rfl⟩ | exact absurd rfl hl

/-- A unit's event moves the level of a line as it extends the line's trace (rule R26). -/
theorem unitTurn_linesFollow {u : UnitId} {s t : State} (hs : s.LinesFollow) (h : unitTurn u s = .next t) : t.LinesFollow := by
  rcases unitTurn_shows h with ⟨htrace, hlvl⟩ | ⟨ev, hev⟩
  · exact hs.of_same htrace hlvl
  · rw [State.linesFollow_iff] at hs ⊢
    intro l
    by_cases hl : l.unit = u
    · rw [hev.lvl, hs l, hl, hev.trace, levelOf_append]
      rfl
    · obtain ⟨hlvl, htrace⟩ := unitTurn_otherLines h hl
      rw [hlvl, hs l, htrace]

theorem State.handOver_lvl (i : Instr) (c : HostCmd) (s : State) (l : OutLine) : (s.handOver i c).lvl l = s.lvl l := by
  cases i <;> cases l <;> rfl

theorem State.handOver_traceOf (i : Instr) (c : HostCmd) (s : State) (u : UnitId) : (s.handOver i c).traceOf u = s.traceOf u := by
  cases i <;> cases u <;> rfl

/-- Settles O53: a unit's event keeps it, and a command before its first port event leaves traces and levels alone. -/
theorem stepKeepsLinesFollow : Obligations.StepKeepsLinesFollow := by
  intro s t hs h
  rcases step_next_cases h with rfl | ⟨u, hu⟩ | ⟨i, c, cs, -, -, rfl⟩
  · exact hs
  · exact unitTurn_linesFollow (s := s.tookTurn) hs hu
  · refine hs.of_same (fun u => ?_) (fun l => ?_)
    · rw [execEffect_traceOf, State.handOver_traceOf]; cases u <;> rfl
    · rw [execEffect_lvl, State.handOver_lvl]; cases l <;> rfl

/-! ### What an error leaves -/

/-- The event is one whose failure ends its command: a `!` of the trace (rules R13, R149, R150). -/
def Event.Failed (ev : Event) : Prop := (∃ e, ev.pinError = some e) ∨ ∃ t, ev = .wait (some t)

/-- A failed event leaves every level, but of the line it drove, which is then unknown (rule R26). -/
theorem Event.Failed.levelThrough {ev : Event} (h : ev.Failed) (l : OutLine) (lvl : Level) :
    levelThrough l lvl ev = lvl ∨ ∃ v e, ev = .drive l v (.err e) ∧ levelThrough l lvl ev = .x := by
  rcases h with ⟨e, he⟩ | ⟨t, rfl⟩
  · cases ev with
    | drive l' v a =>
      cases a with
      | ok => simp [Event.pinError] at he
      | err e' =>
        by_cases hl : l' = l
        · subst hl
          exact .inr ⟨v, e', rfl, by simp [Machine.levelThrough, levelAfter]⟩
        · exact .inl (by simp [Machine.levelThrough, hl])
    | sample l' a => exact .inl rfl
    | wait f => exact .inl rfl
  · exact .inl rfl

/-- A failed event, as `ErrorLeavesState` speaks of it. -/
theorem State.ShowsEvent.failed {u : UnitId} {s t : State} {ev : Event} (h : State.ShowsEvent u s t ev) (hf : ev.Failed) :
    ∃ ev, t.traceOf u = s.traceOf u ++ [ev] ∧
      (∀ l, t.lvl l = s.lvl l ∨ ∃ v e, ev = .drive l v (.err e) ∧ t.lvl l = .x) ∧
      (∀ l v e, ev = .drive l v (.err e) → t.lvl l = .x) := by
  refine ⟨ev, h.trace, fun l => ?_, fun l v e he => ?_⟩
  · rw [h.lvl]
    exact hf.levelThrough l _
  · rw [h.lvl, he]
    simp [levelThrough, levelAfter]

/-- No error was handed over: no outcome, or one that is none of a failed port event. -/
def NoErrorFrom (before after : List CmdOutcome) : Prop :=
  after = before ∨ ∃ o, o.isPortError = false ∧ after = before ++ [o]

theorem NoErrorFrom.ne {before after : List CmdOutcome} (h : NoErrorFrom before after) {o : CmdOutcome}
    (ho : o.isPortError = true) : after ≠ before ++ [o] := by
  rcases h with rfl | ⟨o', ho', rfl⟩
  · simp
  · intro he
    obtain rfl : o' = o := by simpa using he
    simp [ho] at ho'

theorem I2sUnit.advance_noError (p : Params) (cmd : I2sRun) (i : Nat) (u : I2sUnit) :
    NoErrorFrom u.io.outcomes (u.advance p cmd i).io.outcomes := by
  obtain ⟨-, -, -, -, -, -, -, -, ⟨-, h⟩ | ⟨-, h⟩⟩ := I2sUnit.advance_io p cmd i u
  · exact .inl h
  · exact .inr ⟨.ok, rfl, h⟩

theorem UartUnit.outcome_isPortError (cmd : UartRun) (u : UartUnit) : (u.outcome cmd).isPortError = false := by
  cases cmd <;> rfl

theorem UartUnit.advance_noError (cmd : UartRun) (i : Nat) (u : UartUnit) :
    NoErrorFrom u.io.outcomes (u.advance cmd i).io.outcomes := by
  unfold UartUnit.advance
  split
  · exact .inl rfl
  · exact .inr ⟨_, u.outcome_isPortError cmd, rfl⟩

theorem SpiUnit.advance_noError (cmd : SpiRun) (i : Nat) (u : SpiUnit) :
    NoErrorFrom u.io.outcomes (u.advance cmd i).io.outcomes := by
  unfold SpiUnit.advance
  split
  · exact .inl rfl
  · exact .inr ⟨.ok, rfl, rfl⟩

section
variable {p : Params} {o : CmdOutcome} (ho : o.isPortError = true)
include ho

/-- An error is handed over only by a port event that raised it (rules R149, R150, R152). -/
theorem I2sUnit.event_error {u v : I2sUnit} (h : u.event p = .ok v) (hout : v.io.outcomes = u.io.outcomes ++ [o]) :
    ∃ a w, u.perform p a = .raised o w ∧ v = w.finish o := by
  rcases I2sUnit.event_cases h with ⟨-, rfl⟩ | ⟨cmd, i, -, ⟨-, rfl⟩ | ⟨a, -, ⟨w, hd, rfl⟩ | ha | ⟨o', w, hr, rfl⟩⟩⟩
  · exact absurd hout (NoErrorFrom.ne (.inl rfl) ho)
  · exact absurd hout (NoErrorFrom.ne (.inr ⟨.ok, rfl, rfl⟩) ho)
  · obtain ⟨ev, hw⟩ := I2sUnit.Performed.of_perform (.inl hd)
    exact absurd hout ((hw.outcomes ▸ I2sUnit.advance_noError p cmd i w).ne ho)
  · exact absurd ha I2sUnit.perform_ne_again
  · obtain ⟨ev, hw⟩ := I2sUnit.Performed.of_perform (.inr ⟨o', hr⟩)
    obtain rfl : o' = o := by simpa [hw.outcomes] using hout
    exact ⟨a, w, hr, rfl⟩

theorem UartUnit.event_error {u v : UartUnit} (h : u.event p = .ok v) (hout : v.io.outcomes = u.io.outcomes ++ [o]) :
    ∃ a w, u.perform p a = .raised o w ∧ v = w.finish o := by
  rcases UartUnit.event_cases h with ⟨-, rfl⟩ | ⟨cmd, i, -, ⟨-, rfl⟩ | ⟨a, -, ⟨w, hd, rfl⟩ | ha | ⟨o', w, hr, rfl⟩⟩⟩
  · exact absurd hout (NoErrorFrom.ne (.inl rfl) ho)
  · exact absurd hout (NoErrorFrom.ne (.inr ⟨_, u.outcome_isPortError cmd, rfl⟩) ho)
  · obtain ⟨ev, hw⟩ := UartUnit.Performed.of_perform (.inl hd)
    exact absurd hout ((hw.outcomes ▸ UartUnit.advance_noError cmd i w).ne ho)
  · obtain ⟨ev, hw⟩ := UartUnit.Performed.of_perform (.inr (.inl ha))
    exact absurd hout (NoErrorFrom.ne (.inl hw.outcomes) ho)
  · obtain ⟨ev, hw⟩ := UartUnit.Performed.of_perform (.inr (.inr ⟨o', hr⟩))
    obtain rfl : o' = o := by simpa [hw.outcomes] using hout
    exact ⟨a, w, hr, rfl⟩

theorem SpiUnit.event_error {u v : SpiUnit} (h : u.event p = .ok v) (hout : v.io.outcomes = u.io.outcomes ++ [o]) :
    ∃ a w, u.perform p a = .raised o w ∧ v = w.finish o := by
  rcases SpiUnit.event_cases h with ⟨-, rfl⟩ | ⟨cmd, i, -, ⟨-, rfl⟩ | ⟨a, -, ⟨w, hd, rfl⟩ | ha | ⟨o', w, hr, rfl⟩⟩⟩
  · exact absurd hout (NoErrorFrom.ne (.inl rfl) ho)
  · exact absurd hout (NoErrorFrom.ne (.inr ⟨.ok, rfl, rfl⟩) ho)
  · obtain ⟨ev, hw⟩ := SpiUnit.Performed.of_perform (.inl hd)
    exact absurd hout ((hw.outcomes ▸ SpiUnit.advance_noError cmd i w).ne ho)
  · exact absurd ha SpiUnit.perform_ne_again
  · obtain ⟨ev, hw⟩ := SpiUnit.Performed.of_perform (.inr ⟨o', hr⟩)
    obtain rfl : o' = o := by simpa [hw.outcomes] using hout
    exact ⟨a, w, hr, rfl⟩

end

/-- The event of an I2S error, and what it keeps (rules R43, R149). -/
theorem I2sUnit.perform_raised {p : Params} {a : I2sAct} {u w : I2sUnit} {o : CmdOutcome} (h : u.perform p a = .raised o w) :
    ∃ ev, u.Performed w ev ∧ ev.Failed := by
  rcases I2sUnit.perform_cases p a u with ⟨v, ev, hd, -⟩ | ⟨v, ev, o', hr, hv, hf⟩ | ⟨hs, -⟩
  · cases hd.symm.trans h
  · cases hr.symm.trans h
    exact ⟨ev, hv, hf.imp (fun ⟨e, _, he⟩ => ⟨e, he⟩) (fun ⟨t, _, ht⟩ => ⟨t, ht⟩)⟩
  · cases hs.symm.trans h

theorem UartUnit.perform_raised {p : Params} {a : UartAct} {u w : UartUnit} {o : CmdOutcome} (h : u.perform p a = .raised o w) :
    ∃ ev, u.Performed w ev ∧ ev.Failed := by
  rcases UartUnit.perform_cases p a u with ⟨v, ev, hd, -⟩ | ⟨-, v, ha, -⟩ | ⟨v, ev, o', hr, hv, hf⟩ | ⟨hs, -⟩
  · cases hd.symm.trans h
  · cases ha.symm.trans h
  · cases hr.symm.trans h
    exact ⟨ev, hv, hf.imp (fun ⟨e, _, he⟩ => ⟨e, he⟩) (fun ⟨t, _, ht, _⟩ => ⟨t, ht⟩)⟩
  · cases hs.symm.trans h

theorem SpiUnit.perform_raised {p : Params} {a : SpiAct} {u w : SpiUnit} {o : CmdOutcome} (h : u.perform p a = .raised o w) :
    ∃ ev, u.Performed w ev ∧ ev.Failed ∧ u.SameFields w ∧ w.rxbuf = u.rxbuf ∧ w.rxvalid = u.rxvalid := by
  rcases SpiUnit.perform_cases p a u with ⟨v, ev, hd, -⟩ | ⟨v, ev, o', hr, hv, hsame, hbuf, hvalid, hf⟩ | ⟨hs, -⟩
  · cases hd.symm.trans h
  · cases hr.symm.trans h
    exact ⟨ev, hv, hf.imp (fun ⟨e, _, he⟩ => ⟨e, he⟩) (fun ⟨t, _, ht, _⟩ => ⟨t, ht⟩), hsame, hbuf, hvalid⟩
  · cases hs.symm.trans h

/-- Settles O43: the outcome was raised by the port event, which failed, and ending the command writes only `SEQ` and transient
registers. -/
theorem errorLeavesState : Obligations.ErrorLeavesState := by
  intro u s t o h ho hout
  rcases unitTurn_cases h with ⟨rfl, v, hv, rfl⟩ | ⟨rfl, v, hv, rfl⟩ | ⟨rfl, v, hv, rfl⟩
  · obtain ⟨a, w, hr, rfl⟩ := I2sUnit.event_error ho hv hout
    obtain ⟨ev, hw, hf⟩ := I2sUnit.perform_raised hr
    exact ⟨rfl, hw.life, hw.mode, rfl, rfl, rfl, rfl, rfl, (hw.showsEvent rfl rfl rfl rfl).failed hf⟩
  · obtain ⟨a, w, hr, rfl⟩ := UartUnit.event_error ho hv hout
    obtain ⟨ev, hw, hf⟩ := UartUnit.perform_raised hr
    exact ⟨rfl, hw.life, rfl, rfl, rfl, rfl, rfl, rfl, (hw.showsEvent rfl rfl).failed hf⟩
  · obtain ⟨a, w, hr, rfl⟩ := SpiUnit.event_error ho hv hout
    obtain ⟨ev, hw, hf, hsame, hbuf, hvalid⟩ := SpiUnit.perform_raised hr
    exact ⟨rfl, hsame.life, rfl, hsame.cpol, hsame.cpha, hsame.bitOrder, hbuf, hvalid, (hw.showsEvent rfl rfl rfl).failed hf⟩

end Sys2Proof.Machine

/-! ## Construction of the SPI unit, and the first wait of a command -/

namespace Sys2Proof.Machine

/-- The drive of a construction, answered `ok`: the unit is constructed and the command over (rule R122). -/
theorem SpiUnit.event_construct {p : Params} {u : SpiUnit} {bo m : BitVec 2} (hseq : u.io.seq = .running (.init bo m) 0)
    (hok : (u.io.drives.next (Config.freeDrive .spi)).1 = .ok) :
    u.event p = .ok (((u.droveSck (cpolOf m)).constructed p bo m).finish .ok) := by
  have hdrive : u.driveSck (cpolOf m) = .done (u.droveSck (cpolOf m)) := by
    simp [SpiUnit.driveSck, UnitIo.tryDrive, UnitIo.drive, UnitIo.record, OutLine.unit, hok, SpiUnit.droveSck, UnitIo.drove,
      dOk, levelAfter]
  rw [SpiUnit.event_running hseq rfl, SpiUnit.perform, hdrive]
  rfl

/-- Settles O32: the command starts at its one drive, and that drive constructs the unit. -/
theorem spiInitResult : Obligations.SpiInitResult := by
  rintro bo mode2 s hbo ⟨hseq, hlife⟩ hok
  refine ⟨_, _, Config.freeByte .spi s.spi.io.fresh, Config.freeByte .spi (s.spi.io.fresh + 1),
    Config.freeCount .spi (s.spi.io.fresh + 1), s.spi.io.fresh + 1 + 1,
    exec_next hbo (Seq.not_isIdle.mpr hseq) hlife (fun ⟨_, h⟩ => nomatch h),
    afterEvent_next.mpr ⟨_, SpiUnit.event_construct rfl hok, rfl⟩, ?_⟩
  simp only [hseq]
  rfl

/-! ### Ticks -/

section
variable {T φ t : Nat} (hφ : φ < T)
include hφ

/-- The next tick is after `t`, at most a period later, and a tick (rule R21). -/
theorem nextTickAfter_spec : t < nextTickAfter T φ t ∧ nextTickAfter T φ t ≤ t + T ∧ ∃ k, nextTickAfter T φ t = φ + k * T := by
  have hlt : (t + T - φ) % T < T := Nat.mod_lt _ (by omega)
  have hdiv := Nat.div_add_mod' (t + T - φ) T
  unfold nextTickAfter
  exact ⟨by omega, by omega, (t + T - φ) / T, by omega⟩

/-- No tick stands between `t` and the next one. -/
theorem nextTickAfter_le {k : Nat} (hk : t < φ + k * T) : nextTickAfter T φ t ≤ φ + k * T := by
  obtain ⟨-, hle, j, hj⟩ := nextTickAfter_spec hφ (t := t)
  rw [hj] at hle ⊢
  have hjk : j < k + 1 := by
    refine Nat.lt_of_mul_lt_mul_right (a := T) ?_
    rw [Nat.add_mul]
    omega
  have := Nat.mul_le_mul_right T (Nat.le_of_lt_succ hjk)
  omega

/-- A tick came after `a` and by `b` exactly when the next one after `a` did. -/
theorem nextTickAfter_le_iff {a b : Nat} : nextTickAfter T φ a ≤ b ↔ ∃ k, a < φ + k * T ∧ φ + k * T ≤ b := by
  constructor
  · intro h
    obtain ⟨hlt, -, k, hk⟩ := nextTickAfter_spec hφ (t := a)
    exact ⟨k, hk ▸ hlt, hk ▸ h⟩
  · rintro ⟨k, hlt, hle⟩
    exact (nextTickAfter_le hφ hlt).trans hle

end

/-- Settles O57: with `NextEdge`, or where no tick is latched, the wait ends at the next tick; otherwise it ends at once. -/
theorem firstWaitBounds : Obligations.FirstWaitBounds := by
  intro latch T φ last now hT hφ hlast
  obtain ⟨hlt, hle, htick⟩ := nextTickAfter_spec hφ (t := now)
  cases latch with
  | nextEdge =>
    simp only [waitReturn]
    exact ⟨hlt.le, hle, by simp [hlt.ne'], fun _ => htick⟩
  | latched =>
    simp only [waitReturn, ← nextTickAfter_le_iff hφ, true_and]
    split
    · rename_i hlatched
      exact ⟨le_rfl, by omega, by simp [hlatched], fun h => absurd h (lt_irrefl _)⟩
    · rename_i hnone
      exact ⟨hlt.le, hle, by simp [hlt.ne', hnone], fun _ => htick⟩

end Sys2Proof.Machine

/-! ## Every step keeps the invariant

Each unit's part of `State.Inv` is kept by the unit's event and set up by the commands that start it (rules R28, R30, R31, R32,
R132). -/

namespace Sys2Proof.Machine

/-! ### Port events that complete -/

section
variable {c σ : Type} {io : UnitIo c} {s : σ}

theorem UnitIo.tryDrive_done {l : OutLine} {v : Bool} {put : UnitIo c → Level → σ} (h : io.tryDrive l v put = .done s) :
    ∃ io' lvl, s = put io' lvl := by
  rcases UnitIo.tryDrive_cases l v put io with ⟨-, hd⟩ | ⟨e, -, hd⟩ <;> cases hd.symm.trans h
  exact ⟨_, _, rfl⟩

theorem UnitIo.tryWait_done {u : UnitId} {p : Params} {put keep : UnitIo c → σ} (h : io.tryWait u p put keep = .done s) :
    ∃ io', s = put io' := by
  rcases UnitIo.tryWait_cases u p put keep io with ⟨-, hd⟩ | ⟨t, -, -, hd⟩ | ⟨-, hd⟩ <;> cases hd.symm.trans h
  exact ⟨_, rfl⟩

theorem UnitIo.trySample_done {l : InLine} {ds : Draws SampleAnswer} {put : UnitIo c → Draws SampleAnswer → σ}
    {use : Bool → σ → EventEnd σ} (h : io.trySample l ds put use = .done s) : ∃ v io' ds', use v (put io' ds') = .done s := by
  rcases UnitIo.trySample_cases l ds put use io with ⟨v, -, hd⟩ | ⟨e, -, hd⟩
  · exact ⟨v, _, _, hd.symm.trans h⟩
  · cases hd.symm.trans h

end

/-! ### The UART unit -/

theorem UartUnit.inv_of_idle {u : UartUnit} (h : u.io.seq = .idle) : u.Inv := by
  simp only [UartUnit.Inv, h]

theorem UartUnit.inv_write {u : UartUnit} {b : Byte} {i : Nat} (h : u.io.seq = .running (.write b) i) :
    u.Inv ↔ u.io.life = .configured ∧ i < 20 ∧ u.bitcnt.toNat = (i - 2) / 2 ∧ u.txsr = b >>> ((i - 2) / 2) := by
  simp only [UartUnit.Inv, h]

theorem UartUnit.inv_read {u : UartUnit} {i : Nat} (h : u.io.seq = .running .read i) :
    u.Inv ↔ u.io.life = .configured ∧ i < 19 ∧ u.bitcnt.toNat = (i - 2) / 2 := by
  simp only [UartUnit.Inv, h]

/-- How many data bits a port event counts (rules R110, R114). -/
def UartAct.counted : UartAct → Nat
  | .shiftTick | .countTick => 1
  | .start | .data | .stop | .poll | .sample | .tick | .openTick => 0

/-- By how much a port event shifts `TXSR` (rule R110). -/
def UartAct.shifted : UartAct → Nat
  | .shiftTick => 1
  | .start | .data | .stop | .poll | .sample | .tick | .openTick | .countTick => 0

section
variable {p : Params} {u w : UartUnit}

theorem UartUnit.driveTx_done {v : Bool} (h : u.driveTx v = .done w) : ∃ io l, w = { u with io := io, lvlTx := l } :=
  UnitIo.tryDrive_done h

theorem UartUnit.wait_done {after : UartUnit → UartUnit} (h : u.wait p after = .done w) : ∃ io, w = after { u with io := io } :=
  UnitIo.tryWait_done h

theorem UartUnit.sampleRx_done {use : Bool → UartUnit → EventEnd UartUnit} (h : u.sampleRx use = .done w) :
    ∃ v io rx, use v { u with io := io, rx := rx } = .done w :=
  UnitIo.trySample_done h

/-- What a completed port event does to `BITCNT` and `TXSR` (rules R31, R110, R114). -/
theorem UartUnit.perform_done_counters {a : UartAct} (h : u.perform p a = .done w) :
    w.bitcnt = u.bitcnt + BitVec.ofNat 4 a.counted ∧ w.txsr = u.txsr >>> a.shifted := by
  have uncounted : u.bitcnt = u.bitcnt + BitVec.ofNat 4 0 := (BitVec.add_zero _).symm
  cases a with
  | start => obtain ⟨io, l, rfl⟩ := UartUnit.driveTx_done h; exact ⟨uncounted, rfl⟩
  | data => obtain ⟨io, l, rfl⟩ := UartUnit.driveTx_done h; exact ⟨uncounted, rfl⟩
  | stop => obtain ⟨io, l, rfl⟩ := UartUnit.driveTx_done h; exact ⟨uncounted, rfl⟩
  | poll =>
    obtain ⟨v, io, rx, hv⟩ := UartUnit.sampleRx_done h
    cases v <;> cases hv
    exact ⟨uncounted, rfl⟩
  | sample =>
    obtain ⟨v, io, rx, hv⟩ := UartUnit.sampleRx_done h
    cases hv
    exact ⟨uncounted, rfl⟩
  | tick => obtain ⟨io, rfl⟩ := UartUnit.wait_done h; exact ⟨uncounted, rfl⟩
  | shiftTick => obtain ⟨io, rfl⟩ := UartUnit.wait_done h; exact ⟨rfl, rfl⟩
  | openTick =>
    obtain ⟨io, rfl⟩ := UartUnit.wait_done (after := fun u => { u with rxacc := 0#8 }) h
    exact ⟨uncounted, rfl⟩
  | countTick =>
    obtain ⟨io, rfl⟩ := UartUnit.wait_done (after := fun u => { u with bitcnt := u.bitcnt + 1#4 }) h
    exact ⟨rfl, rfl⟩

end

/-- A write's port events count and shift as the positions say (rule R110). -/
theorem uartWriteActs_counted : ∀ i < 19, ∀ a ∈ uartWriteActs[i]?,
    (i + 1 - 2) / 2 = (i - 2) / 2 + a.counted ∧ a.shifted = a.counted := by decide

/-- A read's port events count as the positions say (rule R114). -/
theorem uartReadActs_counted : ∀ i < 18, ∀ a ∈ uartReadActs[i]?, (i + 1 - 2) / 2 = (i - 2) / 2 + a.counted := by decide

/-- A 4-bit counter that stays below 16 counts as a number does. -/
theorem toNat_add_ofNat {x : BitVec 4} {m n : Nat} (hx : x.toNat = m) (h : m + n < 16) : (x + BitVec.ofNat 4 n).toNat = m + n := by
  rw [BitVec.toNat_add, BitVec.toNat_ofNat, hx]
  omega

/-- After a completed port event the unit is at the next position or IDLE (rules R31, R32). -/
theorem UartUnit.advance_inv {p : Params} {cmd : UartRun} {i : Nat} {a : UartAct} {u w : UartUnit}
    (hseq : u.io.seq = .running cmd i) (hu : u.Inv) (ha : (uartActs cmd)[i]? = some a) (hd : u.perform p a = .done w) :
    (w.advance cmd i).Inv := by
  obtain ⟨ev, hw⟩ := UartUnit.Performed.of_perform (.inl hd)
  obtain ⟨hcnt, htx⟩ := UartUnit.perform_done_counters hd
  unfold UartUnit.advance
  split
  · rename_i hnext
    cases cmd with
    | write b =>
      obtain ⟨hlife, -, hbits, hbyte⟩ := (UartUnit.inv_write hseq).mp hu
      have hnext : i + 1 < 20 := hnext
      obtain ⟨hpos, hshift⟩ := uartWriteActs_counted i (by omega) a ha
      refine (UartUnit.inv_write (UnitIo.goto_seq _ _ _)).mpr ⟨hw.life.trans hlife, hnext, ?_, ?_⟩
      · rw [hpos, ← toNat_add_ofNat hbits (by omega), hcnt]
      · rw [hpos, BitVec.shiftRight_add, ← hbyte, ← hshift]
        exact htx
    | read =>
      obtain ⟨hlife, -, hbits⟩ := (UartUnit.inv_read hseq).mp hu
      have hnext : i + 1 < 19 := hnext
      have hpos := uartReadActs_counted i (by omega) a ha
      refine (UartUnit.inv_read (UnitIo.goto_seq _ _ _)).mpr ⟨hw.life.trans hlife, hnext, ?_⟩
      rw [hpos, ← toNat_add_ofNat hbits (by omega), hcnt]
  · exact UartUnit.inv_of_idle rfl

theorem UartUnit.event_inv {p : Params} {u v : UartUnit} (hu : u.Inv) (h : u.event p = .ok v) : v.Inv := by
  rcases UartUnit.event_cases h with ⟨-, rfl⟩ | ⟨cmd, i, hseq, ⟨-, rfl⟩ | ⟨a, ha, ⟨w, hd, rfl⟩ | hagain | ⟨o, w, -, rfl⟩⟩⟩
  · exact hu
  · exact UartUnit.inv_of_idle rfl
  · exact UartUnit.advance_inv hseq hu ha hd
  · rcases UartUnit.perform_cases p a u with ⟨w, ev, hd, -⟩ | ⟨-, w, hw, hk, htx, -, hcnt⟩ | ⟨w, ev, o, hr, -⟩ | ⟨hs, -⟩
    · cases hd.symm.trans hagain
    · cases hw.symm.trans hagain
      unfold UartUnit.Inv at hu ⊢
      rwa [hk.seq, hk.life, htx, hcnt]
    · cases hr.symm.trans hagain
    · cases hs.symm.trans hagain
  · exact UartUnit.inv_of_idle rfl

end Sys2Proof.Machine

namespace Sys2Proof.Machine

/-! ### The SPI unit -/

theorem SpiUnit.inv_of_idle {u : SpiUnit} (h : u.io.seq = .idle) : u.Inv ↔ (u.io.life = .unconfigured → u.rxvalid = false) := by
  simp only [SpiUnit.Inv, h, and_true]

theorem SpiUnit.inv_init {u : SpiUnit} {bo m : BitVec 2} {i : Nat} (h : u.io.seq = .running (.init bo m) i) :
    u.Inv ↔ u.io.life = .unconfigured ∧ u.rxvalid = false ∧ boOk bo = true ∧ i = 0 := by
  simp only [SpiUnit.Inv, h]
  constructor
  · rintro ⟨hvalid, hlife, hbo, hi⟩
    exact ⟨hlife, hvalid hlife, hbo, hi⟩
  · rintro ⟨hlife, hvalid, hbo, hi⟩
    exact ⟨fun _ => hvalid, hlife, hbo, hi⟩

theorem SpiUnit.inv_send {u : SpiUnit} {b : Byte} {i : Nat} (h : u.io.seq = .running (.send b) i) :
    u.Inv ↔ u.io.life = .configured ∧ i < 48 ∧ u.bitcnt.toNat = (i + 2) / 6 ∧
      (u.bitcnt = 8#4 → u.rxvalid = true ∧ u.rxbuf = u.rxacc) := by
  simp only [SpiUnit.Inv, h]
  constructor
  · exact fun hu => hu.2
  · rintro ⟨hlife, hrest⟩
    exact ⟨fun hun => (by rw [hlife] at hun; cases hun), hlife, hrest⟩

/-- How many samples a port event takes (rule R131). -/
def SpiAct.sampled : SpiAct → Nat
  | .sample                             => 1
  | .construct _ _ | .mosi _ _ | .sck _ | .tick => 0

/-- Which port events of a send sample does not depend on the byte (rule R133). -/
theorem spiSendActs_sampled (cpol cpha : Bool) (byte : Byte) :
    (spiSendActs cpol cpha byte).map SpiAct.sampled = (spiSendActs false false 0#8).map SpiAct.sampled := by
  cases cpol <;> cases cpha <;> rfl

/-- A send's port events take samples as the positions say, in every mode (rules R126 to R133). -/
theorem spiSendActs_position {cpol cpha : Bool} {byte : Byte} {i : Nat} {a : SpiAct}
    (ha : (spiSendActs cpol cpha byte)[i]? = some a) : (i + 1 + 2) / 6 = (i + 2) / 6 + a.sampled := by
  have hi : i < 48 := by simpa using (List.getElem?_eq_some_iff.mp ha).1
  have hmap : ((spiSendActs false false 0#8).map SpiAct.sampled)[i]? = some a.sampled := by
    rw [← spiSendActs_sampled cpol cpha byte, List.getElem?_map, ha]
    rfl
  have all : ∀ i < 48, ∀ n ∈ ((spiSendActs false false 0#8).map SpiAct.sampled)[i]?, (i + 1 + 2) / 6 = (i + 2) / 6 + n := by
    decide
  exact all i hi _ hmap

/-- What a completed port event of a send does to the received byte: a sample counts and shifts in, and the eighth completes the
byte (rules R131, R132). -/
theorem SpiUnit.perform_done_received {p : Params} {a : SpiAct} {u w : SpiUnit} (hc : ∀ bo m, a ≠ .construct bo m)
    (h : u.perform p a = .done w) :
    w.bitcnt = u.bitcnt + BitVec.ofNat 4 a.sampled ∧
    (w.bitcnt = 8#4 → (a.sampled = 0 → u.rxvalid = true ∧ u.rxbuf = u.rxacc) → w.rxvalid = true ∧ w.rxbuf = w.rxacc) := by
  rcases SpiUnit.perform_cases p a u with
    ⟨v, ev, hd, -, -, -, ⟨bo, m, hbm, -⟩ | ⟨rfl, -, x, l, -, rfl, hacc, hcnt, -, -⟩ |
      ⟨-, hns, -, -, hacc, hcnt, hbuf, hvalid⟩⟩ | ⟨v, ev, o, hr, -⟩ | ⟨hs, -⟩
  · exact absurd hbm (hc bo m)
  · cases hd.symm.trans h
    refine ⟨by rw [SpiUnit.takeBit_bitcnt, hcnt]; rfl, fun h8 _ => ?_⟩
    rw [SpiUnit.takeBit_bitcnt] at h8
    obtain ⟨hbuf, hvalid⟩ := SpiUnit.takeBit_eighth l x h8
    exact ⟨hvalid, by rw [hbuf, SpiUnit.takeBit_rxacc]⟩
  · cases hd.symm.trans h
    have h0 : a.sampled = 0 := by
      cases a with
      | sample => exact absurd rfl hns
      | _ => rfl
    refine ⟨by rw [hcnt, h0]; exact (BitVec.add_zero _).symm, fun _ hu => ?_⟩
    rw [hvalid, hbuf, hacc]
    exact hu h0
  · cases hr.symm.trans h
  · cases hs.symm.trans h

theorem SpiUnit.finish_inv {u : SpiUnit} (h : u.io.life = .unconfigured → u.rxvalid = false) (o : CmdOutcome) :
    (u.finish o).Inv :=
  (SpiUnit.inv_of_idle rfl).mpr h

/-- `RXVALID` is 0 on an UNCONFIGURED unit, whatever it runs (rules R38, R42). -/
theorem SpiUnit.Inv.rxvalid {u : SpiUnit} (h : u.Inv) : u.io.life = .unconfigured → u.rxvalid = false := h.1

/-- After a completed port event of a send the unit is at the next position or IDLE (rules R30, R32). -/
theorem SpiUnit.advance_send_inv {p : Params} {b : Byte} {i : Nat} {a : SpiAct} {u w : SpiUnit}
    (hseq : u.io.seq = .running (.send b) i) (hu : u.Inv) (ha : (spiSendActs u.cpol u.cpha b)[i]? = some a)
    (hd : u.perform p a = .done w) : (w.advance (.send b) i).Inv := by
  have hc := spiSendActs_ne_construct (List.mem_of_getElem? ha)
  obtain ⟨hlife, -, hbits, hbyte⟩ := (SpiUnit.inv_send hseq).mp hu
  obtain ⟨hsame, -⟩ := SpiUnit.perform_done_keeps hc hd
  obtain ⟨hcnt, h8⟩ := SpiUnit.perform_done_received hc hd
  have hpos := spiSendActs_position ha
  have hwlife : w.io.life = .configured := hsame.life.trans hlife
  unfold SpiUnit.advance
  split
  · rename_i hnext
    have hnext : i + 1 < 48 := by simpa [SpiUnit.acts] using hnext
    refine (SpiUnit.inv_send (UnitIo.goto_seq _ _ _)).mpr ⟨hwlife, hnext, ?_, fun hw8 => h8 hw8 fun h0 => hbyte ?_⟩
    · rw [hpos, ← toNat_add_ofNat hbits (by omega), hcnt]
    · have hsum : w.bitcnt = u.bitcnt := by rw [hcnt, h0]; exact BitVec.add_zero _
      exact hsum.symm.trans hw8
  · exact SpiUnit.finish_inv (fun hun => by rw [hwlife] at hun; cases hun) .ok

theorem SpiUnit.event_inv {p : Params} {u v : SpiUnit} (hu : u.Inv) (h : u.event p = .ok v) : v.Inv := by
  rcases SpiUnit.event_cases h with ⟨-, rfl⟩ | ⟨cmd, i, hseq, ⟨-, rfl⟩ | ⟨a, ha, ⟨w, hd, rfl⟩ | hagain | ⟨o, w, hr, rfl⟩⟩⟩
  · exact hu
  · exact SpiUnit.finish_inv hu.rxvalid .ok
  · cases cmd with
    | init bo m =>
      obtain ⟨-, -, -, rfl⟩ := (SpiUnit.inv_init hseq).mp hu
      obtain rfl : .construct bo m = a := by simpa [SpiUnit.acts] using ha
      exact SpiUnit.finish_inv (fun _ => SpiUnit.perform_construct_rxvalid hd) .ok
    | send b => exact SpiUnit.advance_send_inv hseq hu ha hd
  · exact absurd hagain SpiUnit.perform_ne_again
  · have hw := SpiUnit.perform_raised_sameStatus hr
    exact SpiUnit.finish_inv (fun hun => hw.rxvalid.trans (hu.rxvalid (hw.life.symm.trans hun))) o

/-! ### The I2S unit -/

/-- The current pair is one of `N`-bit patterns, and for `I2S.WRITE` the one the sequences have at the frame (rules R46, R95). -/
def I2sUnit.PairLoaded (cmd : I2sRun) (u : I2sUnit) : Prop :=
  u.cur.uL.toNat < 2 ^ widthBits u.cur.n ∧ u.cur.uR.toNat < 2 ^ widthBits u.cur.n ∧
    (cmd = .write → ∃ l r, u.seqL[u.cur.frame]? = some l ∧ u.seqR[u.cur.frame]? = some r ∧
      u.cur.uL = wordPattern u.cur.n l ∧ u.cur.uR = wordPattern u.cur.n r)

/-- The position is in the prologue before any frame, or in the current frame with its pair loaded (rule R32). -/
def I2sUnit.Placed (p : Params) (cmd : I2sRun) (i : Nat) (u : I2sUnit) : Prop :=
  (i < (prologueActs p u.mode).length ∧ u.cur.frame = 0) ∨
    (u.frameStart p ≤ i ∧ i < u.frameStart p + (frameActs p u.mode u.cur.n).length ∧ u.PairLoaded cmd)

/-- What holds at every position of a running command, and where a frame starts (rules R24, R28, R46). -/
structure I2sUnit.Steady (cmd : I2sRun) (u : I2sUnit) : Prop where
  life    : u.io.life = .configured
  offset  : u.cur.bitOffset ≤ widthBits u.cur.n
  lengths : cmd = .write → u.seqL.length = u.seqR.length

theorem I2sUnit.inv_of_idle {p : Params} {u : I2sUnit} (h : u.io.seq = .idle) : u.Inv p := by
  simp only [I2sUnit.Inv, h]

theorem I2sUnit.inv_running {p : Params} {u : I2sUnit} {cmd : I2sRun} {i : Nat} (h : u.io.seq = .running cmd i) :
    u.Inv p ↔ u.Steady cmd ∧ u.Placed p cmd i := by
  simp only [I2sUnit.Inv, h]
  constructor
  · rintro ⟨hlife, hoffset, hlen, hplace⟩
    exact ⟨⟨hlife, hoffset, hlen⟩, hplace⟩
  · rintro ⟨⟨hlife, hoffset, hlen⟩, hplace⟩
    exact ⟨hlife, hoffset, hlen, hplace⟩

/-- A pattern of `N` bits is below `2^N` (rules R11, R87). -/
theorem wordPattern_lt (n : Width) (w : Slot) : (wordPattern n w).toNat < 2 ^ widthBits n := by
  have hmask : (BitVec.ofNat 32 (2 ^ widthBits n - 1)).toNat = 2 ^ widthBits n - 1 := by cases n <;> rfl
  have hpos : 0 < 2 ^ widthBits n := Nat.two_pow_pos _
  rw [wordPattern, BitVec.toNat_and, hmask]
  exact Nat.lt_of_le_of_lt Nat.and_le_right (by omega)

theorem frameActs_length_pos (p : Params) (mode : I2sMode) (n : Width) : 0 < (frameActs p mode n).length :=
  List.length_pos_iff.mpr (frameActs_ne_nil p mode n)

theorem I2sUnit.frameStart_zero {p : Params} {u : I2sUnit} (h : u.cur.frame = 0) :
    u.frameStart p = (prologueActs p u.mode).length := by
  simp [I2sUnit.frameStart, h]

/-- The words of a frame loaded at its first position (rules R28, R32, R87). -/
theorem I2sUnit.load_inv {p : Params} {cmd : I2sRun} {u : I2sUnit} {l r : Slot} (hseq : u.io.seq = .running cmd (u.frameStart p))
    (hu : u.Steady cmd) (hpair : cmd = .write → u.seqL[u.cur.frame]? = some l ∧ u.seqR[u.cur.frame]? = some r) :
    (u.load p l r).Inv p := by
  refine (I2sUnit.inv_running (u := u.load p l r) hseq).mpr
    ⟨⟨hu.life, ?_, hu.lengths⟩, .inr ⟨le_rfl, ?_, wordPattern_lt _ _, wordPattern_lt _ _, ?_⟩⟩
  · rw [I2sUnit.load_cur_bitOffset, I2sUnit.load_cur_n]
    split
    · exact Nat.zero_le _
    · exact hu.offset
  · exact Nat.lt_add_of_pos_right (frameActs_length_pos p u.mode u.cur.n)
  · exact fun hw => ⟨l, r, (hpair hw).1, (hpair hw).2, rfl, rfl⟩

/-- The words of the next frame, `none` where the command is over (rules R46, R48). -/
def I2sUnit.nextPair (cmd : I2sRun) (u : I2sUnit) : Option (Slot × Slot) :=
  match cmd with
  | .write       => u.seqL[u.cur.frame]?.bind fun l => u.seqR[u.cur.frame]?.map fun r => (l, r)
  | .writeStream => (pull .left u.prodL).1.bind fun l => (pull .right u.prodR).1.map fun r => (l, r)

/-- The unit after the pulls of a frame start: `PR` is not pulled where `PL` ended (rules R48, R97). -/
def I2sUnit.pulled (cmd : I2sRun) (u : I2sUnit) : I2sUnit :=
  match cmd with
  | .write       => u
  | .writeStream =>
    { u with
      prodL := (pull .left u.prodL).2
      prodR := if (pull .left u.prodL).1.isSome then (pull .right u.prodR).2 else u.prodR }

/-- A frame start pulls, and loads the next pair or ends the command (rules R46, R95, R97). -/
theorem I2sUnit.startFrame_eq (p : Params) (cmd : I2sRun) (u : I2sUnit) :
    u.startFrame p cmd =
      (u.nextPair cmd).elim ((u.pulled cmd).finish .ok) (fun w => (u.pulled cmd).load p w.1 w.2) := by
  cases cmd with
  | write =>
    simp only [I2sUnit.startFrame, I2sUnit.nextPair, I2sUnit.pulled]
    cases u.seqL[u.cur.frame]? <;> cases u.seqR[u.cur.frame]? <;> rfl
  | writeStream =>
    simp only [I2sUnit.startFrame, I2sUnit.nextPair, I2sUnit.pulled]
    cases (pull .left u.prodL).1 with
    | none => rfl
    | some l => cases (pull .right u.prodR).1 <;> rfl

theorem I2sUnit.nextPair_write {u : I2sUnit} {w : Slot × Slot} (h : u.nextPair .write = some w) :
    u.seqL[u.cur.frame]? = some w.1 ∧ u.seqR[u.cur.frame]? = some w.2 := by
  obtain ⟨l, hl, r, hr, rfl⟩ : ∃ l, u.seqL[u.cur.frame]? = some l ∧ ∃ r, u.seqR[u.cur.frame]? = some r ∧ (l, r) = w := by
    simpa [I2sUnit.nextPair, Option.bind_eq_some_iff] using h
  exact ⟨hl, hr⟩

theorem I2sUnit.startFrame_inv {p : Params} {cmd : I2sRun} {u : I2sUnit} (hseq : u.io.seq = .running cmd (u.frameStart p))
    (hu : u.Steady cmd) : (u.startFrame p cmd).Inv p := by
  rw [I2sUnit.startFrame_eq]
  cases hw : u.nextPair cmd with
  | none => exact I2sUnit.inv_of_idle rfl
  | some w =>
    cases cmd with
    | write => exact I2sUnit.load_inv hseq hu fun _ => I2sUnit.nextPair_write hw
    | writeStream =>
      exact I2sUnit.load_inv (u := u.pulled .writeStream) hseq ⟨hu.life, hu.offset, hu.lengths⟩ nofun

/-- The emissions of a frame are those of words of `N` bits (rule R91). -/
theorem sckLow_mem_emitBits {side : Side} {k1 k2 k : Nat} (h : I2sAct.sckLow k ∈ emitBits side k1 k2) : k ≤ k2 := by
  simp only [emitBits, emitBit, List.mem_flatMap, List.mem_range'_1, List.mem_cons, reduceCtorEq, I2sAct.sckLow.injEq,
    List.not_mem_nil, or_false, false_or] at h
  obtain ⟨j, hj, rfl⟩ := h
  omega

theorem sckLow_mem_frameActs {p : Params} {mode : I2sMode} {n : Width} {k : Nat} (h : I2sAct.sckLow k ∈ frameActs p mode n) :
    k ≤ widthBits n := by
  cases mode with
  | standardI2s =>
    simp only [frameActs, stdFrame, List.mem_append, List.mem_cons, reduceCtorEq, false_or] at h
    rcases h with (h | h) | h | h <;> have := sckLow_mem_emitBits h <;> omega
  | leftJustified =>
    have hws : I2sAct.sckLow k ∉ (if p.ljWsPerFrame then [I2sAct.ws false] else []) := by split <;> simp
    simp only [frameActs, ljFrame, List.mem_append, hws, List.mem_cons, reduceCtorEq, false_or] at h
    rcases h with h | h <;> exact sckLow_mem_emitBits h

theorem I2sUnit.actAt_sckLow {p : Params} {u : I2sUnit} {i k : Nat} (h : u.actAt p i = some (.sckLow k)) :
    k ≤ widthBits u.cur.n := by
  unfold I2sUnit.actAt at h
  split at h
  · have hmem := List.mem_of_getElem? h
    revert hmem
    cases u.mode <;> simp only [prologueActs] <;> split <;> simp
  · exact sckLow_mem_frameActs (List.mem_of_getElem? h)

/-- A completed port event leaves `bit_offset`, or sets it to the emission it ends (rules R28, R89). -/
theorem I2sUnit.perform_done_bitOffset {p : Params} {a : I2sAct} {u w : I2sUnit} (h : u.perform p a = .done w) :
    w.cur.bitOffset = u.cur.bitOffset ∨ a = .sckLow w.cur.bitOffset := by
  cases a <;> simp only [I2sUnit.perform] at h
  case sckLow k => obtain ⟨io, lvl, rfl⟩ := UnitIo.tryDrive_done h; exact .inr rfl
  case tick => obtain ⟨io, rfl⟩ := UnitIo.tryWait_done h; exact .inl rfl
  all_goals obtain ⟨io, lvl, rfl⟩ := UnitIo.tryDrive_done h; exact .inl rfl

theorem I2sUnit.Performed.frameStart {p : Params} {u w : I2sUnit} {ev : Event} (h : u.Performed w ev) :
    w.frameStart p = u.frameStart p := by
  simp only [I2sUnit.frameStart, h.mode, h.n, h.frame]

/-- A completed port event keeps what holds at every position (rule R28). -/
theorem I2sUnit.perform_done_steady {p : Params} {cmd : I2sRun} {i : Nat} {a : I2sAct} {u w : I2sUnit} (hu : u.Steady cmd)
    (ha : u.actAt p i = some a) (hd : u.perform p a = .done w) : w.Steady cmd := by
  obtain ⟨ev, hw⟩ := I2sUnit.Performed.of_perform (.inl hd)
  refine ⟨hw.life.trans hu.life, ?_, fun hc => by rw [hw.seqL, hw.seqR, hu.lengths hc]⟩
  rw [hw.n]
  rcases I2sUnit.perform_done_bitOffset hd with ho | rfl
  · exact ho.trans_le hu.offset
  · exact I2sUnit.actAt_sckLow ha

theorem I2sUnit.Performed.placed {p : Params} {cmd : I2sRun} {i : Nat} {u w : I2sUnit} {ev : Event} (h : u.Performed w ev)
    (hu : u.Placed p cmd i) : w.Placed p cmd i := by
  unfold I2sUnit.Placed I2sUnit.PairLoaded at hu ⊢
  rwa [h.frameStart, h.mode, h.n, h.frame, h.uL, h.uR, h.seqL, h.seqR]

/-- Going on from a position leads to the next one, to the first of a frame, or to the end (rules R32, R95, R97). -/
theorem I2sUnit.advance_inv {p : Params} {cmd : I2sRun} {i : Nat} {u : I2sUnit} (hu : u.Steady cmd) (hp : u.Placed p cmd i) :
    (u.advance p cmd i).Inv p := by
  have hlen := frameActs_length_pos p u.mode u.cur.n
  have hstart : (prologueActs p u.mode).length ≤ u.frameStart p := Nat.le_add_right _ _
  by_cases h1 : i + 1 = (prologueActs p u.mode).length
  · rw [I2sUnit.advance_prologue h1]
    have hframe : u.cur.frame = 0 := by
      rcases hp with ⟨-, hf⟩ | ⟨hge, -⟩
      · exact hf
      · omega
    refine I2sUnit.startFrame_inv ?_ ⟨hu.life, hu.offset, hu.lengths⟩
    exact congrArg (Seq.running cmd) (h1.trans (I2sUnit.frameStart_zero hframe).symm)
  · by_cases h2 : i + 1 = u.frameStart p + (frameActs p u.mode u.cur.n).length
    · rw [I2sUnit.advance_frame h1 h2]
      refine I2sUnit.startFrame_inv ?_ ⟨hu.life, hu.offset, hu.lengths⟩
      refine congrArg (Seq.running cmd) (h2.trans ?_)
      simp only [I2sUnit.frameStart, Nat.add_mul, Nat.one_mul, Nat.add_assoc]
    · rw [I2sUnit.advance_next h1 h2]
      refine (I2sUnit.inv_running rfl).mpr ⟨⟨hu.life, ?_, hu.lengths⟩, ?_⟩
      · rw [I2sUnit.enterWord_cur_bitOffset, I2sUnit.enterWord_cur_n]
        split
        · exact Nat.zero_le _
        · exact hu.offset
      · rcases hp with ⟨hlt, hf⟩ | ⟨hge, hlt, hpair⟩
        · exact .inl ⟨by simp only [I2sUnit.enterWord_mode]; omega, hf⟩
        · refine .inr ⟨hge.trans (Nat.le_succ i), ?_, hpair⟩
          show i + 1 < u.frameStart p + (frameActs p u.mode u.cur.n).length
          omega

theorem I2sUnit.event_inv {p : Params} {u v : I2sUnit} (hu : u.Inv p) (h : u.event p = .ok v) : v.Inv p := by
  rcases I2sUnit.event_cases h with ⟨-, rfl⟩ | ⟨cmd, i, hseq, ⟨-, rfl⟩ | ⟨a, ha, ⟨w, hd, rfl⟩ | hagain | ⟨o, w, -, rfl⟩⟩⟩
  · exact hu
  · exact I2sUnit.inv_of_idle rfl
  · obtain ⟨hsteady, hplaced⟩ := (I2sUnit.inv_running hseq).mp hu
    obtain ⟨ev, hw⟩ := I2sUnit.Performed.of_perform (.inl hd)
    exact I2sUnit.advance_inv (I2sUnit.perform_done_steady hsteady ha hd) (hw.placed hplaced)
  · exact absurd hagain I2sUnit.perform_ne_again
  · exact I2sUnit.inv_of_idle rfl

/-- A transfer starts in the prologue or at the first frame (rules R95, R96, R97). -/
theorem I2sUnit.begin_inv {p : Params} {cmd : I2sRun} (n : Width) {u : I2sUnit} (hlife : u.io.life = .configured)
    (hlen : cmd = .write → u.seqL.length = u.seqR.length) : (u.begin p cmd n).Inv p := by
  have hoffset : Config.freeOffset u.io.fresh % (widthBits n + 1) ≤ widthBits n :=
    Nat.le_of_lt_succ (Nat.mod_lt _ (Nat.succ_pos _))
  by_cases hp : (prologueActs p u.mode).length = 0
  · rw [I2sUnit.begin_frame hp]
    refine I2sUnit.startFrame_inv ?_ ⟨hlife, hoffset, hlen⟩
    exact congrArg (Seq.running cmd) ((I2sUnit.frameStart_zero (u := u.opened cmd n) rfl).trans hp).symm
  · rw [I2sUnit.begin_prologue hp]
    exact (I2sUnit.inv_running rfl).mpr ⟨⟨hlife, hoffset, hlen⟩, .inl ⟨Nat.pos_of_ne_zero hp, rfl⟩⟩

theorem I2sUnit.transfer_inv {p : Params} {cmd : I2sRun} (wid : BitVec 2) {u : I2sUnit} (hu : u.Inv p)
    (hlife : u.io.life = .configured) (hlen : cmd = .write → u.seqL.length = u.seqR.length) :
    (u.transfer p cmd wid).Inv p := by
  rcases I2sUnit.transfer_cases p cmd wid u with h | ⟨n, h⟩ <;> rw [h]
  · exact hu
  · exact I2sUnit.begin_inv n hlife hlen

/-! ### Every step -/

theorem unitTurn_inv {u : UnitId} {s t : State} (hs : s.Inv) (h : unitTurn u s = .next t) : t.Inv := by
  obtain ⟨hi2s, huart, hspi⟩ := hs
  rcases unitTurn_cases h with ⟨rfl, x, hx, rfl⟩ | ⟨rfl, x, hx, rfl⟩ | ⟨rfl, x, hx, rfl⟩
  · exact ⟨I2sUnit.event_inv hi2s hx, huart, hspi⟩
  · exact ⟨hi2s, UartUnit.event_inv huart hx, hspi⟩
  · exact ⟨hi2s, huart, SpiUnit.event_inv hspi hx⟩

/-- The operands reach an IDLE unit, of whose registers the invariant says nothing. -/
theorem State.handOver_inv {i : Instr} (c : HostCmd) {s : State} (hs : s.Inv) (hidle : s.busy i.unit = false) :
    (s.handOver i c).Inv := by
  obtain ⟨hi2s, huart, hspi⟩ := hs
  cases i with
  | i2sWrite wid => exact ⟨I2sUnit.inv_of_idle (Seq.not_isIdle.mp hidle), huart, hspi⟩
  | i2sWriteStream wid => exact ⟨I2sUnit.inv_of_idle (Seq.not_isIdle.mp hidle), huart, hspi⟩
  | _ => exact ⟨hi2s, huart, hspi⟩

/-- An admitted command starts at its first position with its registers set, or leaves its unit IDLE. -/
theorem execEffect_inv {i : Instr} {s : State} (hs : s.Inv) (hr : execRefusal i s = none) : (execEffect i s).Inv := by
  obtain ⟨hi2s, huart, hspi⟩ := hs
  obtain ⟨hwf, -, hlife, hlen⟩ := execRefusal_none.mp hr
  cases i with
  | i2sInit mode => exact ⟨I2sUnit.inv_of_idle rfl, huart, hspi⟩
  | i2sRelease => exact ⟨I2sUnit.inv_of_idle rfl, huart, hspi⟩
  | i2sWrite wid => exact ⟨I2sUnit.transfer_inv wid hi2s hlife (fun _ => hlen ⟨wid, rfl⟩), huart, hspi⟩
  | i2sWriteStream wid => exact ⟨I2sUnit.transfer_inv wid hi2s hlife nofun, huart, hspi⟩
  | uartInit => exact ⟨hi2s, UartUnit.inv_of_idle rfl, hspi⟩
  | uartRelease => exact ⟨hi2s, UartUnit.inv_of_idle rfl, hspi⟩
  | uartWrite byte =>
    exact ⟨hi2s, (UartUnit.inv_write (b := byte) (i := 0) rfl).mpr ⟨hlife, by decide, rfl, (BitVec.ushiftRight_zero byte).symm⟩, hspi⟩
  | uartRead => exact ⟨hi2s, (UartUnit.inv_read rfl).mpr ⟨hlife, by decide, rfl⟩, hspi⟩
  | spiInit bo mode2 => exact ⟨hi2s, huart, (SpiUnit.inv_init rfl).mpr ⟨hlife, hspi.rxvalid hlife, hwf, rfl⟩⟩
  | spiSend byte => exact ⟨hi2s, huart, (SpiUnit.inv_send rfl).mpr ⟨hlife, by decide, rfl, fun h => by cases h⟩⟩
  | spiRead => exact ⟨hi2s, huart, (SpiUnit.inv_of_idle rfl).mpr hspi.rxvalid⟩
  | spiSetBitOrder bo1 => exact ⟨hi2s, huart, (SpiUnit.inv_of_idle rfl).mpr hspi.rxvalid⟩
  | spiRelease => exact ⟨hi2s, huart, (SpiUnit.inv_of_idle rfl).mpr fun _ => rfl⟩

/-- Settles O51: each unit's event keeps its part, and a command sets up the part of its unit. -/
theorem stepKeepsInv : Obligations.StepKeepsInv := by
  intro s t hs h
  rcases step_next_cases h with rfl | ⟨u, hu⟩ | ⟨i, c, cs, hidle, hr, rfl⟩
  · exact hs
  · exact unitTurn_inv (s := s.tookTurn) hs hu
  · refine execEffect_inv (State.handOver_inv c ?_ ?_) hr
    · exact hs
    · rw [← hidle]; cases i.unit <;> rfl

end Sys2Proof.Machine

/-! ## What no rule reads: line levels

Two runs side by side: a relation between units that every event keeps is one that every step keeps. -/

namespace Sys2Proof.Machine

/-! ### Related outcomes -/

section
variable {c σ : Type}

/-- Two ends of a port event of the same kind: `D` relates the states of a completed event, `E` those of one that is made again
or raises an error. -/
inductive EventEnd.Related (D E : σ → σ → Prop) : EventEnd σ → EventEnd σ → Prop where
  | done {s t : σ} (h : D s t) : Related D E (.done s) (.done t)
  | again {s t : σ} (h : E s t) : Related D E (.again s) (.again t)
  | raised (o : CmdOutcome) {s t : σ} (h : E s t) : Related D E (.raised o s) (.raised o t)
  | stuck (f : Fault) : Related D E (.stuck f) (.stuck f)

/-- Two results of a unit's event of the same kind. -/
inductive EventRelated (R : σ → σ → Prop) : Except Fault σ → Except Fault σ → Prop where
  | ok {s t : σ} (h : R s t) : EventRelated R (.ok s) (.ok t)
  | error (f : Fault) : EventRelated R (.error f) (.error f)

/-- Two outcomes of a step of the same kind. -/
inductive OutcomeRelated (R : State → State → Prop) :
    Host.Outcome State Fault Refusal → Host.Outcome State Fault Refusal → Prop where
  | next {s t : State} (h : R s t) : OutcomeRelated R (.next s) (.next t)
  | fault (f : Fault) : OutcomeRelated R (.fault f) (.fault f)
  | refused (r : Refusal) : OutcomeRelated R (.refused r) (.refused r)

/-- Related outcomes, read from the first. -/
theorem OutcomeRelated.same_kind {R : State → State → Prop} {a b : Host.Outcome State Fault Refusal} (h : OutcomeRelated R a b) :
    (∀ s, a = .next s → ∃ t, b = .next t ∧ R s t) ∧ (∀ f, a = .fault f → b = .fault f) ∧
    (∀ r, a = .refused r → b = .refused r) := by
  cases h with
  | next h => exact ⟨fun s hs => ⟨_, rfl, by cases hs; exact h⟩, fun _ hf => (nomatch hf), fun _ hr => (nomatch hr)⟩
  | fault f => exact ⟨fun _ hs => (nomatch hs), fun _ hf => hf, fun _ hr => (nomatch hr)⟩
  | refused r => exact ⟨fun _ hs => (nomatch hs), fun _ hf => (nomatch hf), fun _ hr => hr⟩

variable {D E R : σ → σ → Prop}

theorem UnitIo.tryDrive_related {l : OutLine} {v : Bool} {put put' : UnitIo c → Level → σ} {io : UnitIo c}
    (hD : ∀ io lvl, D (put io lvl) (put' io lvl)) (hE : ∀ io lvl, E (put io lvl) (put' io lvl)) :
    (io.tryDrive l v put).Related D E (io.tryDrive l v put') := by
  unfold UnitIo.tryDrive
  dsimp only
  cases (io.drive l v).1 with
  | ok => exact .done (hD _ _)
  | err e => exact .raised _ (hE _ _)

theorem UnitIo.tryWait_related {u : UnitId} {p : Params} {put put' keep keep' : UnitIo c → σ} {io : UnitIo c}
    (hD : ∀ io, D (put io) (put' io)) (hE : ∀ io, E (keep io) (keep' io)) :
    (io.tryWait u p put keep).Related D E (io.tryWait u p put' keep') := by
  unfold UnitIo.tryWait
  dsimp only
  cases (io.ticks.next (freeTick u)).1 with
  | ok => exact .done (hD _)
  | err t =>
    cases tickFatal p u with
    | true => exact .raised _ (hE _)
    | false => exact .done (hD _)
  | never => exact .stuck _

theorem UnitIo.trySample_related {l : InLine} {ds : Draws SampleAnswer} {put put' : UnitIo c → Draws SampleAnswer → σ}
    {use use' : Bool → σ → EventEnd σ} {io : UnitIo c}
    (huse : ∀ v io ds, (use v (put io ds)).Related D E (use' v (put' io ds))) (hE : ∀ io ds, E (put io ds) (put' io ds)) :
    (io.trySample l ds put use).Related D E (io.trySample l ds put' use') := by
  unfold UnitIo.trySample
  dsimp only
  cases (io.sample l ds).1 with
  | level v => exact huse v _ _
  | err e => exact .raised _ (hE _ _)

theorem EventEnd.Related.andThen {D' : σ → σ → Prop} {f : σ → σ} {a b : EventEnd σ} (h : a.Related D E b)
    (hf : ∀ s t, D s t → D' (f s) (f t)) : (a.andThen f).Related D' E (b.andThen f) := by
  cases h with
  | done h => exact .done (hf _ _ h)
  | again h => exact .again h
  | raised o h => exact .raised o h
  | stuck f => exact .stuck f

/-- Related ends of a port event settle to related units. -/
theorem EventEnd.Related.settle {a b : EventEnd σ} {adv adv' : σ → σ} {fin : CmdOutcome → σ → σ} (h : a.Related D E b)
    (hadv : ∀ s t, a = .done s → D s t → R (adv s) (adv' t)) (hagain : ∀ s t, a = .again s → E s t → R s t)
    (hfin : ∀ o s t, a = .raised o s → E s t → R (fin o s) (fin o t)) : EventRelated R (a.settle adv fin) (b.settle adv' fin) := by
  cases h with
  | done h => exact .ok (hadv _ _ rfl h)
  | again h => exact .ok (hagain _ _ rfl h)
  | raised o h => exact .ok (hfin o _ _ rfl h)
  | stuck f => exact .error f

theorem EventRelated.of_eq {a b : Except Fault σ} (h : b = a) (hR : ∀ s, R s s) : EventRelated R a b := by
  subst h
  cases b with
  | ok s => exact .ok (hR s)
  | error f => exact .error f

theorem EventRelated.mono {R' : σ → σ → Prop} {a b : Except Fault σ} (h : EventRelated R a b) (hR : ∀ s t, R s t → R' s t) :
    EventRelated R' a b := by
  cases h with
  | ok h => exact .ok (hR _ _ h)
  | error f => exact .error f

theorem EventRelated.afterEvent {Q : State → State → Prop} {put put' : σ → State} {a b : Except Fault σ}
    (h : EventRelated R a b) (hput : ∀ x y, R x y → Q (put x) (put' y)) :
    OutcomeRelated Q (afterEvent put a) (afterEvent put' b) := by
  cases h with
  | ok h => exact .next (hput _ _ h)
  | error f => exact .fault f

end

/-! ### Related steps -/

/-- What the schedule, the host and the refusal checks read of a state. -/
structure State.SameControl (s t : State) : Prop where
  i2s   : t.i2s.io = s.i2s.io
  uart  : t.uart.io = s.uart.io
  spi   : t.spi.io = s.spi.io
  seqL  : t.i2s.seqL = s.i2s.seqL
  seqR  : t.i2s.seqR = s.i2s.seqR
  host  : t.host = s.host
  sched : t.sched = s.sched

theorem State.SameControl.busy {s t : State} (h : s.SameControl t) (u : UnitId) : t.busy u = s.busy u := by
  cases u with
  | i2s => rw [State.busy, State.busy, h.i2s]
  | uart => rw [State.busy, State.busy, h.uart]
  | spi => rw [State.busy, State.busy, h.spi]

theorem State.SameControl.mover {s t : State} (h : s.SameControl t) (x : Turn) : t.mover x = s.mover x := by
  cases x <;> simp only [State.mover, h.busy]

theorem State.SameControl.execRefusal {s t : State} (h : s.SameControl t) (i : Instr) : execRefusal i t = execRefusal i s := by
  have hunit (init : Bool) (u : UnitId) : t.unitRefusal init u = s.unitRefusal init u := by
    cases u with
    | i2s => rw [State.unitRefusal, State.unitRefusal, h.i2s]
    | uart => rw [State.unitRefusal, State.unitRefusal, h.uart]
    | spi => rw [State.unitRefusal, State.unitRefusal, h.spi]
  have hlen : t.i2s.lengthRefusal = s.i2s.lengthRefusal := by
    rw [I2sUnit.lengthRefusal, I2sUnit.lengthRefusal, h.seqL, h.seqR]
  simp only [Machine.execRefusal, hunit, hlen]

theorem State.SameControl.exec {R : State → State → Prop} {s t : State} (h : s.SameControl t) {i : Instr}
    (heffect : Machine.execRefusal i s = none → R (execEffect i s) (execEffect i t)) :
    OutcomeRelated R (exec i s) (exec i t) := by
  rw [exec_eq, exec_eq, h.execRefusal]
  cases hr : Machine.execRefusal i s with
  | none => exact .next (heffect hr)
  | some r => exact .refused r

/-- States with the same control step alike, where each unit's turn and each command on an IDLE unit does. -/
theorem State.SameControl.step {R : State → State → Prop} {s t : State} (h : s.SameControl t) (hR : R s.tookTurn t.tookTurn)
    (hturn : ∀ u, OutcomeRelated R (unitTurn u s.tookTurn) (unitTurn u t.tookTurn))
    (hexec : ∀ i c cs, s.busy i.unit = false →
      OutcomeRelated R (Machine.exec i (State.handOver i c { s.tookTurn with host := cs }))
        (Machine.exec i (State.handOver i c { t.tookTurn with host := cs }))) :
    OutcomeRelated R (Machine.step s) (Machine.step t) := by
  have hmover := h.mover (s.sched.next Config.freeTurn).1
  cases hm : s.mover (s.sched.next Config.freeTurn).1 with
  | some u =>
    rw [step_unit hm, step_unit (s := t) (u := u) (by rw [h.sched, hmover, hm])]
    exact hturn u
  | none =>
    rw [step_host hm, step_host (s := t) (by rw [h.sched, hmover, hm])]
    cases hh : s.host with
    | nil =>
      have hs : hostTurn s.tookTurn = .next s.tookTurn := by unfold hostTurn; rw [State.tookTurn_host, hh]
      have ht : hostTurn t.tookTurn = .next t.tookTurn := by unfold hostTurn; rw [State.tookTurn_host, h.host, hh]
      rw [hs, ht]
      exact .next hR
    | cons c cs =>
      have hh' : t.host = c :: cs := h.host.trans hh
      cases hd : decode c.word with
      | error e =>
        rw [hostTurn_reserved (s := s.tookTurn) hh hd, hostTurn_reserved (s := t.tookTurn) hh' hd]
        exact .refused _
      | ok i =>
        rw [hostTurn_cons (s := s.tookTurn) hh hd, hostTurn_cons (s := t.tookTurn) hh' hd, State.tookTurn_busy,
          State.tookTurn_busy, h.busy]
        cases hb : s.busy i.unit with
        | true => exact .next hR
        | false => exact hexec i c cs hb

/-! ### A command past its events -/

theorem I2sUnit.event_over {p : Params} {u : I2sUnit} {cmd : I2sRun} {i : Nat} (hs : u.io.seq = .running cmd i)
    (ha : u.actAt p i = none) : u.event p = .ok (u.finish .ok) := by
  simp only [I2sUnit.event, hs, ha]

theorem UartUnit.event_over {p : Params} {u : UartUnit} {cmd : UartRun} {i : Nat} (hs : u.io.seq = .running cmd i)
    (ha : (uartActs cmd)[i]? = none) : u.event p = .ok (u.finish (u.outcome cmd)) := by
  simp only [UartUnit.event, hs, ha]

theorem SpiUnit.event_over {p : Params} {u : SpiUnit} {cmd : SpiRun} {i : Nat} (hs : u.io.seq = .running cmd i)
    (ha : (u.acts cmd)[i]? = none) : u.event p = .ok (u.finish .ok) := by
  simp only [SpiUnit.event, hs, ha]

/-! ### Levels -/

/-- The I2S unit with other levels. -/
def I2sUnit.relevel (sck sd ws : Level) (u : I2sUnit) : I2sUnit := { u with lvlSck := sck, lvlSd := sd, lvlWs := ws }

/-- The SPI unit with other levels. -/
def SpiUnit.relevel (sck mosi : Level) (u : SpiUnit) : SpiUnit := { u with lvlSck := sck, lvlMosi := mosi }

/-- The UART unit with another level. -/
def UartUnit.relevel (tx : Level) (u : UartUnit) : UartUnit := { u with lvlTx := tx }

/-- The same I2S unit but for its levels. -/
def I2sUnit.Relevelled (u v : I2sUnit) : Prop := ∃ sck sd ws, v = u.relevel sck sd ws

/-- The same UART unit but for its level. -/
def UartUnit.Relevelled (u v : UartUnit) : Prop := ∃ tx, v = u.relevel tx

/-- The same SPI unit but for its levels. -/
def SpiUnit.Relevelled (u v : SpiUnit) : Prop := ∃ sck mosi, v = u.relevel sck mosi

section
variable {p : Params} {sck sd ws tx mosi : Level}

theorem I2sUnit.startFrame_relevel (cmd : I2sRun) (u : I2sUnit) :
    (u.relevel sck sd ws).startFrame p cmd = (u.startFrame p cmd).relevel sck sd ws := by
  have hpair : (u.relevel sck sd ws).nextPair cmd = u.nextPair cmd := by cases cmd <;> rfl
  rw [I2sUnit.startFrame_eq, I2sUnit.startFrame_eq, hpair]
  cases u.nextPair cmd <;> cases cmd <;> rfl

theorem I2sUnit.advance_relevel (cmd : I2sRun) (i : Nat) (u : I2sUnit) :
    (u.relevel sck sd ws).advance p cmd i = (u.advance p cmd i).relevel sck sd ws := by
  by_cases h1 : i + 1 = (prologueActs p u.mode).length
  · rw [I2sUnit.advance_prologue (u := u.relevel sck sd ws) h1, I2sUnit.advance_prologue h1]
    exact I2sUnit.startFrame_relevel cmd { u with io := u.io.goto cmd (i + 1) }
  · by_cases h2 : i + 1 = u.frameStart p + (frameActs p u.mode u.cur.n).length
    · rw [I2sUnit.advance_frame (u := u.relevel sck sd ws) h1 h2, I2sUnit.advance_frame h1 h2]
      exact I2sUnit.startFrame_relevel cmd
        { u with io := u.io.goto cmd (i + 1), cur := { u.cur with frame := u.cur.frame + 1 } }
    · rw [I2sUnit.advance_next (u := u.relevel sck sd ws) h1 h2, I2sUnit.advance_next h1 h2]
      rfl

theorem I2sUnit.transfer_relevel (cmd : I2sRun) (wid : BitVec 2) (u : I2sUnit) :
    (u.relevel sck sd ws).transfer p cmd wid = (u.transfer p cmd wid).relevel sck sd ws := by
  unfold I2sUnit.transfer
  cases widthOf wid with
  | none => rfl
  | some n =>
    simp only [Option.elim]
    by_cases hp : (prologueActs p u.mode).length = 0
    · rw [I2sUnit.begin_frame (u := u.relevel sck sd ws) hp, I2sUnit.begin_frame hp]
      exact I2sUnit.startFrame_relevel cmd (u.opened cmd n)
    · rw [I2sUnit.begin_prologue (u := u.relevel sck sd ws) hp, I2sUnit.begin_prologue hp]
      rfl

theorem I2sUnit.perform_relevel (a : I2sAct) (u : I2sUnit) :
    (u.perform p a).Related I2sUnit.Relevelled I2sUnit.Relevelled ((u.relevel sck sd ws).perform p a) := by
  cases a <;> simp only [I2sUnit.perform]
  case tick => exact UnitIo.tryWait_related (fun _ => ⟨_, _, _, rfl⟩) (fun _ => ⟨_, _, _, rfl⟩)
  all_goals exact UnitIo.tryDrive_related (fun _ _ => ⟨_, _, _, rfl⟩) (fun _ _ => ⟨_, _, _, rfl⟩)

theorem UartUnit.perform_relevel (a : UartAct) (u : UartUnit) :
    (u.perform p a).Related UartUnit.Relevelled UartUnit.Relevelled ((u.relevel tx).perform p a) := by
  have sampled {use : Bool → UartUnit → EventEnd UartUnit} (h : ∀ v w l,
      (use v w).Related UartUnit.Relevelled UartUnit.Relevelled (use v (w.relevel l))) :
      (u.sampleRx use).Related UartUnit.Relevelled UartUnit.Relevelled ((u.relevel tx).sampleRx use) :=
    UnitIo.trySample_related (fun v _ _ => h v _ tx) (fun _ _ => ⟨_, rfl⟩)
  have driven (v : Bool) : (u.driveTx v).Related UartUnit.Relevelled UartUnit.Relevelled ((u.relevel tx).driveTx v) :=
    UnitIo.tryDrive_related (fun _ _ => ⟨_, rfl⟩) (fun _ _ => ⟨_, rfl⟩)
  have waited {after : UartUnit → UartUnit} (h : ∀ w l, after (w.relevel l) = (after w).relevel l) :
      (u.wait p after).Related UartUnit.Relevelled UartUnit.Relevelled ((u.relevel tx).wait p after) :=
    UnitIo.tryWait_related (fun io => ⟨tx, h { u with io := io } tx⟩) (fun _ => ⟨_, rfl⟩)
  cases a with
  | start => exact driven _
  | data => exact driven _
  | stop => exact driven _
  | poll =>
    refine sampled fun v w l => ?_
    cases v with
    | true => exact .again ⟨_, rfl⟩
    | false => exact .done ⟨_, rfl⟩
  | sample => exact sampled fun v w l => .done ⟨l, rfl⟩
  | tick => exact waited fun _ _ => rfl
  | shiftTick => exact waited fun _ _ => rfl
  | openTick => exact waited (after := fun u => { u with rxacc := 0#8 }) fun _ _ => rfl
  | countTick => exact waited (after := fun u => { u with bitcnt := u.bitcnt + 1#4 }) fun _ _ => rfl

theorem SpiUnit.takeBit_relevel (s : Bool) (u : SpiUnit) :
    (u.relevel sck mosi).takeBit s = (u.takeBit s).relevel sck mosi := by
  unfold SpiUnit.takeBit
  dsimp only [SpiUnit.relevel]
  split <;> rfl

theorem SpiUnit.perform_relevel (a : SpiAct) (u : SpiUnit) :
    (u.perform p a).Related SpiUnit.Relevelled SpiUnit.Relevelled ((u.relevel sck mosi).perform p a) := by
  cases a <;> simp only [SpiUnit.perform, SpiUnit.driveSck, SpiUnit.driveMosi]
  case construct bo m =>
    refine EventEnd.Related.andThen (D := SpiUnit.Relevelled)
      (UnitIo.tryDrive_related (fun _ _ => ⟨_, _, rfl⟩) (fun _ _ => ⟨_, _, rfl⟩)) ?_
    rintro w x ⟨k, l, rfl⟩
    exact ⟨k, l, rfl⟩
  case mosi byte i => exact UnitIo.tryDrive_related (fun _ _ => ⟨_, _, rfl⟩) (fun _ _ => ⟨_, _, rfl⟩)
  case sck v => exact UnitIo.tryDrive_related (fun _ _ => ⟨_, _, rfl⟩) (fun _ _ => ⟨_, _, rfl⟩)
  case tick => exact UnitIo.tryWait_related (fun _ => ⟨_, _, rfl⟩) (fun _ => ⟨_, _, rfl⟩)
  case sample =>
    exact UnitIo.trySample_related
      (fun v io ds => .done ⟨sck, mosi, SpiUnit.takeBit_relevel v { u with io := io, miso := ds }⟩) (fun _ _ => ⟨_, _, rfl⟩)

/-- An I2S event does the same at other levels (rules R26, R106). -/
theorem I2sUnit.event_relevel (u : I2sUnit) :
    EventRelated I2sUnit.Relevelled (u.event p) ((u.relevel sck sd ws).event p) := by
  cases hs : u.io.seq with
  | idle =>
    rw [I2sUnit.event_idle hs, I2sUnit.event_idle (u := u.relevel sck sd ws) hs]
    exact .ok ⟨_, _, _, rfl⟩
  | running cmd i =>
    cases ha : u.actAt p i with
    | none =>
      rw [I2sUnit.event_over hs ha, I2sUnit.event_over (u := u.relevel sck sd ws) hs ha]
      exact .ok ⟨_, _, _, rfl⟩
    | some a =>
      rw [I2sUnit.event_running hs ha, I2sUnit.event_running (u := u.relevel sck sd ws) hs ha]
      refine (I2sUnit.perform_relevel a u).settle ?_ (fun _ _ h _ => absurd h I2sUnit.perform_ne_again) ?_
      · rintro w x - ⟨k, l, m, rfl⟩
        exact ⟨k, l, m, I2sUnit.advance_relevel cmd i w⟩
      · rintro o w x - ⟨k, l, m, rfl⟩
        exact ⟨k, l, m, rfl⟩

/-- A UART event does the same at another level (rule R26). -/
theorem UartUnit.event_relevel (u : UartUnit) : EventRelated UartUnit.Relevelled (u.event p) ((u.relevel tx).event p) := by
  cases hs : u.io.seq with
  | idle =>
    rw [UartUnit.event_idle hs, UartUnit.event_idle (u := u.relevel tx) hs]
    exact .ok ⟨_, rfl⟩
  | running cmd i =>
    have hout (w : UartUnit) (l : Level) : (w.relevel l).outcome cmd = w.outcome cmd := by cases cmd <;> rfl
    cases ha : (uartActs cmd)[i]? with
    | none =>
      rw [UartUnit.event_over hs ha, UartUnit.event_over (u := u.relevel tx) hs ha, hout]
      exact .ok ⟨_, rfl⟩
    | some a =>
      rw [UartUnit.event_running hs ha, UartUnit.event_running (u := u.relevel tx) hs ha]
      refine (UartUnit.perform_relevel a u).settle ?_ (fun _ _ _ h => h) ?_
      · rintro w x - ⟨l, rfl⟩
        unfold UartUnit.advance
        rw [hout]
        split <;> exact ⟨l, rfl⟩
      · rintro o w x - ⟨l, rfl⟩
        exact ⟨l, rfl⟩

/-- An SPI event does the same at other levels (rule R26). -/
theorem SpiUnit.event_relevel (u : SpiUnit) :
    EventRelated SpiUnit.Relevelled (u.event p) ((u.relevel sck mosi).event p) := by
  cases hs : u.io.seq with
  | idle =>
    rw [SpiUnit.event_idle hs, SpiUnit.event_idle (u := u.relevel sck mosi) hs]
    exact .ok ⟨_, _, rfl⟩
  | running cmd i =>
    have hacts (w : SpiUnit) (k l : Level) : (w.relevel k l).acts cmd = w.acts cmd := by cases cmd <;> rfl
    cases ha : (u.acts cmd)[i]? with
    | none =>
      rw [SpiUnit.event_over hs ha, SpiUnit.event_over (u := u.relevel sck mosi) hs (by rw [hacts, ha])]
      exact .ok ⟨_, _, rfl⟩
    | some a =>
      rw [SpiUnit.event_running hs ha, SpiUnit.event_running (u := u.relevel sck mosi) hs (by rw [hacts, ha])]
      refine (SpiUnit.perform_relevel a u).settle ?_ (fun _ _ h _ => absurd h SpiUnit.perform_ne_again) ?_
      · rintro w x - ⟨k, l, rfl⟩
        unfold SpiUnit.advance
        rw [hacts]
        split <;> exact ⟨k, l, rfl⟩
      · rintro o w x - ⟨k, l, rfl⟩
        exact ⟨k, l, rfl⟩

end

/-- The same state but for its levels. -/
def State.Relevelled (s t : State) : Prop := ∃ f, t = s.relevel f

theorem unitTurn_relevel (u : UnitId) (s : State) (f : OutLine → Level) :
    OutcomeRelated State.Relevelled (unitTurn u s) (unitTurn u (s.relevel f)) := by
  cases u with
  | i2s =>
    refine (I2sUnit.event_relevel s.i2s).afterEvent ?_
    rintro x y ⟨sck, sd, ws, rfl⟩
    exact ⟨fun | .i2sSck => sck | .i2sSd => sd | .i2sWs => ws | l => f l, rfl⟩
  | uart =>
    refine (UartUnit.event_relevel s.uart).afterEvent ?_
    rintro x y ⟨tx, rfl⟩
    exact ⟨fun | .uartTx => tx | l => f l, rfl⟩
  | spi =>
    refine (SpiUnit.event_relevel s.spi).afterEvent ?_
    rintro x y ⟨sck, mosi, rfl⟩
    exact ⟨fun | .spiSck => sck | .spiMosi => mosi | l => f l, rfl⟩

theorem execEffect_relevel (i : Instr) (s : State) (f : OutLine → Level) :
    execEffect i (s.relevel f) = (execEffect i s).relevel f := by
  have transfer (cmd : I2sRun) (wid : BitVec 2) :=
    I2sUnit.transfer_relevel (p := s.params) (sck := f .i2sSck) (sd := f .i2sSd) (ws := f .i2sWs) cmd wid s.i2s
  cases i with
  | i2sWrite wid => exact congrArg (fun x => { s.relevel f with i2s := x }) (transfer .write wid)
  | i2sWriteStream wid => exact congrArg (fun x => { s.relevel f with i2s := x }) (transfer .writeStream wid)
  | _ => rfl

theorem State.relevel_sameControl (f : OutLine → Level) (s : State) : s.SameControl (s.relevel f) :=
  ⟨rfl, rfl, rfl, rfl, rfl, rfl, rfl⟩

theorem State.handOver_relevel (i : Instr) (c : HostCmd) (s : State) (f : OutLine → Level) :
    State.handOver i c (s.relevel f) = (State.handOver i c s).relevel f := by
  cases i <;> rfl

/-- A step does the same at other levels (rules R26, R106). -/
theorem step_relevel (s : State) (f : OutLine → Level) : OutcomeRelated State.Relevelled (step s) (step (s.relevel f)) := by
  refine (State.relevel_sameControl f s).step ⟨f, rfl⟩ (fun u => unitTurn_relevel u s.tookTurn f) fun i c cs _ => ?_
  have h := State.handOver_relevel i c { s.tookTurn with host := cs } f
  refine Eq.subst (motive := fun t => OutcomeRelated State.Relevelled _ (exec i t)) h.symm ?_
  exact (State.relevel_sameControl f _).exec fun _ => ⟨f, execEffect_relevel i _ f⟩

/-- Settles O54: the relation "the same but for its levels" is kept by every event and every command. -/
theorem levelsUnread : Obligations.LevelsUnread := by
  intro s f
  have h := step_relevel s f
  generalize step s = a at h ⊢
  generalize step (s.relevel f) = b at h ⊢
  cases h with
  | next h => obtain ⟨g, rfl⟩ := h; exact ⟨g, rfl⟩
  | fault e => exact ⟨f, rfl⟩
  | refused r => exact ⟨f, rfl⟩

end Sys2Proof.Machine

/-! ## What no rule reads: registers the spec leaves unspecified

The relation `AgreesWith` is kept by every event and every command (rules R38, R42, R44, R173; logs 10 and 20). -/

namespace Sys2Proof.Machine

/-! ### The I2S unit -/

theorem I2sUnit.AgreesWith.refl (p : Params) (u : I2sUnit) : u.AgreesWith p u :=
  ⟨u.mode, u.cur, rfl, fun _ => rfl, fun _ _ _ => ⟨rfl, rfl, fun _ => rfl, fun _ => ⟨rfl, rfl⟩⟩⟩

/-- The port events of a transfer whose first frame has not ended: the prologue, then the frame (rules R93, R94, R96). -/
theorem I2sUnit.actAt_first_frame {p : Params} {u : I2sUnit} (h : u.cur.frame = 0) (i : Nat) :
    u.actAt p i = (prologueActs p u.mode ++ frameActs p u.mode u.cur.n)[i]? := by
  rw [I2sUnit.actAt, List.getElem?_append, I2sUnit.frameStart_zero h]

/-- A prologue is one drive of WS (rule R96). -/
theorem prologueActs_cases (p : Params) (mode : I2sMode) : prologueActs p mode = [] ∨ prologueActs p mode = [.ws false] := by
  cases mode <;> simp only [prologueActs] <;> split <;> simp

/-- A frame opens with its first bit, but where a drive of WS stands before it; then there is no prologue (rules R93, R94, R96). -/
theorem frameActs_opens (p : Params) (mode : I2sMode) (n : Width) :
    ∃ rest, frameActs p mode n = .sd .left 1 :: rest ∨
      (frameActs p mode n = .ws false :: .sd .left 1 :: rest ∧ prologueActs p mode = []) := by
  cases mode with
  | standardI2s => cases n <;> exact ⟨_, .inl rfl⟩
  | leftJustified =>
    simp only [frameActs, ljFrame, prologueActs]
    cases p.ljWsPerFrame with
    | false => cases n <;> exact ⟨_, .inl rfl⟩
    | true => cases n <;> exact ⟨_, .inr ⟨rfl, rfl⟩⟩

/-- A command that opens with a drive of WS goes on with the first bit of the left word (rules R93, R94, R96). -/
theorem firstBit_after_lead {p : Params} {mode : I2sMode} {n : Width}
    (h : (prologueActs p mode ++ frameActs p mode n)[0]? = some (.ws false)) :
    (prologueActs p mode ++ frameActs p mode n)[1]? = some (.sd .left 1) := by
  obtain ⟨rest, hframe | ⟨hframe, hnone⟩⟩ := frameActs_opens p mode n
  · rcases prologueActs_cases p mode with hp | hp
    · simp [hp, hframe] at h
    · simp [hp, hframe]
  · simp [hnone, hframe]

/-- At the first position of a command no frame has ended (rules R28, R32). -/
theorem I2sUnit.Placed.frame_zero {p : Params} {cmd : I2sRun} {u : I2sUnit} (h : u.Placed p cmd 0) : u.cur.frame = 0 := by
  rcases h with ⟨-, hf⟩ | ⟨hstart, -⟩
  · exact hf
  · have hlen := frameActs_length_pos p u.mode u.cur.n
    have hmul : u.cur.frame * (frameActs p u.mode u.cur.n).length = 0 := by
      unfold I2sUnit.frameStart at hstart
      omega
    exact (Nat.mul_eq_zero.mp hmul).resolve_right hlen.ne'

/-- After a leading drive of WS a word starts. -/
theorem I2sUnit.startsWord_after_lead {p : Params} {cmd : I2sRun} {u : I2sUnit} (hseq : u.io.seq = .running cmd 1)
    (hframe : u.cur.frame = 0) (hlead : u.actAt p 0 = some (.ws false)) : u.startsWord p = true := by
  rw [I2sUnit.actAt_first_frame hframe] at hlead
  simp only [I2sUnit.startsWord, hseq, I2sUnit.actAt_first_frame hframe, firstBit_after_lead hlead]
  rfl

/-- The I2S unit with another pair of words and another `bit_offset`. -/
def I2sUnit.reword (x y : Slot) (k : Nat) (u : I2sUnit) : I2sUnit := { u with cur := ⟨u.cur.n, u.cur.frame, x, y, k⟩ }

theorem I2sUnit.enterWord_of_starts {p : Params} {u : I2sUnit} (h : u.startsWord p = true) :
    u.enterWord p = { u with cur := { u.cur with bitOffset := 0 } } := by
  simp only [I2sUnit.enterWord, h, if_true]

theorem I2sUnit.enterWord_reword {p : Params} {u : I2sUnit} (h : u.startsWord p = true) (k : Nat) :
    (u.reword u.cur.uL u.cur.uR k).enterWord p = u.enterWord p := by
  rw [I2sUnit.enterWord_of_starts h, I2sUnit.enterWord_of_starts (u := u.reword u.cur.uL u.cur.uR k) h]
  rfl

/-- A frame's load writes the words whatever they were, and where a word starts `bit_offset` too. -/
theorem I2sUnit.load_reword {p : Params} {u : I2sUnit} {k : Nat} (h : u.startsWord p = true ∨ k = u.cur.bitOffset)
    (l r x y : Slot) : (u.reword x y k).load p l r = u.load p l r := by
  rcases h with h | rfl
  · have hload (v : I2sUnit) (hv : v.startsWord p = true) :
        v.load p l r = { v with cur := ⟨v.cur.n, v.cur.frame, wordPattern v.cur.n l, wordPattern v.cur.n r, 0⟩ } :=
      I2sUnit.enterWord_of_starts
        (u := { v with cur := { v.cur with uL := wordPattern v.cur.n l, uR := wordPattern v.cur.n r } }) hv
    rw [hload u h, hload (u.reword x y k) h]
    rfl
  · rfl

theorem I2sUnit.startFrame_reword {p : Params} (cmd : I2sRun) {u : I2sUnit} {k : Nat}
    (h : u.startsWord p = true ∨ k = u.cur.bitOffset) (x y : Slot) :
    (u.reword x y k).startFrame p cmd = u.startFrame p cmd := by
  have hpair : (u.reword x y k).nextPair cmd = u.nextPair cmd := by cases cmd <;> rfl
  have hpull : (u.reword x y k).pulled cmd = (u.pulled cmd).reword x y k := by cases cmd <;> rfl
  have hpulled : (u.pulled cmd).startsWord p = true ∨ k = (u.pulled cmd).cur.bitOffset := by cases cmd <;> exact h
  rw [I2sUnit.startFrame_eq, I2sUnit.startFrame_eq, hpair, hpull]
  cases u.nextPair cmd with
  | none => rfl
  | some w => exact I2sUnit.load_reword hpulled w.1 w.2 x y

/-- After a leading drive of WS `bit_offset` is set whatever it was, and after the prologue the words are. -/
theorem I2sUnit.advance_reword {p : Params} {cmd : I2sRun} {u : I2sUnit} (hframe : u.cur.frame = 0)
    (hlead : u.actAt p 0 = some (.ws false)) {x y : Slot} (k : Nat)
    (hwords : (prologueActs p u.mode).length = 0 → x = u.cur.uL ∧ y = u.cur.uR) :
    (u.reword x y k).advance p cmd 0 = u.advance p cmd 0 := by
  have hstarts : I2sUnit.startsWord p { u with io := u.io.goto cmd 1 } = true :=
    I2sUnit.startsWord_after_lead (u := { u with io := u.io.goto cmd 1 }) rfl hframe hlead
  by_cases h1 : 0 + 1 = (prologueActs p u.mode).length
  · rw [I2sUnit.advance_prologue (u := u.reword x y k) h1, I2sUnit.advance_prologue h1]
    exact I2sUnit.startFrame_reword cmd (.inl hstarts) x y
  · have hnone : (prologueActs p u.mode).length = 0 := by
      rcases prologueActs_cases p u.mode with h | h <;> simp [h] at h1 ⊢
    have h2 : 0 + 1 ≠ u.frameStart p + (frameActs p u.mode u.cur.n).length := by
      have hfirst := firstBit_after_lead (I2sUnit.actAt_first_frame hframe 0 ▸ hlead)
      have hlen := (List.getElem?_eq_some_iff.mp hfirst).1
      rw [List.length_append] at hlen
      omega
    obtain ⟨rfl, rfl⟩ := hwords hnone
    rw [I2sUnit.advance_next (u := u.reword _ _ k) h1 h2, I2sUnit.advance_next h1 h2]
    exact I2sUnit.enterWord_reword hstarts k

/-- A drive of WS reads no register of the cursor. -/
theorem I2sUnit.perform_lead_reword (p : Params) (u : I2sUnit) (x y : Slot) (k : Nat) :
    (u.perform p (.ws false)).Related (fun v w => ∃ io l, v = { u with io := io, lvlWs := l } ∧ w = v.reword x y k)
      (fun v w => w = v.reword x y k) ((u.reword x y k).perform p (.ws false)) := by
  simp only [I2sUnit.perform]
  exact UnitIo.tryDrive_related (fun io l => ⟨io, l, rfl, rfl⟩) (fun io l => rfl)

/-- Another pair and `bit_offset` while the spec leaves them unspecified: the units are the same, or a leading drive of WS is their
event, after which they are. -/
theorem I2sUnit.event_reword {p : Params} {cmd : I2sRun} {i : Nat} {u : I2sUnit} (hu : u.Inv p) (hseq : u.io.seq = .running cmd i)
    {x y : Slot} {k : Nat} (hoffset : i ≠ 0 ∨ u.actAt p 0 ≠ some (.ws false) → k = u.cur.bitOffset)
    (hwords : (prologueActs p u.mode).length ≤ i → x = u.cur.uL ∧ y = u.cur.uR) :
    EventRelated (fun v w => w = v) (u.event p) ((u.reword x y k).event p) := by
  obtain ⟨-, hplaced⟩ := (I2sUnit.inv_running hseq).mp hu
  by_cases hlead : i = 0 ∧ u.actAt p 0 = some (.ws false)
  · obtain ⟨rfl, hact⟩ := hlead
    have hframe := hplaced.frame_zero
    rw [I2sUnit.event_running hseq hact, I2sUnit.event_running (u := u.reword x y k) hseq hact]
    refine (I2sUnit.perform_lead_reword p u x y k).settle ?_ (fun _ _ h _ => absurd h I2sUnit.perform_ne_again) ?_
    · rintro v w - ⟨io, l, rfl, rfl⟩
      exact I2sUnit.advance_reword (u := { u with io := io, lvlWs := l }) hframe hact k
        (fun h => hwords h.le)
    · rintro o v w - rfl
      rfl
  · have hlater : (prologueActs p u.mode).length ≤ i := by
      rcases prologueActs_cases p u.mode with hp | hp
      · simp [hp]
      · have : i ≠ 0 := fun hi => hlead ⟨hi, by simp [I2sUnit.actAt, hp]⟩
        rw [hp, List.length_singleton]
        omega
    obtain ⟨rfl, rfl⟩ := hwords hlater
    obtain rfl := hoffset (by tauto)
    exact EventRelated.of_eq rfl fun _ => rfl

theorem I2sUnit.event_agrees {p : Params} {u v : I2sUnit} (hu : u.Inv p) (h : u.AgreesWith p v) :
    EventRelated (I2sUnit.AgreesWith p) (u.event p) (v.event p) := by
  cases hseq : u.io.seq with
  | idle =>
    have hv : v.io.seq = .idle := by obtain ⟨mode, cur, rfl, -⟩ := h; exact hseq
    rw [I2sUnit.event_idle hseq, I2sUnit.event_idle hv]
    exact .ok h
  | running cmd i =>
    obtain ⟨mode, ⟨n, frame, x, y, k⟩, rfl, hmode, hcur⟩ := h
    obtain rfl : mode = u.mode := hmode (.inr (by simp [hseq]))
    obtain ⟨hn, hframe, hoffset, hwords⟩ := hcur cmd i hseq
    obtain rfl : n = u.cur.n := hn
    obtain rfl : frame = u.cur.frame := hframe
    refine (I2sUnit.event_reword hu hseq hoffset hwords).mono ?_
    rintro v w rfl
    exact I2sUnit.AgreesWith.refl p w

/-! ### The UART unit -/

theorem UartUnit.AgreesWith.refl (u : UartUnit) : u.AgreesWith u :=
  ⟨u.txsr, u.rxacc, u.bitcnt, rfl, fun _ _ _ => ⟨rfl, rfl⟩, fun _ _ => ⟨rfl, fun _ => rfl⟩⟩

/-- The same UART unit, but for `TXSR` where `tx` and for `RXACC` where `rx`. -/
def UartUnit.Off (tx rx : Bool) (u v : UartUnit) : Prop :=
  ∃ txsr rxacc, v = { u with txsr := txsr, rxacc := rxacc } ∧ (tx = false → txsr = u.txsr) ∧ (rx = false → rxacc = u.rxacc)

/-- A port event reads `TXSR` only to drive it, `RXACC` only to shift into it, and the wait past the start bit clears it (rules
R110, R114, R116). -/
theorem UartUnit.perform_off {p : Params} {tx rx : Bool} {a : UartAct} (ha : a = .data → tx = false) {u v : UartUnit}
    (h : u.Off tx rx v) :
    (u.perform p a).Related (UartUnit.Off tx ((a != .openTick) && rx)) (UartUnit.Off tx rx) (v.perform p a) := by
  obtain ⟨t, r, rfl, ht, hr⟩ := h
  cases a <;> simp only [UartUnit.perform, UartUnit.driveTx, UartUnit.wait, UartUnit.sampleRx]
  case start => exact UnitIo.tryDrive_related (fun _ _ => ⟨t, r, rfl, ht, hr⟩) (fun _ _ => ⟨t, r, rfl, ht, hr⟩)
  case data =>
    obtain rfl := ht (ha rfl)
    exact UnitIo.tryDrive_related (fun _ _ => ⟨_, r, rfl, ht, hr⟩) (fun _ _ => ⟨_, r, rfl, ht, hr⟩)
  case stop => exact UnitIo.tryDrive_related (fun _ _ => ⟨t, r, rfl, ht, hr⟩) (fun _ _ => ⟨t, r, rfl, ht, hr⟩)
  case poll =>
    refine UnitIo.trySample_related (fun v _ _ => ?_) (fun _ _ => ⟨t, r, rfl, ht, hr⟩)
    cases v with
    | true => exact .again ⟨t, r, rfl, ht, hr⟩
    | false => exact .done ⟨t, r, rfl, ht, hr⟩
  case sample =>
    exact UnitIo.trySample_related
      (fun v _ _ => .done ⟨t, assemble p.uartRxOrder r v, rfl, ht, fun h => congrArg (assemble p.uartRxOrder · v) (hr h)⟩)
      (fun _ _ => ⟨t, r, rfl, ht, hr⟩)
  case tick => exact UnitIo.tryWait_related (fun _ => ⟨t, r, rfl, ht, hr⟩) (fun _ => ⟨t, r, rfl, ht, hr⟩)
  case shiftTick =>
    exact UnitIo.tryWait_related (fun _ => ⟨t >>> 1, r, rfl, fun h => by rw [ht h]; rfl, hr⟩)
      (fun _ => ⟨t, r, rfl, ht, hr⟩)
  case openTick => exact UnitIo.tryWait_related (fun _ => ⟨t, 0#8, rfl, ht, fun _ => rfl⟩) (fun _ => ⟨t, r, rfl, ht, hr⟩)
  case countTick => exact UnitIo.tryWait_related (fun _ => ⟨t, r, rfl, ht, hr⟩) (fun _ => ⟨t, r, rfl, ht, hr⟩)

/-- A command's end discards the transient registers (rule R44). -/
theorem UartUnit.Off.finish {tx rx : Bool} {u v : UartUnit} (h : u.Off tx rx v) (o : CmdOutcome) : v.finish o = u.finish o := by
  obtain ⟨t, r, rfl, -⟩ := h
  rfl

theorem UartUnit.Off.goto {tx rx : Bool} {u v : UartUnit} (h : u.Off tx rx v) (cmd : UartRun) (i : Nat) :
    UartUnit.Off tx rx { u with io := u.io.goto cmd i } { v with io := v.io.goto cmd i } := by
  obtain ⟨t, r, rfl, h⟩ := h
  exact ⟨t, r, rfl, h⟩

/-- At a position of a write only `RXACC` is unspecified (rules R31, R44). -/
theorem UartUnit.Off.agrees_write {u v : UartUnit} {b : Byte} {i : Nat} (h : u.Off false true v)
    (hseq : u.io.seq = .running (.write b) i) : u.AgreesWith v := by
  obtain ⟨t, r, rfl, ht, -⟩ := h
  exact ⟨t, r, u.bitcnt, rfl, fun _ _ _ => ⟨ht rfl, rfl⟩, fun j hj => nomatch hseq.symm.trans hj⟩

/-- At a position of a read `TXSR` is unspecified, and `RXACC` up to the wait that clears it (rules R31, R44, R114). -/
theorem UartUnit.Off.agrees_read {u v : UartUnit} {i : Nat} {rx : Bool} (h : u.Off true rx v) (hrx : rx = true → i < 2)
    (hseq : u.io.seq = .running .read i) : u.AgreesWith v := by
  obtain ⟨t, r, rfl, -, hr⟩ := h
  refine ⟨t, r, u.bitcnt, rfl, fun b j hj => (nomatch hseq.symm.trans hj), fun j hj => ⟨rfl, fun h2 => hr ?_⟩⟩
  cases hseq.symm.trans hj
  exact Bool.eq_false_iff.mpr fun h => absurd (hrx h) (by omega)

/-- An event that is made again stays at its position (rules R32, R114). -/
theorem UartUnit.perform_again_seq {p : Params} {a : UartAct} {u w : UartUnit} (h : u.perform p a = .again w) :
    w.io.seq = u.io.seq := by
  obtain ⟨ev, hw⟩ := UartUnit.Performed.of_perform (.inr (.inl h))
  exact hw.seq

/-- A read drives nothing, and its second port event is the wait that clears `RXACC` (rule R114). -/
theorem uartReadActs_reads : ∀ i < 19, ∀ a ∈ uartReadActs[i]?, a ≠ .data ∧ (i = 1 → a = .openTick) := by decide

theorem UartUnit.event_agrees_write {p : Params} {u v : UartUnit} {b : Byte} {i : Nat} (hu : u.Inv)
    (hseq : u.io.seq = .running (.write b) i) (hoff : u.Off false true v) :
    EventRelated UartUnit.AgreesWith (u.event p) (v.event p) := by
  have hseq' : v.io.seq = .running (.write b) i := by obtain ⟨t, r, rfl, -⟩ := hoff; exact hseq
  obtain ⟨-, hlt, -⟩ := (UartUnit.inv_write hseq).mp hu
  have ha : (uartActs (.write b))[i]? = some uartWriteActs[i] := List.getElem?_eq_getElem hlt
  rw [UartUnit.event_running hseq ha, UartUnit.event_running hseq' ha]
  refine (UartUnit.perform_off (fun _ => rfl) hoff).settle (fun w x _ hw => ?_)
    (fun w _ hw hoff => hoff.agrees_write ((UartUnit.perform_again_seq hw).trans hseq))
    (fun o _ _ _ hw => hw.finish o ▸ UartUnit.AgreesWith.refl _)
  have hw : w.Off false true x := by
    obtain ⟨t, r, rfl, ht, -⟩ := hw
    exact ⟨t, r, rfl, ht, nofun⟩
  unfold UartUnit.advance
  split
  · exact (hw.goto (.write b) (i + 1)).agrees_write rfl
  · exact hw.finish .ok ▸ UartUnit.AgreesWith.refl _

theorem UartUnit.event_agrees_read {p : Params} {u v : UartUnit} {i : Nat} (hu : u.Inv)
    (hseq : u.io.seq = .running .read i) (hoff : u.Off true (decide (i < 2)) v) :
    EventRelated UartUnit.AgreesWith (u.event p) (v.event p) := by
  have hseq' : v.io.seq = .running .read i := by obtain ⟨t, r, rfl, -⟩ := hoff; exact hseq
  obtain ⟨-, hlt, -⟩ := (UartUnit.inv_read hseq).mp hu
  have ha : (uartActs .read)[i]? = some uartReadActs[i] := List.getElem?_eq_getElem hlt
  obtain ⟨hdata, hopen⟩ := uartReadActs_reads i hlt uartReadActs[i] ha
  rw [UartUnit.event_running hseq ha, UartUnit.event_running hseq' ha]
  refine (UartUnit.perform_off (fun h => absurd h hdata) hoff).settle (fun w x _ hw => ?_)
    (fun w _ hw hoff => hoff.agrees_read of_decide_eq_true ((UartUnit.perform_again_seq hw).trans hseq))
    (fun o _ _ _ hw => hw.finish o ▸ UartUnit.AgreesWith.refl _)
  have hcleared : ((uartReadActs[i] != .openTick) && decide (i < 2)) = true → i + 1 < 2 := by
    intro h
    obtain ⟨hne, hi⟩ : uartReadActs[i] ≠ .openTick ∧ i < 2 := by simpa using h
    have : i ≠ 1 := fun h1 => hne (hopen h1)
    omega
  unfold UartUnit.advance
  split
  · exact (hw.goto .read (i + 1)).agrees_read hcleared rfl
  · rename_i hend
    have hout : x.outcome .read = w.outcome .read := by
      obtain ⟨t, r, rfl, -, hr⟩ := hw
      have hi : ¬ i + 1 < 2 := fun h => hend (h.trans (by decide))
      exact congrArg CmdOutcome.okByte (hr (Bool.eq_false_iff.mpr fun h => hi (hcleared h)))
    rw [hout]
    exact hw.finish _ ▸ UartUnit.AgreesWith.refl _

theorem UartUnit.event_agrees {p : Params} {u v : UartUnit} (hu : u.Inv) (h : u.AgreesWith v) :
    EventRelated UartUnit.AgreesWith (u.event p) (v.event p) := by
  cases hseq : u.io.seq with
  | idle =>
    have hv : v.io.seq = .idle := by obtain ⟨t, r, n, rfl, -⟩ := h; exact hseq
    rw [UartUnit.event_idle hseq, UartUnit.event_idle hv]
    exact .ok h
  | running cmd i =>
    obtain ⟨t, r, n, rfl, hwrite, hread⟩ := h
    cases cmd with
    | write b =>
      obtain ⟨rfl, rfl⟩ := hwrite b i hseq
      exact UartUnit.event_agrees_write hu hseq ⟨_, r, rfl, fun _ => rfl, nofun⟩
    | read =>
      obtain ⟨rfl, hacc⟩ := hread i hseq
      exact UartUnit.event_agrees_read hu hseq
        ⟨t, r, rfl, nofun, fun h => hacc (Nat.le_of_not_lt (of_decide_eq_false h))⟩

/-! ### The SPI unit -/

theorem SpiUnit.AgreesWith.refl (u : SpiUnit) : u.AgreesWith u :=
  ⟨u.cpol, u.cpha, u.bitOrder, u.rxbuf, u.rxacc, u.bitcnt, rfl, fun _ => ⟨rfl, rfl, rfl⟩, fun _ => rfl,
    fun _ _ _ => ⟨rfl, rfl⟩⟩

/-- The same SPI unit but for `RXBUF` while `RXVALID` is 0. -/
def SpiUnit.OffRxbuf (u v : SpiUnit) : Prop := ∃ rxbuf, v = { u with rxbuf := rxbuf } ∧ (u.rxvalid = true → rxbuf = u.rxbuf)

theorem SpiUnit.OffRxbuf.agrees {u v : SpiUnit} (h : u.OffRxbuf v) : u.AgreesWith v := by
  obtain ⟨x, rfl, hx⟩ := h
  exact ⟨_, _, _, x, _, _, rfl, fun _ => ⟨rfl, rfl, rfl⟩, hx, fun _ _ _ => ⟨rfl, rfl⟩⟩

/-- A sample leaves `RXBUF` or completes it from `RXACC` (rules R131, R132). -/
theorem SpiUnit.OffRxbuf.takeBit {u v : SpiUnit} (h : u.OffRxbuf v) (s : Bool) : (u.takeBit s).OffRxbuf (v.takeBit s) := by
  obtain ⟨x, rfl, hx⟩ := h
  unfold SpiUnit.takeBit
  dsimp only
  split
  · exact ⟨_, rfl, fun _ => rfl⟩
  · exact ⟨x, rfl, hx⟩

/-- No port event reads `RXBUF` (rules R30, R136). -/
theorem SpiUnit.perform_offRxbuf {p : Params} {a : SpiAct} {u v : SpiUnit} (h : u.OffRxbuf v) :
    (u.perform p a).Related SpiUnit.OffRxbuf SpiUnit.OffRxbuf (v.perform p a) := by
  obtain ⟨x, rfl, hx⟩ := h
  cases a <;> simp only [SpiUnit.perform, SpiUnit.driveSck, SpiUnit.driveMosi]
  case construct bo m =>
    refine EventEnd.Related.andThen (D := SpiUnit.OffRxbuf)
      (UnitIo.tryDrive_related (fun _ _ => ⟨x, rfl, hx⟩) (fun _ _ => ⟨x, rfl, hx⟩)) ?_
    rintro w _ ⟨y, rfl, -⟩
    exact ⟨_, rfl, fun _ => rfl⟩
  case mosi byte i => exact UnitIo.tryDrive_related (fun _ _ => ⟨x, rfl, hx⟩) (fun _ _ => ⟨x, rfl, hx⟩)
  case sck v => exact UnitIo.tryDrive_related (fun _ _ => ⟨x, rfl, hx⟩) (fun _ _ => ⟨x, rfl, hx⟩)
  case tick => exact UnitIo.tryWait_related (fun _ => ⟨x, rfl, hx⟩) (fun _ => ⟨x, rfl, hx⟩)
  case sample =>
    exact UnitIo.trySample_related
      (fun v io ds => .done (SpiUnit.OffRxbuf.takeBit (u := { u with io := io, miso := ds }) ⟨x, rfl, hx⟩ v))
      (fun _ _ => ⟨x, rfl, hx⟩)

theorem SpiUnit.event_agrees_send {p : Params} {u v : SpiUnit} {b : Byte} {i : Nat} (hseq : u.io.seq = .running (.send b) i)
    (h : u.OffRxbuf v) : EventRelated SpiUnit.OffRxbuf (u.event p) (v.event p) := by
  have hseq' : v.io.seq = .running (.send b) i := by obtain ⟨x, rfl, -⟩ := h; exact hseq
  have hacts {u v : SpiUnit} (h : u.OffRxbuf v) : v.acts (.send b) = u.acts (.send b) := by obtain ⟨x, rfl, -⟩ := h; rfl
  have hfin {u v : SpiUnit} (h : u.OffRxbuf v) (o : CmdOutcome) : (u.finish o).OffRxbuf (v.finish o) := by
    obtain ⟨x, rfl, hx⟩ := h; exact ⟨x, rfl, hx⟩
  cases ha : (u.acts (.send b))[i]? with
  | none =>
    rw [SpiUnit.event_over hseq ha, SpiUnit.event_over hseq' (hacts h ▸ ha)]
    exact .ok (hfin h .ok)
  | some a =>
    rw [SpiUnit.event_running hseq ha, SpiUnit.event_running hseq' (hacts h ▸ ha)]
    refine (SpiUnit.perform_offRxbuf h).settle (fun w x _ hw => ?_) (fun _ _ h _ => absurd h SpiUnit.perform_ne_again)
      (fun o _ _ _ hw => hfin hw o)
    unfold SpiUnit.advance
    rw [hacts hw]
    split
    · obtain ⟨y, rfl, hy⟩ := hw
      exact ⟨y, rfl, hy⟩
    · exact hfin hw .ok

section
variable (cpol cpha : Bool) (order : BitOrder) (buf acc : Byte) (cnt : BitVec 4)

/-- The SPI unit with other control fields, another `RXBUF` and other transient registers. -/
def SpiUnit.refield (u : SpiUnit) : SpiUnit :=
  { u with cpol := cpol, cpha := cpha, bitOrder := order, rxbuf := buf, rxacc := acc, bitcnt := cnt }

/-- A construction drives SCK to the polarity of its operand: no register takes part (rule R122). -/
theorem SpiUnit.perform_construct_refield (p : Params) (bo m : BitVec 2) (u : SpiUnit) :
    (u.perform p (.construct bo m)).Related
      (fun v w => ∃ x : SpiUnit, v = x.constructed p bo m ∧ w = (x.refield cpol cpha order buf acc cnt).constructed p bo m)
      (fun v w => w = v.refield cpol cpha order buf acc cnt)
      ((u.refield cpol cpha order buf acc cnt).perform p (.construct bo m)) := by
  simp only [SpiUnit.perform, SpiUnit.driveSck]
  refine EventEnd.Related.andThen (D := fun v w => w = v.refield cpol cpha order buf acc cnt)
    (UnitIo.tryDrive_related (fun _ _ => rfl) (fun _ _ => rfl)) ?_
  rintro v w rfl
  exact ⟨v, rfl, rfl⟩

end

/-- A construction writes every register that differs, or leaves the unit UNCONFIGURED, where the spec leaves them unspecified
(rules R40, R42, R44, R122). -/
theorem SpiUnit.event_agrees_init {p : Params} {u v : SpiUnit} {bo m : BitVec 2} (hlife : u.io.life = .unconfigured)
    (hseq : u.io.seq = .running (.init bo m) 0) (h : u.AgreesWith v) :
    EventRelated SpiUnit.AgreesWith (u.event p) (v.event p) := by
  obtain ⟨cpol, cpha, order, buf, acc, cnt, hv, -, hbuf, -⟩ := h
  obtain rfl : v = u.refield cpol cpha order buf acc cnt := hv
  have hperf := SpiUnit.perform_construct_refield cpol cpha order buf acc cnt p bo m u
  rw [SpiUnit.event_running hseq rfl, SpiUnit.event_running (u := u.refield cpol cpha order buf acc cnt) hseq rfl]
  refine hperf.settle ?_ (fun _ _ h _ => absurd h SpiUnit.perform_ne_again) ?_
  · rintro _ _ - ⟨x, rfl, rfl⟩
    exact SpiUnit.AgreesWith.refl _
  · rintro o v _ hr rfl
    obtain ⟨ev, -, -, hsame, hvbuf, hvalid⟩ := SpiUnit.perform_raised hr
    refine ⟨cpol, cpha, order, buf, _, _, rfl, fun hc => ?_, fun hv => ?_, fun _ _ hs => nomatch hs⟩
    · exact nomatch (hsame.life.trans hlife).symm.trans hc
    · exact (hbuf (hvalid.symm.trans hv)).trans hvbuf.symm

theorem SpiUnit.event_agrees {p : Params} {u v : SpiUnit} (hu : u.Inv) (h : u.AgreesWith v) :
    EventRelated SpiUnit.AgreesWith (u.event p) (v.event p) := by
  cases hseq : u.io.seq with
  | idle =>
    have hv : v.io.seq = .idle := by obtain ⟨cpol, cpha, order, buf, acc, cnt, rfl, -⟩ := h; exact hseq
    rw [SpiUnit.event_idle hseq, SpiUnit.event_idle hv]
    exact .ok h
  | running cmd i =>
    cases cmd with
    | init bo m =>
      obtain ⟨hlife, -, -, rfl⟩ := (SpiUnit.inv_init hseq).mp hu
      exact SpiUnit.event_agrees_init hlife hseq h
    | send b =>
      obtain ⟨hlife, -⟩ := (SpiUnit.inv_send hseq).mp hu
      obtain ⟨cpol, cpha, order, buf, acc, cnt, rfl, hconf, hbuf, hsend⟩ := h
      obtain ⟨rfl, rfl, rfl⟩ := hconf hlife
      obtain ⟨rfl, rfl⟩ := hsend b i hseq
      exact (SpiUnit.event_agrees_send hseq ⟨buf, rfl, hbuf⟩).mono fun _ _ h => h.agrees

/-! ### Turns and commands -/

theorem State.AgreesWith.sameControl {s t : State} (h : s.AgreesWith t) : s.SameControl t := by
  obtain ⟨⟨mode, cur, hi, -⟩, ⟨txsr, rxacc, bitcnt, hu, -⟩, ⟨cpol, cpha, order, buf, acc, cnt, hs, -⟩, -, hhost, hsched⟩ := h
  exact ⟨by rw [hi], by rw [hu], by rw [hs], by rw [hi], by rw [hi], hhost, hsched⟩

theorem unitTurn_agrees {s t : State} (hs : s.Inv) (h : s.AgreesWith t) (u : UnitId) :
    OutcomeRelated State.AgreesWith (unitTurn u s) (unitTurn u t) := by
  obtain ⟨invI, invU, invS⟩ := hs
  obtain ⟨hi, hu, hsp, hp, hhost, hsched⟩ := h
  cases u with
  | i2s =>
    refine EventRelated.afterEvent ?_ fun x y hxy => ⟨hxy, hu, hsp, hp, hhost, hsched⟩
    rw [hp]
    exact I2sUnit.event_agrees invI hi
  | uart =>
    refine EventRelated.afterEvent ?_ fun x y hxy => ⟨hi, hxy, hsp, hp, hhost, hsched⟩
    rw [hp]
    exact UartUnit.event_agrees invU hu
  | spi =>
    refine EventRelated.afterEvent ?_ fun x y hxy => ⟨hi, hu, hxy, hp, hhost, hsched⟩
    rw [hp]
    exact SpiUnit.event_agrees invS hsp

/-- The sequences and producers handed over are the same, and the unit they reach is IDLE or keeps its cursor. -/
theorem State.AgreesWith.handOver {s t : State} (h : s.AgreesWith t) (i : Instr) (c : HostCmd) :
    (State.handOver i c s).AgreesWith (State.handOver i c t) := by
  obtain ⟨⟨mode, cur, hi, hmode, hcur⟩, hu, hsp, hp, hhost, hsched⟩ := h
  cases i with
  | i2sWrite wid =>
    refine ⟨⟨mode, cur, ?_, hmode, hcur⟩, hu, hsp, hp, hhost, hsched⟩
    simp only [State.handOver, hi]
  | i2sWriteStream wid =>
    refine ⟨⟨mode, cur, ?_, hmode, hcur⟩, hu, hsp, hp, hhost, hsched⟩
    simp only [State.handOver, hi]
  | _ => exact ⟨⟨mode, cur, hi, hmode, hcur⟩, hu, hsp, hp, hhost, hsched⟩

/-- A transfer's start writes the cursor, but for the words, which the first frame's start does (rules R95, R97; log 20). -/
theorem I2sUnit.AgreesWith.transfer {p : Params} {u v : I2sUnit} (h : u.AgreesWith p v) (hlife : u.io.life = .configured)
    (cmd : I2sRun) {wid : BitVec 2} (hwid : widOk wid = true) :
    (u.transfer p cmd wid).AgreesWith p (v.transfer p cmd wid) := by
  obtain ⟨n, hn⟩ := Option.isSome_iff_exists.mp ((widOk_eq wid).symm.trans hwid)
  obtain ⟨mode, cur, rfl, hmode, -⟩ := h
  obtain rfl : mode = u.mode := hmode (.inl hlife)
  simp only [I2sUnit.transfer, hn, Option.elim]
  by_cases hp : (prologueActs p u.mode).length = 0
  · rw [I2sUnit.begin_frame hp, I2sUnit.begin_frame (u := { u with mode := u.mode, cur := cur }) hp]
    have hframe := I2sUnit.startFrame_reword (p := p) cmd (u := u.opened cmd n) (.inr rfl) cur.uL cur.uR
    exact hframe.symm ▸ I2sUnit.AgreesWith.refl p _
  · rw [I2sUnit.begin_prologue hp, I2sUnit.begin_prologue (u := { u with mode := u.mode, cur := cur }) hp]
    refine ⟨_, _, rfl, fun _ => rfl, fun cmd' i hs => ⟨rfl, rfl, fun _ => rfl, fun hle => absurd hle ?_⟩⟩
    cases hs
    exact Nat.not_le.mpr (Nat.pos_of_ne_zero hp)

/-- The answer of `SPI.READ` is specified: a byte that differs is not valid (rules R34, R136). -/
theorem SpiUnit.AgreesWith.received {u v : SpiUnit} (h : u.AgreesWith v) : v.received = u.received := by
  obtain ⟨cpol, cpha, order, buf, acc, cnt, rfl, -, hbuf, -⟩ := h
  cases hv : u.rxvalid with
  | false => simp only [SpiUnit.received, hv, Bool.false_eq_true, if_false]
  | true => simp only [SpiUnit.received, hv, hbuf hv]

/-- An admitted command sets the registers that were unspecified and no longer are, and reads none that is (rules R38 to R44). -/
theorem execEffect_agrees {i : Instr} {s t : State} (h : s.AgreesWith t) (hr : execRefusal i s = none) :
    (execEffect i s).AgreesWith (execEffect i t) := by
  obtain ⟨hwf, -, hlife, -⟩ := execRefusal_none.mp hr
  obtain ⟨params, i2s, uart, spi, host, sched⟩ := t
  obtain ⟨hi, hu, hsp, hp, hhost, hsched⟩ := h
  obtain rfl : params = s.params := hp
  cases i with
  | i2sInit mode =>
    obtain ⟨m, cur, rfl, -⟩ := hi
    exact ⟨⟨_, cur, rfl, fun _ => rfl, nofun⟩, hu, hsp, rfl, hhost, hsched⟩
  | i2sRelease =>
    obtain ⟨m, cur, rfl, -⟩ := hi
    exact ⟨⟨_, cur, rfl, fun _ => rfl, nofun⟩, hu, hsp, rfl, hhost, hsched⟩
  | i2sWrite wid => exact ⟨hi.transfer hlife .write hwf, hu, hsp, rfl, hhost, hsched⟩
  | i2sWriteStream wid => exact ⟨hi.transfer hlife .writeStream hwf, hu, hsp, rfl, hhost, hsched⟩
  | uartInit =>
    obtain ⟨t, r, n, rfl, -⟩ := hu
    exact ⟨hi, ⟨t, r, n, rfl, nofun, nofun⟩, hsp, rfl, hhost, hsched⟩
  | uartRelease =>
    obtain ⟨t, r, n, rfl, -⟩ := hu
    exact ⟨hi, ⟨t, r, n, rfl, nofun, nofun⟩, hsp, rfl, hhost, hsched⟩
  | uartWrite byte =>
    obtain ⟨t, r, n, rfl, -⟩ := hu
    exact ⟨hi, ⟨byte, r, 0#4, rfl, fun _ _ _ => ⟨rfl, rfl⟩, nofun⟩, hsp, rfl, hhost, hsched⟩
  | uartRead =>
    obtain ⟨t, r, n, rfl, -⟩ := hu
    refine ⟨hi, ⟨t, r, 0#4, rfl, nofun, fun j hj => ⟨rfl, fun h2 => ?_⟩⟩, hsp, rfl, hhost, hsched⟩
    cases hj
    exact absurd h2 (by decide)
  | spiInit bo m =>
    obtain ⟨cpol, cpha, order, buf, acc, cnt, rfl, hconf, hbuf, -⟩ := hsp
    exact ⟨hi, hu, ⟨cpol, cpha, order, buf, acc, cnt, rfl, hconf, hbuf, nofun⟩, rfl, hhost, hsched⟩
  | spiSend byte =>
    obtain ⟨cpol, cpha, order, buf, acc, cnt, rfl, hconf, hbuf, -⟩ := hsp
    exact ⟨hi, hu, ⟨cpol, cpha, order, buf, 0#8, 0#4, rfl, hconf, hbuf, fun _ _ _ => ⟨rfl, rfl⟩⟩, rfl, hhost, hsched⟩
  | spiRead =>
    have hread := hsp.received
    obtain ⟨cpol, cpha, order, buf, acc, cnt, rfl, hconf, hbuf, -⟩ := hsp
    refine ⟨hi, hu, ⟨cpol, cpha, order, buf, acc, cnt, ?_, hconf, hbuf, nofun⟩, rfl, hhost, hsched⟩
    simp only [execEffect, hread]
  | spiSetBitOrder bo1 =>
    obtain ⟨cpol, cpha, order, buf, acc, cnt, rfl, hconf, hbuf, -⟩ := hsp
    refine ⟨hi, hu, ⟨cpol, cpha, _, buf, acc, cnt, rfl, fun hc => ?_, hbuf, nofun⟩, rfl, hhost, hsched⟩
    obtain ⟨hpol, hpha, -⟩ := hconf hc
    exact ⟨hpol, hpha, rfl⟩
  | spiRelease =>
    obtain ⟨cpol, cpha, order, buf, acc, cnt, rfl, -⟩ := hsp
    exact ⟨hi, hu, ⟨_, _, _, _, acc, cnt, rfl, nofun, nofun, nofun⟩, rfl, hhost, hsched⟩

/-- States that agree step alike (rules R44, R173). -/
theorem step_agrees {s t : State} (hs : s.Inv) (h : s.AgreesWith t) : OutcomeRelated State.AgreesWith (step s) (step t) := by
  have hsame := h.sameControl
  obtain ⟨hi, hu, hsp, hp, hhost, hsched⟩ := h
  have htook : s.tookTurn.AgreesWith t.tookTurn :=
    ⟨hi, hu, hsp, hp, hhost, by simp only [State.tookTurn, hsched]⟩
  refine hsame.step htook (fun u => unitTurn_agrees (s := s.tookTurn) hs htook u) fun i c cs _ => ?_
  have hissued : State.AgreesWith { s.tookTurn with host := cs } { t.tookTurn with host := cs } :=
    ⟨hi, hu, hsp, hp, rfl, htook.2.2.2.2.2⟩
  have hhanded := hissued.handOver i c
  exact hhanded.sameControl.exec fun hr => execEffect_agrees hhanded hr

/-- Settles O55: `AgreesWith` is kept by every event under the invariant and by every admitted command. -/
theorem unspecifiedUnread : Obligations.UnspecifiedUnread :=
  fun _ _ hs h => (step_agrees hs h).same_kind

end Sys2Proof.Machine

/-! ## Turns of different units, and the outcome of a command

One unit's event reads and writes that unit alone (rules R3, R25, R59); it is one event of the trace, and the outcome comes with
the event that ends the command (rules R54, R58, R146). -/

namespace Sys2Proof.Machine

/-- Settles O46: each unit's event is computed from that unit and the parameters, which the other unit's turn leaves alone. -/
theorem unitsCommute : Obligations.UnitsCommute := by
  intro u v s a b hne ha hb
  rcases unitTurn_cases ha with ⟨rfl, x, hx, rfl⟩ | ⟨rfl, x, hx, rfl⟩ | ⟨rfl, x, hx, rfl⟩ <;>
    rcases unitTurn_cases hb with ⟨rfl, y, hy, rfl⟩ | ⟨rfl, y, hy, rfl⟩ | ⟨rfl, y, hy, rfl⟩ <;>
    first
    | exact absurd rfl hne
    | exact ⟨_, afterEvent_next.mpr ⟨y, hy, rfl⟩, afterEvent_next.mpr ⟨x, hx, rfl⟩⟩

/-! ### One event, one outcome -/

section
variable {c : Type}

/-- The command goes on and hands over nothing, or it ends and hands over one outcome (rules R54, R146). -/
def UnitIo.OutcomeAtEnd (a b : UnitIo c) : Prop :=
  (!b.seq.isIdle) = true ∧ b.outcomes = a.outcomes ∨ (!b.seq.isIdle) = false ∧ ∃ o, b.outcomes = a.outcomes ++ [o]

/-- One port event, and one outcome exactly when the command ends (rules R54, R58, R146). -/
def UnitIo.OneEvent (a b : UnitIo c) : Prop := (∃ ev, b.trace = a.trace ++ [ev]) ∧ a.OutcomeAtEnd b

theorem UnitIo.OutcomeAtEnd.of_running {a b : UnitIo c} {cmd : c} {i : Nat} (hs : b.seq = .running cmd i)
    (ho : b.outcomes = a.outcomes) : a.OutcomeAtEnd b :=
  .inl ⟨by rw [hs]; rfl, ho⟩

theorem UnitIo.OutcomeAtEnd.of_idle {a b : UnitIo c} {o : CmdOutcome} (hs : b.seq = .idle)
    (ho : b.outcomes = a.outcomes ++ [o]) : a.OutcomeAtEnd b :=
  .inr ⟨Seq.not_isIdle.mpr hs, o, ho⟩

theorem UnitIo.close_outcomeAtEnd (o : CmdOutcome) (n : Nat) (io : UnitIo c) : io.OutcomeAtEnd (io.close o n) :=
  .of_idle rfl rfl

/-- A port event hands over nothing itself; what comes after it makes no further event. -/
theorem UnitIo.OneEvent.of_performed {a b d : UnitIo c} {ev : Event} (htrace : b.trace = a.trace ++ [ev])
    (hout : b.outcomes = a.outcomes) (hafter : d.trace = b.trace) (hend : b.OutcomeAtEnd d) : a.OneEvent d := by
  refine ⟨⟨ev, hafter.trans htrace⟩, ?_⟩
  rwa [UnitIo.OutcomeAtEnd, hout] at hend

end

theorem I2sUnit.advance_outcomeAtEnd (p : Params) (cmd : I2sRun) (i : Nat) (u : I2sUnit) :
    u.io.OutcomeAtEnd (u.advance p cmd i).io := by
  obtain ⟨-, -, -, -, -, -, -, -, ⟨hseq, hout⟩ | ⟨hseq, hout⟩⟩ := I2sUnit.advance_io p cmd i u
  · exact .of_running hseq hout
  · exact .of_idle hseq hout

theorem I2sUnit.begin_outcomeAtEnd (p : Params) (cmd : I2sRun) (n : Width) (u : I2sUnit) :
    u.io.OutcomeAtEnd (u.begin p cmd n).io := by
  obtain ⟨-, -, -, -, -, -, -, -, ⟨hseq, hout⟩ | ⟨hseq, hout⟩⟩ := I2sUnit.begin_io p cmd n u
  · exact .of_running hseq hout
  · exact .of_idle hseq hout

theorem UartUnit.advance_outcomeAtEnd (cmd : UartRun) (i : Nat) (u : UartUnit) :
    u.io.OutcomeAtEnd (u.advance cmd i).io := by
  unfold UartUnit.advance
  split
  · exact .of_running rfl rfl
  · exact UnitIo.close_outcomeAtEnd _ _ _

theorem SpiUnit.advance_outcomeAtEnd (cmd : SpiRun) (i : Nat) (u : SpiUnit) :
    u.io.OutcomeAtEnd (u.advance cmd i).io := by
  unfold SpiUnit.advance
  split
  · exact .of_running rfl rfl
  · exact UnitIo.close_outcomeAtEnd _ _ _

/-- A position of the invariant is one of a port event (rule R32). -/
theorem I2sUnit.Placed.actAt_ne_none {p : Params} {cmd : I2sRun} {i : Nat} {u : I2sUnit} (h : u.Placed p cmd i) :
    u.actAt p i ≠ none := by
  unfold I2sUnit.actAt
  rcases h with ⟨hlt, -⟩ | ⟨hge, hlt, -⟩
  · rw [if_pos hlt, List.getElem?_eq_getElem hlt]
    nofun
  · have hstart : (prologueActs p u.mode).length ≤ u.frameStart p := Nat.le_add_right _ _
    rw [if_neg (by omega), List.getElem?_eq_getElem (by omega)]
    nofun

theorem UartUnit.Inv.act_ne_none {u : UartUnit} (h : u.Inv) {cmd : UartRun} {i : Nat} (hs : u.io.seq = .running cmd i) :
    (uartActs cmd)[i]? ≠ none := by
  cases cmd with
  | write b =>
    obtain ⟨-, hi, -⟩ := (UartUnit.inv_write hs).mp h
    simp [uartActs, hi]
  | read =>
    obtain ⟨-, hi, -⟩ := (UartUnit.inv_read hs).mp h
    simp [uartActs, hi]

theorem SpiUnit.Inv.act_ne_none {u : SpiUnit} (h : u.Inv) {cmd : SpiRun} {i : Nat} (hs : u.io.seq = .running cmd i) :
    (u.acts cmd)[i]? ≠ none := by
  cases cmd with
  | init bo m =>
    obtain ⟨-, -, -, rfl⟩ := (SpiUnit.inv_init hs).mp h
    simp [SpiUnit.acts]
  | send b =>
    obtain ⟨-, hi, -⟩ := (SpiUnit.inv_send hs).mp h
    simp [SpiUnit.acts, hi]

theorem I2sUnit.event_oneEvent {p : Params} {u v : I2sUnit} (hu : u.Inv p) (hbusy : u.io.seq ≠ .idle)
    (h : u.event p = .ok v) : u.io.OneEvent v.io := by
  rcases I2sUnit.event_cases h with ⟨hidle, -⟩ | ⟨cmd, i, hs, ⟨hover, -⟩ | ⟨a, -, ⟨w, hd, rfl⟩ | ha | ⟨o, w, hr, rfl⟩⟩⟩
  · exact absurd hidle hbusy
  · obtain ⟨-, hplaced⟩ := (I2sUnit.inv_running hs).mp hu
    exact absurd hover hplaced.actAt_ne_none
  · obtain ⟨ev, hw⟩ := I2sUnit.Performed.of_perform (.inl hd)
    obtain ⟨htrace, -⟩ := I2sUnit.advance_io p cmd i w
    exact .of_performed hw.trace hw.outcomes htrace (I2sUnit.advance_outcomeAtEnd p cmd i w)
  · exact absurd ha I2sUnit.perform_ne_again
  · obtain ⟨ev, hw⟩ := I2sUnit.Performed.of_perform (.inr ⟨o, hr⟩)
    exact .of_performed hw.trace hw.outcomes rfl (UnitIo.close_outcomeAtEnd o _ w.io)

/-- A poll made again is one event too, of a command that goes on (rule R114). -/
theorem UartUnit.event_oneEvent {p : Params} {u v : UartUnit} (hu : u.Inv) (hbusy : u.io.seq ≠ .idle)
    (h : u.event p = .ok v) : u.io.OneEvent v.io := by
  rcases UartUnit.event_cases h with ⟨hidle, -⟩ | ⟨cmd, i, hs, ⟨hover, -⟩ | ⟨a, -, ⟨w, hd, rfl⟩ | ha | ⟨o, w, hr, rfl⟩⟩⟩
  · exact absurd hidle hbusy
  · exact absurd hover (hu.act_ne_none hs)
  · obtain ⟨ev, hw⟩ := UartUnit.Performed.of_perform (.inl hd)
    obtain ⟨htrace, -⟩ := UartUnit.advance_shown cmd i w
    exact .of_performed hw.trace hw.outcomes htrace (UartUnit.advance_outcomeAtEnd cmd i w)
  · obtain ⟨ev, hv⟩ := UartUnit.Performed.of_perform (.inr (.inl ha))
    exact .of_performed hv.trace hv.outcomes rfl (.of_running (hv.seq.trans hs) rfl)
  · obtain ⟨ev, hw⟩ := UartUnit.Performed.of_perform (.inr (.inr ⟨o, hr⟩))
    exact .of_performed hw.trace hw.outcomes rfl (UnitIo.close_outcomeAtEnd o _ w.io)

theorem SpiUnit.event_oneEvent {p : Params} {u v : SpiUnit} (hu : u.Inv) (hbusy : u.io.seq ≠ .idle)
    (h : u.event p = .ok v) : u.io.OneEvent v.io := by
  rcases SpiUnit.event_cases h with ⟨hidle, -⟩ | ⟨cmd, i, hs, ⟨hover, -⟩ | ⟨a, -, ⟨w, hd, rfl⟩ | ha | ⟨o, w, hr, rfl⟩⟩⟩
  · exact absurd hidle hbusy
  · exact absurd hover (hu.act_ne_none hs)
  · obtain ⟨ev, hw⟩ := SpiUnit.Performed.of_perform (.inl hd)
    obtain ⟨htrace, -⟩ := SpiUnit.advance_shown cmd i w
    exact .of_performed hw.trace hw.outcomes htrace (SpiUnit.advance_outcomeAtEnd cmd i w)
  · exact absurd ha SpiUnit.perform_ne_again
  · obtain ⟨ev, hw⟩ := SpiUnit.Performed.of_perform (.inr ⟨o, hr⟩)
    exact .of_performed hw.trace hw.outcomes rfl (UnitIo.close_outcomeAtEnd o _ w.io)

theorem Seq.ne_idle_of_busy {c : Type} {q : Seq c} (h : (!q.isIdle) = true) : q ≠ .idle := by
  rintro rfl
  cases h

/-- A transfer of a width that is not reserved starts (rules R67, R95, R97). -/
theorem I2sUnit.transfer_outcomeAtEnd (p : Params) (cmd : I2sRun) {wid : BitVec 2} (hw : widOk wid = true) (u : I2sUnit) :
    u.io.OutcomeAtEnd (u.transfer p cmd wid).io := by
  rw [widOk_eq] at hw
  obtain ⟨n, hn⟩ := Option.isSome_iff_exists.mp hw
  rw [I2sUnit.transfer, hn]
  exact I2sUnit.begin_outcomeAtEnd p cmd n u

/-- An admitted command starts and hands over nothing, or ends at once with its outcome (rules R54, R146). -/
theorem execEffect_outcome {i : Instr} (hwf : i.wellFormed = true) (s : State) :
    (execEffect i s).busy i.unit = true ∧ (execEffect i s).outcomesOf i.unit = s.outcomesOf i.unit ∨
      (execEffect i s).busy i.unit = false ∧ ∃ o, (execEffect i s).outcomesOf i.unit = s.outcomesOf i.unit ++ [o] := by
  cases i with
  | i2sWrite wid => exact I2sUnit.transfer_outcomeAtEnd s.params .write hwf s.i2s
  | i2sWriteStream wid => exact I2sUnit.transfer_outcomeAtEnd s.params .writeStream hwf s.i2s
  | uartWrite _ | uartRead | spiInit _ _ | spiSend _ => exact .inl ⟨rfl, rfl⟩
  | i2sInit _ | i2sRelease | uartInit | uartRelease | spiRead | spiSetBitOrder _ | spiRelease => exact .inr ⟨rfl, _, rfl⟩

/-- Settles O45: under the invariant the position is one of a port event, which the turn makes; the outcome comes with the end of
the command, in a turn as in `exec`. -/
theorem oneEventOneOutcome : Obligations.OneEventOneOutcome := by
  refine ⟨fun u s t hinv h hbusy => ?_, fun i s t h => ?_⟩
  · obtain ⟨hi2s, huart, hspi⟩ := hinv
    rcases unitTurn_cases h with ⟨rfl, x, hx, rfl⟩ | ⟨rfl, x, hx, rfl⟩ | ⟨rfl, x, hx, rfl⟩
    · exact I2sUnit.event_oneEvent hi2s (Seq.ne_idle_of_busy hbusy) hx
    · exact UartUnit.event_oneEvent huart (Seq.ne_idle_of_busy hbusy) hx
    · exact SpiUnit.event_oneEvent hspi (Seq.ne_idle_of_busy hbusy) hx
  · obtain ⟨hr, rfl⟩ := exec_next_iff.mp h
    obtain ⟨hwf, -⟩ := execRefusal_none.mp hr
    exact ⟨execEffect_traceOf i s i.unit, execEffect_outcome hwf s⟩

end Sys2Proof.Machine

/-! ## The whole run of an I2S transfer

Every port event answered `ok`: the events of the spec's trace, the outcome `Ok`, the levels and answers of those events, and
everything else as it was (rules R46 to R48, R87, R93 to R97). -/

namespace Sys2Proof.Machine

/-- `v` is the unit `u` at the first frame of a transfer it started: the prologue is over, the sequences and producers are as
handed over (rules R95, R96, R97). -/
structure I2sUnit.AtFirstFrame (p : Params) (cmd : I2sRun) (n : Width) (u v : I2sUnit) : Prop where
  life     : v.io.life = u.io.life
  outcomes : v.io.outcomes = u.io.outcomes
  mode     : v.mode = u.mode
  seqL     : v.seqL = u.seqL
  seqR     : v.seqR = u.seqR
  prodL    : v.prodL = u.prodL
  prodR    : v.prodR = u.prodR
  width    : v.cur.n = n
  frame    : v.cur.frame = 0
  seq      : v.io.seq = .running cmd (v.frameStart p)
  allOk    : v.io.AllOk .i2s
  shows    : u.Shows v (prologueTrace p u.mode)
  run      : iterEvent (I2sUnit.event p) (prologueTrace p u.mode).length (u.begin p cmd n) = .ok (v.startFrame p cmd)

theorem I2sUnit.exists_atFirstFrame (p : Params) (cmd : I2sRun) (n : Width) {u : I2sUnit} (h : u.io.AllOk .i2s) :
    ∃ v, I2sUnit.AtFirstFrame p cmd n u v := by
  obtain ⟨v, hlife, hout, -, hmode, hseqL, hseqR, hprodL, hprodR, hn, hframe, hok, hshows, hseq, hrun⟩ :=
    I2sUnit.prologue_run (p := p) (cmd := cmd) (n := n) u h
  exact ⟨v, hlife, hout, hmode, hseqL, hseqR, hprodL, hprodR, hn, hframe, hseq, hok, hshows, hrun⟩

/-- The unit after a transfer with the trace `tr` that ended `Ok`; the cursor and the free-value counter are whatever the end of
the command leaves (rules R43, R44). -/
def I2sUnit.transferred (tr : List Event) (cur : Cursor) (fresh : Nat) (pl pr : Producer) (u : I2sUnit) : I2sUnit :=
  { u with
    io     := { u.io with
      drives   := u.io.drives.skip (Config.freeDrive .i2s) (tr.length - ticksIn tr)
      ticks    := u.io.ticks.skip (freeTick .i2s) (ticksIn tr)
      trace    := u.io.trace ++ tr
      outcomes := u.io.outcomes ++ [.ok]
      fresh    := fresh }
    lvlSck := levelOf .i2sSck u.lvlSck tr
    lvlSd  := levelOf .i2sSd u.lvlSd tr
    lvlWs  := levelOf .i2sWs u.lvlWs tr
    cur    := cur
    prodL  := pl
    prodR  := pr }

/-- The end of a command on a unit that shows `tr` since it was IDLE. -/
theorem I2sUnit.Shows.finish_eq {u w : I2sUnit} {tr : List Event} (h : u.Shows w tr) (hidle : u.io.seq = .idle)
    (hlife : w.io.life = u.io.life) (hout : w.io.outcomes = u.io.outcomes) (hmode : w.mode = u.mode) (hseqL : w.seqL = u.seqL)
    (hseqR : w.seqR = u.seqR) :
    w.finish .ok = u.transferred tr (w.finish .ok).cur (w.io.fresh + 2) w.prodL w.prodR := by
  simp only [I2sUnit.finish, I2sUnit.transferred, UnitIo.close, h.drives, h.ticks, h.trace, h.lvlSck, h.lvlSd, h.lvlWs, hidle,
    hlife, hout, hmode, hseqL, hseqR]

/-- The frames of a transfer, run from its first frame to its end, make the transfer. -/
theorem I2sUnit.AtFirstFrame.transferred {p : Params} {cmd : I2sRun} {n : Width} {u v w : I2sUnit} {es : List Event}
    (h : I2sUnit.AtFirstFrame p cmd n u v) (hidle : u.io.seq = .idle) (hsame : I2sUnit.SameTransfer v w) (hshows : v.Shows w es)
    (hrun : iterEvent (I2sUnit.event p) es.length (v.startFrame p cmd) = .ok (w.finish .ok)) :
    ∃ cur fresh, iterEvent (I2sUnit.event p) (prologueTrace p u.mode ++ es).length (u.begin p cmd n) =
      .ok (u.transferred (prologueTrace p u.mode ++ es) cur fresh w.prodL w.prodR) := by
  have hend := (h.shows.trans hshows).finish_eq hidle (hsame.life.trans h.life) (hsame.outcomes.trans h.outcomes)
    (hsame.mode.trans h.mode) (hsame.seqL.trans h.seqL) (hsame.seqR.trans h.seqR)
  refine ⟨(w.finish .ok).cur, w.io.fresh + 2, ?_⟩
  rw [List.length_append, iterEvent_add_ok h.run, hrun, ← hend]

/-- The prologue and the frames of two sequences make the transfer of their slots (rules R47, R95, R96). -/
theorem prologueTrace_append_framesTrace (p : Params) (mode : I2sMode) (n : Width) (l r : List Slot) :
    prologueTrace p mode ++ framesTrace p mode n (wordPairs n l r) = transferTrace p mode n (l.zip r) :=
  transferTrace_wordPairs p mode n l r

section
variable {p : Params} {u : I2sUnit} (n : Width) (hidle : u.io.seq = .idle) (hok : u.io.AllOk .i2s)
include hidle hok

/-- `I2S.WRITE` from its start to its end (rules R46, R95, R96). -/
theorem I2sUnit.write_transferred (hlen : u.seqL.length = u.seqR.length) :
    ∃ cur fresh, (let tr := transferTrace p u.mode n (u.seqL.zip u.seqR)
      iterEvent (I2sUnit.event p) tr.length (u.begin p .write n) = .ok (u.transferred tr cur fresh u.prodL u.prodR)) := by
  obtain ⟨v, hv⟩ := I2sUnit.exists_atFirstFrame p .write n hok
  obtain ⟨w, hsame, hprodL, hprodR, hshows, hrun⟩ := I2sUnit.write_run u.seqL u.seqR hlen v
    (by rw [hv.frame, hv.seqL, List.drop_zero]) (by rw [hv.frame, hv.seqR, List.drop_zero]) hv.seq hv.allOk hv.width
  have h := hv.transferred hidle hsame hshows hrun
  rwa [hprodL, hprodR, hv.prodL, hv.prodR, hv.mode, prologueTrace_append_framesTrace] at h

/-- `I2S.WRITE_STREAM` from its start to its end (rules R48, R96, R97). -/
theorem I2sUnit.stream_transferred {l r : List Slot} {pl pr : Producer} (hframes : u.StreamFrames l r pl pr) :
    ∃ cur fresh, (let tr := transferTrace p u.mode n (l.zip r)
      iterEvent (I2sUnit.event p) tr.length (u.begin p .writeStream n) = .ok (u.transferred tr cur fresh pl pr)) := by
  obtain ⟨v, hv⟩ := I2sUnit.exists_atFirstFrame p .writeStream n hok
  obtain ⟨w, hsame, hprodL, hprodR, hshows, hrun⟩ := I2sUnit.stream_run l r pl pr v
    (by rwa [I2sUnit.StreamFrames, hv.prodL, hv.prodR]) hv.seq hv.allOk hv.width
  have h := hv.transferred hidle hsame hshows hrun
  rwa [hprodL, hprodR, hv.mode, prologueTrace_append_framesTrace] at h

end

theorem runUnit_i2s_ok {k : Nat} {s : State} {u v : I2sUnit} (h : iterEvent (I2sUnit.event s.params) k u = .ok v) :
    runUnit .i2s k { s with i2s := u } = .next { s with i2s := v } := by
  rw [runUnit_i2s]
  exact afterEvent_next.mpr ⟨v, h, rfl⟩

/-- A width field that stands for a width starts a transfer of it (rule R67). -/
theorem I2sUnit.transfer_eq_begin {wid : BitVec 2} {n : Width} (h : widthOf wid = some n) (p : Params) (cmd : I2sRun)
    (u : I2sUnit) : u.transfer p cmd wid = u.begin p cmd n := by
  rw [I2sUnit.transfer, h]
  rfl

theorem widOk_of_widthOf {wid : BitVec 2} {n : Width} (h : widthOf wid = some n) : widOk wid = true := by
  rw [widOk_eq, h]
  rfl

theorem exec_i2sWrite {wid : BitVec 2} {n : Width} {s : State} (hn : widthOf wid = some n) (hready : s.i2s.io.Ready)
    (hlen : s.i2s.seqL.length = s.i2s.seqR.length) :
    exec (.i2sWrite wid) s = .next { s with i2s := s.i2s.begin s.params .write n } := by
  rw [← I2sUnit.transfer_eq_begin hn]
  exact exec_next (widOk_of_widthOf hn) (Seq.not_isIdle.mpr hready.1) hready.2 (fun _ => hlen)

theorem exec_i2sWriteStream {wid : BitVec 2} {n : Width} {s : State} (hn : widthOf wid = some n) (hready : s.i2s.io.Ready) :
    exec (.i2sWriteStream wid) s = .next { s with i2s := s.i2s.begin s.params .writeStream n } := by
  rw [← I2sUnit.transfer_eq_begin hn]
  exact exec_next (widOk_of_widthOf hn) (Seq.not_isIdle.mpr hready.1) hready.2 (fun ⟨_, h⟩ => nomatch h)

/-- Settles O18: the command starts the transfer, whose frames run from the first word of the sequences to their end. -/
theorem i2sWriteResult : Obligations.I2sWriteResult := by
  intro wid n s hn hready hok hlen
  obtain ⟨cur, fresh, hrun⟩ := I2sUnit.write_transferred (p := s.params) n hready.1 hok hlen
  exact ⟨_, _, cur, fresh, exec_i2sWrite hn hready hlen, runUnit_i2s_ok hrun, rfl⟩

/-- Settles O19: the command starts the transfer, whose frames run until a producer ends. -/
theorem i2sWriteStreamResult : Obligations.I2sWriteStreamResult := by
  intro wid n s l r pl pr hn hready hok hframes
  obtain ⟨cur, fresh, hrun⟩ := I2sUnit.stream_transferred (p := s.params) n hready.1 hok hframes
  exact ⟨_, _, cur, fresh, exec_i2sWriteStream hn hready, runUnit_i2s_ok hrun, rfl⟩

end Sys2Proof.Machine

/-! ## Command words

The encoding in numbers: a word's value from `UNIT`, `OP` and `ARG`, the words a row of the opcode map selects, and what the
row reads in them (rules R62 to R80). The two round trips and the reserved words follow. -/

namespace Sys2Proof

open Machine

/-! ### Fields and words -/

@[simp] theorem commandWord_toNat (unit op : BitVec 4) (arg : BitVec 24) :
    (commandWord unit op arg).toNat = unit.toNat * 2 ^ 28 + op.toNat * 2 ^ 24 + arg.toNat := by
  rw [commandWord, BitVec.toNat_append, BitVec.toNat_append, ← Nat.shiftLeft_add_eq_or_of_lt arg.isLt,
    ← Nat.shiftLeft_add_eq_or_of_lt op.isLt, Nat.shiftLeft_eq, Nat.shiftLeft_eq]
  omega

@[simp] theorem cmdField_toNat (c : CmdWord) (lo len : Nat) : (cmdField c lo len).toNat = c.toNat / 2 ^ lo % 2 ^ len := by
  rw [cmdField, BitVec.extractLsb'_toNat, Nat.shiftRight_eq_div_pow]

/-- `ARG` of `SPI.INIT` (rule R69). -/
@[simp] theorem spiInit_arg_toNat (bo mode2 : BitVec 2) : (bo ++ mode2).toNat = bo.toNat * 4 + mode2.toNat := by
  revert bo mode2
  decide

/-! ### The rows of the opcode map -/

/-- How many low bits of `ARG` the fields of a row's command take (rules R65, R75). -/
def OpRow.width (r : OpRow) : Nat := (argWidth (r.pattern.toNat / 2 ^ 28) (r.pattern.toNat / 2 ^ 24 % 16)).getD 0

/-- A row fixes `UNIT`, `OP` and the bits of `ARG` above its fields, which are 0 in its pattern (rules R65, R75). -/
theorem opcodeMap_format : ∀ r ∈ opcodeMap,
    argWidth (r.pattern.toNat / 2 ^ 28) (r.pattern.toNat / 2 ^ 24 % 16) = some r.width ∧ r.width ≤ 24 ∧
    r.pattern.toNat % 2 ^ 24 = 0 ∧ r.mask = BitVec.allOnes 32 <<< r.width := by
  decide

/-- Two rows differ in a bit that both fix (rule R75). -/
theorem opcodeMap_pairwise : opcodeMap.Pairwise (fun r q => r.pattern &&& q.mask ≠ q.pattern &&& r.mask) := by
  decide

/-- A row selects the words whose value is its pattern and whatever its fields hold. -/
theorem OpRow.selects_iff {r : OpRow} (hr : r ∈ opcodeMap) (c : CmdWord) :
    r.selects c = true ↔ c.toNat = r.pattern.toNat + c.toNat % 2 ^ r.width := by
  obtain ⟨-, -, -, hmask⟩ := opcodeMap_format r hr
  rw [OpRow.selects, beq_iff_eq, hmask, ← BitVec.shiftLeft_ushiftRight, ← BitVec.toNat_inj, BitVec.toNat_shiftLeft,
    BitVec.toNat_ushiftRight, Nat.shiftLeft_eq, Nat.shiftRight_eq_div_pow]
  have hc := c.isLt
  have hdiv := Nat.div_add_mod' c.toNat (2 ^ r.width)
  generalize c.toNat / 2 ^ r.width * 2 ^ r.width = kept at hdiv ⊢
  generalize c.toNat % 2 ^ r.width = fields at hdiv ⊢
  omega

/-- What a row reads encodes to the row's pattern with the word's fields. -/
theorem encode_read_toNat : ∀ r ∈ opcodeMap, ∀ c : CmdWord,
    (encode (r.read c)).toNat = r.pattern.toNat + c.toNat % 2 ^ r.width := by
  intro r hr c
  simp only [opcodeMap, List.mem_cons, List.not_mem_nil, or_false] at hr
  rcases hr with rfl | rfl | rfl | rfl | rfl | rfl | rfl | rfl | rfl | rfl | rfl | rfl | rfl <;>
    simp [encode, OpRow.width, argWidth] <;> omega

/-- The row of a command reads it back from its word: each field stands where the format puts it (rules R66 to R71). -/
theorem exists_read_encode (i : Instr) : ∃ r ∈ opcodeMap, r.read (encode i) = i := by
  cases i <;>
    simp [opcodeMap, encode, ← BitVec.toNat_inj] <;> omega

/-- A word selects at most one row (rule R75). -/
theorem OpRow.eq_of_selects {r q : OpRow} {c : CmdWord} (hr : r ∈ opcodeMap) (hq : q ∈ opcodeMap)
    (hrc : r.selects c = true) (hqc : q.selects c = true) : r = q := by
  by_contra hne
  have : Std.Symm (fun r q : OpRow => r.pattern &&& q.mask ≠ q.pattern &&& r.mask) := ⟨fun _ _ h => h.symm⟩
  refine opcodeMap_pairwise.forall hr hq hne ?_
  rw [OpRow.selects, beq_iff_eq] at hrc hqc
  rw [← hrc, ← hqc, BitVec.and_assoc, BitVec.and_assoc, BitVec.and_comm r.mask]

/-- Settles O5: two rows differ in a bit that both fix, and one word has one value there. -/
theorem rowsDisjoint : Obligations.RowsDisjoint := by
  intro c r q hr hq hrc hqc
  obtain rfl := OpRow.eq_of_selects hr hq hrc hqc
  exact ⟨rfl, rfl, rfl⟩

/-! ### The decoder -/

/-- The row the decoder finds is the row the word selects. -/
theorem find?_selects_iff {c : CmdWord} {r : OpRow} :
    opcodeMap.find? (fun r => r.selects c) = some r ↔ r ∈ opcodeMap ∧ r.selects c = true := by
  constructor
  · intro h
    exact ⟨List.mem_of_find?_eq_some h, List.find?_some (p := fun q : OpRow => q.selects c) h⟩
  · rintro ⟨hr, hc⟩
    cases hf : opcodeMap.find? (fun r => r.selects c) with
    | none => exact absurd hc (List.find?_eq_none.mp hf r hr)
    | some q =>
      have hq : q.selects c = true := List.find?_some (p := fun q : OpRow => q.selects c) hf
      rw [OpRow.eq_of_selects hr (List.mem_of_find?_eq_some hf) hc hq]

/-- What the decoder answers: what the selected row reads, if it holds no reserved value (rules R77, R80). -/
theorem decode_eq_ok_iff {c : CmdWord} {i : Instr} :
    decode c = .ok i ↔ ∃ r ∈ opcodeMap, r.selects c = true ∧ r.read c = i ∧ i.wellFormed = true := by
  constructor
  · intro h
    unfold decode at h
    split at h
    · rename_i r hfind
      obtain ⟨hr, hsel⟩ := find?_selects_iff.mp hfind
      split at h
      · rename_i hw
        cases h
        exact ⟨r, hr, hsel, rfl, hw⟩
      · cases h
    · cases h
  · rintro ⟨r, hr, hsel, rfl, hw⟩
    simp only [decode, find?_selects_iff.mpr ⟨hr, hsel⟩, hw, if_true]

/-- Settles O2: the row that reads the command back is the one its word selects. -/
theorem decodeEncode : Obligations.DecodeEncode := by
  intro i hi
  obtain ⟨r, hr, hread⟩ := exists_read_encode i
  have hword := encode_read_toNat r hr (encode i)
  rw [hread] at hword
  exact decode_eq_ok_iff.mpr ⟨r, hr, (OpRow.selects_iff hr _).mpr hword, hread, hi⟩

/-- Settles O3: both words have the selected row's pattern and the same fields. -/
theorem encodeDecode : Obligations.EncodeDecode := by
  intro c i h
  obtain ⟨r, hr, hsel, rfl, hw⟩ := decode_eq_ok_iff.mp h
  refine ⟨BitVec.eq_of_toNat_eq ?_, hw⟩
  rw [encode_read_toNat r hr, ← (OpRow.selects_iff hr c).mp hsel]

/-- Settles O1, by running the decoder on each word. -/
theorem decodeSpecWords : Obligations.DecodeSpecWords := by
  unfold Obligations.DecodeSpecWords
  decide

/-! ### Reserved words -/

/-- Clauses (d) and (e) of rule R77: a field of the format named by `UNIT` and `OP` holds its reserved value. -/
def ReservedValue (unit op arg : Nat) : Prop :=
  (unit = 1 ∧ (op = 1 ∨ op = 2) ∧ arg % 4 = 3) ∨ (unit = 3 ∧ op = 0 ∧ arg / 4 % 4 = 3)

/-- A unit that lists an `OP` is not reserved (rules R63, R64). -/
theorem unit_of_argWidth {unit op w : Nat} (h : argWidth unit op = some w) : 0 < unit ∧ unit < 4 := by
  unfold argWidth at h
  split at h <;> simp at h ⊢

/-- Rule R77 by clauses: a word is free of them when its `OP` has a format that `ARG` keeps to and no field is reserved. -/
theorem not_reservedWord_iff {c : CmdWord} :
    ¬ ReservedWord c ↔
      ∃ w, argWidth (c.toNat / 2 ^ 28) (c.toNat / 2 ^ 24 % 16) = some w ∧ c.toNat % 2 ^ 24 < 2 ^ w ∧
        ¬ ReservedValue (c.toNat / 2 ^ 28) (c.toNat / 2 ^ 24 % 16) (c.toNat % 2 ^ 24) := by
  unfold ReservedWord
  dsimp only
  cases hfmt : argWidth (c.toNat / 2 ^ 28) (c.toNat / 2 ^ 24 % 16) with
  | none => simp
  | some w =>
    obtain ⟨hpos, hlt⟩ := unit_of_argWidth hfmt
    simp [ReservedValue]
    omega

/-- A selected row has the word's `UNIT` and `OP`, and its fields hold the word's whole `ARG`. -/
theorem OpRow.selects_iff_fields {r : OpRow} (hr : r ∈ opcodeMap) (c : CmdWord) :
    r.selects c = true ↔
      r.pattern.toNat / 2 ^ 28 = c.toNat / 2 ^ 28 ∧ r.pattern.toNat / 2 ^ 24 % 16 = c.toNat / 2 ^ 24 % 16 ∧
        c.toNat % 2 ^ 24 < 2 ^ r.width := by
  obtain ⟨-, hwidth, harg, -⟩ := opcodeMap_format r hr
  have hmod : c.toNat % 2 ^ r.width = c.toNat % 2 ^ 24 % 2 ^ r.width :=
    (Nat.mod_mod_of_dvd _ (Nat.pow_dvd_pow 2 hwidth)).symm
  have hle : 2 ^ r.width ≤ 2 ^ 24 := Nat.pow_le_pow_right (by decide) hwidth
  have hlt : c.toNat % 2 ^ r.width < 2 ^ r.width := Nat.mod_lt _ (Nat.two_pow_pos _)
  rw [OpRow.selects_iff hr]
  constructor
  · intro hc
    generalize c.toNat % 2 ^ r.width = fields at hc hlt
    generalize 2 ^ r.width = bound at hle hlt ⊢
    omega
  · rintro ⟨hunit, hop, hfields⟩
    rw [hmod, Nat.mod_eq_of_lt hfields]
    omega

/-- What a row reads holds a reserved value exactly by clauses (d) and (e) of rule R77. -/
theorem wellFormed_read_iff : ∀ r ∈ opcodeMap, ∀ c : CmdWord,
    (r.read c).wellFormed = true ↔
      ¬ ReservedValue (r.pattern.toNat / 2 ^ 28) (r.pattern.toNat / 2 ^ 24 % 16) (c.toNat % 2 ^ 24) := by
  intro r hr c
  simp only [opcodeMap, List.mem_cons, List.not_mem_nil, or_false] at hr
  rcases hr with rfl | rfl | rfl | rfl | rfl | rfl | rfl | rfl | rfl | rfl | rfl | rfl | rfl <;>
    simp [ReservedValue, Instr.wellFormed, widOk, boOk, ← BitVec.toNat_inj]
  omega

/-- An `OP` listed for its `UNIT` has a row (rules R75, R77). -/
theorem exists_row_of_argWidth : ∀ unit < 4, ∀ op < 16, argWidth unit op ≠ none →
    ∃ r ∈ opcodeMap, r.pattern.toNat / 2 ^ 28 = unit ∧ r.pattern.toNat / 2 ^ 24 % 16 = op := by
  decide

/-- The words that decode are those no clause of rule R77 refuses. -/
theorem exists_decode_iff {c : CmdWord} : (∃ i, decode c = .ok i) ↔ ¬ ReservedWord c := by
  rw [not_reservedWord_iff]
  constructor
  · rintro ⟨i, h⟩
    obtain ⟨r, hr, hsel, rfl, hw⟩ := decode_eq_ok_iff.mp h
    obtain ⟨hunit, hop, hfields⟩ := (OpRow.selects_iff_fields hr c).mp hsel
    have hwidth := (opcodeMap_format r hr).1
    have hvalue := (wellFormed_read_iff r hr c).mp hw
    rw [hunit, hop] at hwidth hvalue
    exact ⟨r.width, hwidth, hfields, hvalue⟩
  · rintro ⟨w, hwidth, hfields, hvalue⟩
    obtain ⟨r, hr, hunit, hop⟩ := exists_row_of_argWidth _ (unit_of_argWidth hwidth).2 _ (Nat.mod_lt _ (by decide))
      (Option.ne_none_iff_exists'.mpr ⟨w, hwidth⟩)
    obtain rfl : r.width = w := Option.some.inj ((opcodeMap_format r hr).1.symm.trans (by rw [hunit, hop, hwidth]))
    have hsel := (OpRow.selects_iff_fields hr c).mpr ⟨hunit, hop, hfields⟩
    rw [← hunit, ← hop] at hvalue
    exact ⟨r.read c, decode_eq_ok_iff.mpr ⟨r, hr, hsel, rfl, (wellFormed_read_iff r hr c).mpr hvalue⟩⟩

/-- Settles O4: a word with a clause does not decode, and the host's turn refuses what does not decode. -/
theorem reservedWordsRefused : Obligations.ReservedWordsRefused := by
  rintro s h rest ⟨hhost, hmover⟩
  refine ⟨fun hres => ?_, exists_decode_iff.mpr⟩
  cases hd : decode h.word with
  | ok i => exact absurd hres (exists_decode_iff.mp ⟨i, hd⟩)
  | error e => rw [step_host hmover, hostTurn_reserved (s := s.tookTurn) hhost hd]

/-! ### Operands and results -/

/-- Settles O6: the counts are the lengths, and the two sequences lie one behind the other. -/
theorem operandLayout : Obligations.OperandLayout := by
  intro l r rest hl hr
  have hnl : (BitVec.ofNat 32 l.length).toNat = l.length := by rw [BitVec.toNat_ofNat, Nat.mod_eq_of_lt hl]
  have hnr : (BitVec.ofNat 32 r.length).toNat = r.length := by rw [BitVec.toNat_ofNat, Nat.mod_eq_of_lt hr]
  constructor
  · simp only [serialiseOperands, List.length_cons, List.length_append]
    omega
  · simp [serialiseOperands, parseOperands, hnl, hnr]

/-- A byte leaves the bits above it 0 (rule R76). -/
theorem setWidth_extractLsb'_of_le (b : Byte) {lo : Nat} (h : 8 ≤ lo) (len : Nat) :
    (b.setWidth 32).extractLsb' lo len = 0#len := by
  ext i hi
  rw [BitVec.getElem_extractLsb', BitVec.getLsbD_setWidth, BitVec.getLsbD_of_ge b _ (by omega), Bool.and_false,
    BitVec.getElem_zero]

/-- Settles O8: the status words are constants with no other bit, and a byte is the word's low eight bits. -/
theorem resultWordFields : Obligations.ResultWordFields := by
  intro o
  cases o with
  | okByte b =>
    refine ⟨setWidth_extractLsb'_of_le b (by decide) 4, ?_, setWidth_extractLsb'_of_le b (by decide) 20⟩
    exact (BitVec.extractLsb'_setWidth_of_le (by decide)).trans BitVec.extractLsb'_eq_self
  | _ =>
    simp only [resultWord]
    decide

/-! ### The assembler -/

/-- A command word is its `UNIT` and `OP` over an empty `ARG`, and the field in the low bits (rules R62, R65). -/
theorem commandWord_setWidth (unit op : BitVec 4) {m : Nat} (hm : m ≤ 24) (field : BitVec m) :
    commandWord unit op (field.setWidth 24) = commandWord unit op 0#24 ||| field.setWidth 32 := by
  have happend : unit ++ op ++ field.setWidth 24 = (unit ++ op ++ 0#24) ||| field.setWidth (4 + 4 + 24) := by
    ext i hi
    rw [BitVec.getElem_or, BitVec.getElem_append, BitVec.getElem_append, BitVec.getElem_setWidth]
    by_cases h : i < 24
    · simp [h]
    · simp [h, BitVec.getLsbD_of_ge field i (by omega)]
  exact happend

theorem encode_uartWrite (b : Byte) : encode (.uartWrite b) = 0x21000000#32 ||| b.setWidth 32 :=
  commandWord_setWidth 2#4 1#4 (by decide) b

theorem encode_spiSend (b : Byte) : encode (.spiSend b) = 0x31000000#32 ||| b.setWidth 32 :=
  commandWord_setWidth 3#4 1#4 (by decide) b

theorem encode_i2sWrite (wid : BitVec 2) : encode (.i2sWrite wid) = 0x11000000#32 ||| wid.setWidth 32 :=
  commandWord_setWidth 1#4 1#4 (by decide) wid

theorem encode_i2sWriteStream (wid : BitVec 2) : encode (.i2sWriteStream wid) = 0x12000000#32 ||| wid.setWidth 32 :=
  commandWord_setWidth 1#4 2#4 (by decide) wid

/-- `BO` stands above `MODE2` (rule R69). -/
theorem encode_spiInit (bo k : BitVec 2) :
    encode (.spiInit bo k) = 0x30000000#32 ||| (bo.setWidth 32 <<< 2) ||| k.setWidth 32 := by
  revert bo k
  decide

/-- The word a command encodes to is the one that decodes to it. -/
theorem decode_of_encode_eq {i : Instr} {c : CmdWord} (h : encode i = c) (hw : i.wellFormed = true) : decode c = .ok i :=
  h ▸ decodeEncode i hw

theorem plainCmd_eq_ofWord {i : Instr} {c : CmdWord} (h : encode i = c) : plainCmd i = .ofWord c := by
  rw [plainCmd, h, HostCmd.ofWord]

/-- The line of a command without operands. -/
theorem plainCmd_word {i : Instr} {c : CmdWord} (h : encode i = c) (hw : i.wellFormed = true) :
    some [plainCmd i] = some [HostCmd.ofWord c] ∧ decode c = .ok i :=
  ⟨by rw [plainCmd_eq_ofWord h], decode_of_encode_eq h hw⟩

theorem widOk_widOf (n : Width) : widOk (widOf n) = true := by cases n <;> rfl

theorem boOk_orderField (bo : Option BitOrder) : boOk (orderField bo) = true := by
  rcases bo with _ | _ | _ <;> rfl

/-! ### The assembler's range check -/

theorem fits_iff {n : Width} {w : Int} :
    fits n w = true ↔ -(2 ^ (widthBits n - 1) : Int) ≤ w ∧ w < 2 ^ widthBits n := by
  simp only [fits, Bool.and_eq_true, decide_eq_true_eq]

theorem writeCmd_of_fits {n : Width} {l r : List Int} (h : ∀ w, w ∈ l ∨ w ∈ r → fits n w = true) :
    writeCmd n l r = some { plainCmd (.i2sWrite (widOf n)) with left := l.map slotOf, right := r.map slotOf } := by
  have hl : l.all (fits n) = true := List.all_eq_true.mpr fun w hw => h w (.inl hw)
  have hr : r.all (fits n) = true := List.all_eq_true.mpr fun w hw => h w (.inr hw)
  rw [writeCmd, hl, hr]
  rfl

/-- One element that does not fit is an assembler error (rule R83). -/
theorem writeCmd_of_not_fits {n : Width} {l r : List Int} {w : Int} (hw : w ∈ l ∨ w ∈ r) (h : fits n w ≠ true) :
    writeCmd n l r = none := by
  rw [writeCmd, if_neg]
  rw [Bool.and_eq_true, List.all_eq_true, List.all_eq_true]
  rintro ⟨hl, hr⟩
  exact h (hw.elim (hl w) (hr w))

/-- `i2s.write` with every element in the range of its width, and with one outside it (rules R81, R83). -/
theorem assembleLine_i2sWrite {n : Width} {l r : List Int} {wid : BitVec 2} (hwid : widOf n = wid) :
    ((∀ w, w ∈ l ∨ w ∈ r → -(2 ^ (widthBits n - 1) : Int) ≤ w ∧ w < 2 ^ widthBits n) →
      assembleLine (.i2sWrite n l r) =
        some [⟨0x11000000#32 ||| wid.setWidth 32, l.map (BitVec.ofInt 32), r.map (BitVec.ofInt 32), .empty, .empty⟩]) ∧
    ((∃ w, (w ∈ l ∨ w ∈ r) ∧ (w < -(2 ^ (widthBits n - 1) : Int) ∨ 2 ^ widthBits n ≤ w)) →
      assembleLine (.i2sWrite n l r) = none) ∧
    decode (0x11000000#32 ||| wid.setWidth 32) = .ok (.i2sWrite wid) := by
  subst hwid
  refine ⟨fun h => ?_, ?_, decode_of_encode_eq (encode_i2sWrite _) (widOk_widOf n)⟩
  · rw [assembleLine, writeCmd_of_fits fun w hw => fits_iff.mpr (h w hw), plainCmd, encode_i2sWrite]
    rfl
  · rintro ⟨w, hw, hout⟩
    rw [assembleLine, writeCmd_of_not_fits hw fun hfit => ?_]
    · rfl
    · obtain ⟨hlo, hhi⟩ := fits_iff.mp hfit
      exact hout.elim (not_lt.mpr hlo) (not_le.mpr hhi)

/-- Settles O7: each command's word is the table's, so it decodes to the command; `i2s.write` hands its slots over only when all
its elements fit. -/
theorem assembledWordsDecode : Obligations.AssembledWordsDecode := by
  refine ⟨fun a => ?_, plainCmd_eq_ofWord rfl, fun b => congrArg some (plainCmd_eq_ofWord (encode_uartWrite b)),
    fun o ho => ?_⟩
  · cases a with
    | i2sInit mode => cases mode <;> exact plainCmd_word rfl rfl
    | i2sWrite n l r => cases n <;> exact assembleLine_i2sWrite rfl
    | i2sWriteStream n pl pr =>
      have hdec := decode_of_encode_eq (encode_i2sWriteStream (widOf n)) (widOk_widOf n)
      cases n <;> exact ⟨rfl, hdec⟩
    | uartWrite b => exact plainCmd_word (encode_uartWrite b) rfl
    | spiInit k bo =>
      have hline := plainCmd_word (encode_spiInit (orderField bo) k) (boOk_orderField bo)
      rcases bo with _ | _ | _ <;> exact hline
    | spiSend b => exact plainCmd_word (encode_spiSend b) rfl
    | spiSetBitOrder bo => cases bo <;> exact plainCmd_word rfl rfl
    | i2sFrame n l r => rfl
    | spiTransfer b => exact congrArg (fun c => some [c, plainCmd .spiRead]) (plainCmd_eq_ofWord (encode_spiSend b))
    | _ => exact plainCmd_word rfl rfl
  · cases o with
    | okByte b => exact absurd rfl (ho b)
    | _ => rfl

end Sys2Proof

/-! ## Ticks, levels and edges of the I2S traces

What the environment sees of a word and of a frame (rules R26, R89, R93, R94): how many events and ticks they have, and which
of their events bear on a line. -/

namespace Sys2Proof.Machine

/-! ### Events that leave a line alone -/

/-- No event of the trace drives the line. -/
def Undriven (l : OutLine) (es : List Event) : Prop := ∀ e ∈ es, ∀ v a, e ≠ .drive l v a

section
variable {l : OutLine} {e : Event} {es fs : List Event}

theorem Undriven.sublist (h : Undriven l es) (hsub : fs.Sublist es) : Undriven l fs := fun e he => h e (hsub.subset he)

theorem Undriven.event (h : Undriven l (e :: es)) (lvl : Level) : levelThrough l lvl e = lvl ∧ edgeOf l lvl e = none := by
  have he := h e List.mem_cons_self
  rcases e with ⟨l', v, a⟩ | _ | _
  · have hne : l' ≠ l := fun hl => he v a (hl ▸ rfl)
    cases a <;> simp [levelThrough, edgeOf, hne]
  · exact ⟨rfl, rfl⟩
  · exact ⟨rfl, rfl⟩

theorem Undriven.tail (h : Undriven l (e :: es)) : Undriven l es := h.sublist (List.sublist_cons_self e es)

/-- A line keeps its level while no event drives it (rule R26). -/
theorem Undriven.levelOf (h : Undriven l es) (lvl : Level) : levelOf l lvl es = lvl := by
  induction es with
  | nil => rfl
  | cons e es ih =>
    show Machine.levelOf l (levelThrough l lvl e) es = lvl
    rw [(h.event lvl).1, ih h.tail]

/-- A line has no edge while no event drives it (rule R26). -/
theorem Undriven.edgesIn (h : Undriven l es) (lvl : Level) : edgesIn l lvl es = [] := by
  induction es with
  | nil => rfl
  | cons e es ih =>
    obtain ⟨hlevel, hedge⟩ := h.event lvl
    rw [Machine.edgesIn, hedge, hlevel, ih h.tail]
    rfl

@[simp] theorem edgesIn_nil (l : OutLine) (lvl : Level) : edgesIn l lvl [] = [] := rfl

theorem edgesIn_append (l : OutLine) (lvl : Level) (es fs : List Event) :
    edgesIn l lvl (es ++ fs) = edgesIn l lvl es ++ edgesIn l (levelOf l lvl es) fs := by
  induction es generalizing lvl with
  | nil => rfl
  | cons e es ih =>
    show (edgeOf l lvl e).toList ++ edgesIn l (levelThrough l lvl e) (es ++ fs) = _
    rw [ih, ← List.append_assoc]
    rfl

end

/-! ### Drives of WS -/

@[simp] theorem levelOf_ws_drive (lvl : Level) (v : Bool) (es : List Event) :
    levelOf .i2sWs lvl (dOk .i2sWs v :: es) = levelOf .i2sWs (Level.ofBit v) es := rfl

@[simp] theorem Level.ofBit_true : Level.ofBit true = .high := rfl

@[simp] theorem Level.ofBit_false : Level.ofBit false = .low := rfl

@[simp] theorem edgeOf_ws_rising : edgeOf .i2sWs .low (dOk .i2sWs true) = some .rising := rfl

@[simp] theorem edgeOf_ws_falling : edgeOf .i2sWs .high (dOk .i2sWs false) = some .falling := rfl

@[simp] theorem edgesIn_ws_drive (lvl : Level) (v : Bool) (es : List Event) :
    edgesIn .i2sWs lvl (dOk .i2sWs v :: es) =
      (edgeOf .i2sWs lvl (dOk .i2sWs v)).toList ++ edgesIn .i2sWs (Level.ofBit v) es := rfl

/-! ### Words -/

section
variable (u : Slot) (hi lo : Nat)

@[simp] theorem bitsTrace_length : (bitsTrace u hi lo).length = 5 * (hi - lo) := by
  simp [bitsTrace, bitTrace, Function.comp_def, Nat.mul_comm]

@[simp] theorem ticksIn_bitsTrace : ticksIn (bitsTrace u hi lo) = 2 * (hi - lo) := by
  have hbit : ∀ b, List.countP Event.isWait (bitTrace b) = 2 := fun _ => rfl
  simp [bitsTrace, ticksIn, List.countP_flatten, Function.comp_def, hbit, Nat.mul_comm]

/-- The bits of a word drive `SD` and `SCK` alone (rule R89). -/
theorem bitsTrace_ws_undriven : Undriven .i2sWs (bitsTrace u hi lo) := by
  intro e he v a
  simp only [bitsTrace, bitTrace, List.mem_flatten, List.mem_map] at he
  obtain ⟨_, ⟨j, -, rfl⟩, he⟩ := he
  simp only [List.mem_cons, List.not_mem_nil, or_false] at he
  rcases he with rfl | rfl | rfl | rfl | rfl <;> simp [dOk, wOk]

@[simp] theorem levelOf_ws_bitsTrace (lvl : Level) : levelOf .i2sWs lvl (bitsTrace u hi lo) = lvl :=
  (bitsTrace_ws_undriven u hi lo).levelOf lvl

@[simp] theorem edgesIn_ws_bitsTrace (lvl : Level) : edgesIn .i2sWs lvl (bitsTrace u hi lo) = [] :=
  (bitsTrace_ws_undriven u hi lo).edgesIn lvl

/-- The last bit of a stretch is the lowest one (rule R88). -/
theorem bitsTrace_last {hi : Nat} (h : lo < hi) : bitsTrace u hi lo = bitsTrace u hi (lo + 1) ++ bitTrace (u.getLsbD lo) := by
  have hlen : hi - lo = hi - (lo + 1) + 1 := by omega
  simp [bitsTrace, hlen, List.range'_succ]

end

/-! ### Frames -/

theorem widthBits_pos (n : Width) : 0 < widthBits n := by cases n <;> decide

theorem stdFrameTrace_length {n : Nat} (hn : 0 < n) (l r : Slot) : (stdFrameTrace n l r).length = 10 * n + 2 := by
  simp only [stdFrameTrace, List.length_append, bitsTrace_length, List.length_singleton]
  omega

theorem ljFrameTrace_length (ws : Bool) (n : Nat) (l r : Slot) :
    (ljFrameTrace ws n l r).length = 10 * n + if ws then 2 else 1 := by
  cases ws <;> simp [ljFrameTrace] <;> omega

theorem ticksIn_frameTrace (p : Params) (mode : I2sMode) (n : Width) (l r : Slot) :
    ticksIn (frameTrace p mode n l r) = 4 * widthBits n := by
  have hn := widthBits_pos n
  have hws : ∀ v, ticksIn [dOk .i2sWs v] = 0 := fun _ => rfl
  cases mode with
  | standardI2s =>
    simp only [frameTrace, stdFrameTrace, ticksIn_append, ticksIn_bitsTrace, hws]
    omega
  | leftJustified =>
    have hlead : ticksIn (if p.ljWsPerFrame then [dOk .i2sWs false] else []) = 0 := by split <;> rfl
    simp only [frameTrace, ljFrameTrace, ticksIn_append, ticksIn_bitsTrace, hws, hlead]
    omega

/-- Every frame ends with the lowest bit of its right word (rules R93, R94). -/
theorem frameTrace_last (p : Params) (mode : I2sMode) (n : Width) (l r : Slot) :
    ∃ es, frameTrace p mode n l r = es ++ bitTrace (r.getLsbD 0) := by
  cases mode with
  | standardI2s => exact ⟨_, (congrArg (_ ++ ·) (bitsTrace_last r 0 Nat.one_pos)).trans (List.append_assoc ..).symm⟩
  | leftJustified => exact ⟨_, (congrArg (_ ++ ·) (bitsTrace_last r 0 (widthBits_pos n))).trans (List.append_assoc ..).symm⟩

section
variable (p : Params) (mode : I2sMode) (n : Width) (l r : Slot) (lvl : Level)

@[simp] theorem levelOf_sck_frameTrace : levelOf .i2sSck lvl (frameTrace p mode n l r) = .low := by
  obtain ⟨es, hes⟩ := frameTrace_last p mode n l r
  rw [hes, levelOf_append]
  rfl

@[simp] theorem levelOf_sd_frameTrace : levelOf .i2sSd lvl (frameTrace p mode n l r) = Level.ofBit (r.getLsbD 0) := by
  obtain ⟨es, hes⟩ := frameTrace_last p mode n l r
  rw [hes, levelOf_append]
  rfl

/-- The last drive of WS in a frame is low in StandardI2S and high in LeftJustified (rules R93, R94, R98). -/
@[simp] theorem levelOf_ws_frameTrace :
    levelOf .i2sWs lvl (frameTrace p mode n l r) = if mode = .standardI2s then .low else .high := by
  cases mode <;> simp [frameTrace, stdFrameTrace, ljFrameTrace, levelOf_append]

end

/-! ### Transfers -/

section
variable (p : Params) (mode : I2sMode) (n : Width)

@[simp] theorem transferTrace_nil : transferTrace p mode n [] = prologueTrace p mode := by simp [transferTrace]

theorem transferTrace_concat (fs : List (Slot × Slot)) (f : Slot × Slot) :
    transferTrace p mode n (fs ++ [f]) = transferTrace p mode n fs ++ frameTrace p mode n f.1 f.2 := by
  simp [transferTrace]

/-- The prologue is one drive of WS, or nothing (rule R96). -/
theorem prologueTrace_cases :
    prologueTrace p mode = [] ∨ prologueTrace p mode = [dOk .i2sWs false] := by
  unfold prologueTrace
  split <;> simp

theorem ticksIn_transferTrace (fs : List (Slot × Slot)) : ticksIn (transferTrace p mode n fs) = 4 * widthBits n * fs.length := by
  induction fs using List.reverseRecOn with
  | nil =>
    rw [transferTrace_nil]
    rcases prologueTrace_cases p mode with h | h <;> rw [h] <;> rfl
  | append_singleton fs f ih =>
    rw [transferTrace_concat, ticksIn_append, ih, ticksIn_frameTrace, List.length_append, List.length_singleton, Nat.mul_add,
      Nat.mul_one]

theorem transferTrace_length {k : Nat} (hk : ∀ l r, (frameTrace p mode n l r).length = k) (fs : List (Slot × Slot)) :
    (transferTrace p mode n fs).length = (prologueTrace p mode).length + fs.length * k := by
  simp [transferTrace, List.length_flatten, Function.comp_def, hk]

end

end Sys2Proof.Machine

/-! ## Transfers over frames

The runs of `I2S.WRITE` and `I2S.WRITE_STREAM` as one: the frames sent decide the trace (rules R95, R97). -/

namespace Sys2Proof.Machine

/-- A transfer runs to its end with the trace of its frames and the outcome `Ok` (rules R95, R96, R97). -/
theorem State.I2sTransfer.run {s : State} {i : Instr} {n : Width} {fs : List (Slot × Slot)} (h : s.I2sTransfer i n fs)
    (hready : s.i2s.io.Ready) (hok : s.i2s.io.AllOk .i2s) :
    ∃ t cur fresh pl pr, exec i s = .next t ∧
      (let tr := transferTrace s.params s.i2s.mode n fs
       runUnit .i2s tr.length t = .next { s with i2s := s.i2s.transferred tr cur fresh pl pr }) := by
  cases i with
  | i2sWrite wid =>
    obtain ⟨hn, hlen, rfl⟩ := h
    obtain ⟨cur, fresh, hrun⟩ := I2sUnit.write_transferred (p := s.params) n hready.1 hok hlen
    rw [transferTrace_wordPairs]
    exact ⟨_, cur, fresh, _, _, exec_i2sWrite hn hready hlen, runUnit_i2s_ok hrun⟩
  | i2sWriteStream wid =>
    obtain ⟨hn, l, r, pl, pr, hframes, rfl⟩ := h
    obtain ⟨cur, fresh, hrun⟩ := I2sUnit.stream_transferred (p := s.params) n hready.1 hok hframes
    rw [transferTrace_wordPairs]
    exact ⟨_, cur, fresh, pl, pr, exec_i2sWriteStream hn hready, runUnit_i2s_ok hrun⟩
  | _ => exact h.elim

/-- A width field that is not reserved stands for a width (rule R67). -/
theorem exists_widthOf {wid : BitVec 2} (h : widOk wid = true) : ∃ n, widthOf wid = some n := by
  rw [widOk_eq] at h
  exact Option.isSome_iff_exists.mp h

theorem Draws.first_add {α : Type} (free : Nat → α) (m n : Nat) (d : Draws α) :
    d.first free (m + n) = d.first free m ++ (d.skip free m).first free n := by
  induction m generalizing d with
  | zero => simp [Draws.first]
  | succ m ih => rw [Nat.succ_add, Draws.first, ih, Draws.skip_succ]; rfl

theorem Draws.first_length {α : Type} (free : Nat → α) (n : Nat) (d : Draws α) : (d.first free n).length = n := by
  induction n generalizing d with
  | zero => rfl
  | succ n ih => rw [Draws.first, List.length_cons, ih]

theorem Producer.YieldsThenEnds.yields {side : Side} {ws : List Slot} {p : Producer} (h : p.YieldsThenEnds side ws) :
    p.Yields side ws := by
  rw [Producer.YieldsThenEnds, Draws.first_add] at h
  exact (List.append_inj h (by rw [Draws.first_length, List.length_map])).1

/-- Producers that end together end the stream at `PL`: `PR` is not pulled again (rules R48, R97). -/
theorem I2sUnit.streamFrames_of_both {u : I2sUnit} {l r : List Slot} (hlen : l.length = r.length)
    (hl : u.prodL.YieldsThenEnds .left l) (hr : u.prodR.YieldsThenEnds .right r) :
    u.StreamFrames l r .empty (u.prodR.skip (Config.freePull .right) r.length) :=
  ⟨hlen, .inl ⟨hl, hr.yields, rfl, rfl⟩⟩

/-- Settles O20: the stream's frames are those of the two sequences, and the trace is that of the frames. -/
theorem streamTraceIsWriteTrace : Obligations.StreamTraceIsWriteTrace := by
  intro wid s hwid hready hok hlen hl hr
  obtain ⟨n, hn⟩ := exists_widthOf hwid
  have hwrite : s.I2sTransfer (.i2sWrite wid) n (wordPairs n s.i2s.seqL s.i2s.seqR) := ⟨hn, hlen, rfl⟩
  have hstream : s.I2sTransfer (.i2sWriteStream wid) n (wordPairs n s.i2s.seqL s.i2s.seqR) :=
    ⟨hn, _, _, _, _, I2sUnit.streamFrames_of_both hlen hl hr, rfl⟩
  obtain ⟨a, _, _, _, _, hexec, hrun⟩ := hwrite.run hready hok
  obtain ⟨b, _, _, _, _, hexec', hrun'⟩ := hstream.run hready hok
  exact ⟨_, a, _, b, _, hexec, hexec', hrun, hrun', rfl, rfl, rfl⟩

/-- Settles O22: the levels are those the last frame leaves, or those of the prologue alone. -/
theorem finalI2sLevels : Obligations.FinalI2sLevels := by
  intro i n fs s htransfer hready hok
  obtain ⟨t, _, _, _, _, hexec, hrun⟩ := htransfer.run hready hok
  refine ⟨_, t, _, hexec, hrun, rfl, fun l r hlast => ?_, ?_⟩
  · obtain ⟨init, rfl⟩ := List.getLast?_eq_some_iff.mp hlast
    simp only [I2sUnit.transferred, transferTrace_concat, levelOf_append, levelOf_sck_frameTrace, levelOf_sd_frameTrace,
      levelOf_ws_frameTrace, and_self]
  · rintro rfl
    simp only [I2sUnit.transferred, transferTrace_nil]
    rcases prologueTrace_cases s.params s.i2s.mode with h | h <;> rw [h] <;> exact ⟨rfl, rfl, rfl⟩

end Sys2Proof.Machine

/-! ## WS in a frame

The events of one frame, run from its first position, and the levels and edges they make on WS (rules R93, R94, R101, R102). -/

namespace Sys2Proof.Machine

/-- A running command at the start of a frame makes the events of the frame (rules R93, R94). -/
theorem runUnit_frame {s : State} {cmd : I2sRun} (hok : s.i2s.io.AllOk .i2s)
    (hseq : s.i2s.io.seq = .running cmd (s.i2s.frameStart s.params)) :
    ∃ t, (let tr := frameTrace s.params s.i2s.mode s.i2s.cur.n s.i2s.cur.uL s.i2s.cur.uR
      runUnit .i2s tr.length s = .next t ∧ t.i2s.io.trace = s.i2s.io.trace ++ tr) := by
  obtain ⟨v, -, hshows, -, -, hrun⟩ := I2sUnit.frame_ok (p := s.params) (j := 0) rfl
    (frameActs_ne_nil s.params s.i2s.mode s.i2s.cur.n) hseq hok
  rw [List.drop_zero, ← List.length_map (I2sAct.okEvent s.i2s.cur), frameActs_okEvents] at hrun
  rw [List.drop_zero, frameActs_okEvents] at hshows
  exact ⟨_, runUnit_i2s_ok hrun, (I2sUnit.startFrame_io ..).1.trans hshows.trace⟩

theorem take_of_prefix {es before : List Event} {k : Nat} (h : before <+: es) (hk : before.length = k) :
    es.take k = before := by
  rw [← hk]
  exact (List.prefix_iff_eq_take.mp h).symm

/-! ### StandardI2S -/

/-- A StandardI2S frame cut before and after its two drives of WS, each `n - 1` emissions into its word (rules R93, R101). -/
theorem stdFrameTrace_take {n : Nat} (hn : 0 < n) (l r : Slot) :
    let rise := bitsTrace l n 1 ++ [dOk .i2sWs true]
    let fall := rise ++ bitsTrace l 1 0 ++ bitsTrace r n 1 ++ [dOk .i2sWs false]
    (stdFrameTrace n l r).take (5 * (n - 1)) = bitsTrace l n 1 ∧
    (stdFrameTrace n l r).take (5 * (n - 1) + 1) = rise ∧
    (stdFrameTrace n l r).take (5 * n + 1 + 5 * (n - 1)) = rise ++ bitsTrace l 1 0 ++ bitsTrace r n 1 ∧
    (stdFrameTrace n l r).take (5 * n + 1 + 5 * (n - 1) + 1) = fall := by
  intro rise fall
  have hfall : fall <+: stdFrameTrace n l r := List.prefix_append _ _
  have hright : rise ++ bitsTrace l 1 0 ++ bitsTrace r n 1 <+: stdFrameTrace n l r := (List.prefix_append _ _).trans hfall
  have hrise : rise <+: stdFrameTrace n l r := ((List.prefix_append _ _).trans (List.prefix_append _ _)).trans hright
  refine ⟨take_of_prefix ((List.prefix_append _ _).trans hrise) ?_, take_of_prefix hrise ?_, take_of_prefix hright ?_,
    take_of_prefix hfall ?_⟩ <;>
    simp only [rise, fall, List.length_append, bitsTrace_length, List.length_singleton] <;> omega

/-- Settles O23: of the frame's events the two drives of WS alone make edges there, the first high and the second low. -/
theorem standardWsEdges : Obligations.StandardWsEdges := by
  intro s cmd hmode hok hseq
  obtain ⟨t, hrun, htrace⟩ := runUnit_frame hok hseq
  have hn := widthBits_pos s.i2s.cur.n
  simp only [hmode, frameTrace] at hrun htrace
  have hlen := stdFrameTrace_length hn s.i2s.cur.uL s.i2s.cur.uR
  obtain ⟨hleft, hrise, hright, hfall⟩ := stdFrameTrace_take hn s.i2s.cur.uL s.i2s.cur.uR
  have hedges : ∀ lvl, edgesIn .i2sWs lvl (stdFrameTrace (widthBits s.i2s.cur.n) s.i2s.cur.uL s.i2s.cur.uR) =
      (edgeOf .i2sWs lvl (dOk .i2sWs true)).toList ++ [.falling] := fun lvl => by
    simp [stdFrameTrace, edgesIn_append]
  refine ⟨t, _, hlen ▸ hrun, htrace, hlen, fun _ => ⟨?_, ?_, ?_, ?_, hedges .low⟩, fun _ => hedges .high, fun _ => hedges .x⟩
  · rw [hleft, edgesIn_ws_bitsTrace]
  · rw [hrise]
    simp [edgesIn_append]
  · rw [hright]
    simp [edgesIn_append]
  · rw [hfall]
    simp [edgesIn_append]

/-! ### LeftJustified -/

/-- After a drive of WS the line keeps its level through a stretch of a word (rules R26, R94). -/
theorem levelOf_ws_drive_take (lvl : Level) (v : Bool) (u : Slot) (hi lo k : Nat) :
    levelOf .i2sWs lvl (dOk .i2sWs v :: (bitsTrace u hi lo).take k) = Level.ofBit v :=
  ((bitsTrace_ws_undriven u hi lo).sublist (List.take_sublist k _)).levelOf (Level.ofBit v)

/-- A LeftJustified frame: each word behind its drive of WS (rule R94). -/
theorem ljFrameTrace_eq (n : Nat) (l r : Slot) :
    ljFrameTrace true n l r = (dOk .i2sWs false :: bitsTrace l n 0) ++ (dOk .i2sWs true :: bitsTrace r n 0) := by
  simp [ljFrameTrace]

/-- Settles O24: each word stands between its drive of WS and the next one, and its bits do not drive WS. -/
theorem leftJustifiedWs : Obligations.LeftJustifiedWs := by
  intro s cmd hmode hws hok hseq
  obtain ⟨t, hrun, htrace⟩ := runUnit_frame hok hseq
  simp only [hmode, hws, frameTrace] at hrun htrace
  have hlen := ljFrameTrace_length true (widthBits s.i2s.cur.n) s.i2s.cur.uL s.i2s.cur.uR
  refine ⟨t, _, hlen ▸ hrun, htrace, hlen, ?_⟩
  rw [ljFrameTrace_eq]
  generalize widthBits s.i2s.cur.n = N
  have hleft : (dOk .i2sWs false :: bitsTrace s.i2s.cur.uL N 0).length = 5 * N + 1 := by simp
  have hword : ∀ u, (bitsTrace u N 0).length = 5 * N := fun u => bitsTrace_length u N 0
  refine ⟨fun j h1 h2 => ?_, fun j h1 h2 => ?_, ?_, ?_⟩
  · obtain ⟨k, rfl⟩ := Nat.exists_eq_add_of_le' h1
    rw [List.take_append_of_le_length (by omega), List.take_succ_cons, levelOf_ws_drive_take, Level.ofBit_false]
  · obtain ⟨k, rfl⟩ := Nat.exists_eq_add_of_le h1
    rw [show 5 * N + 2 + k = (dOk .i2sWs false :: bitsTrace s.i2s.cur.uL N 0).length + (k + 1) by omega,
      List.take_length_add_append, levelOf_append, List.take_succ_cons, levelOf_ws_drive_take, Level.ofBit_true]
  · rw [List.cons_append, List.drop_succ_cons, List.drop_zero, List.take_left' (hword _), edgesIn_ws_bitsTrace]
  · rw [show 5 * N + 2 = (dOk .i2sWs false :: bitsTrace s.i2s.cur.uL N 0).length + 1 by omega, List.drop_length_add_append,
      List.drop_succ_cons, List.drop_zero, ← hword s.i2s.cur.uR, List.take_length, edgesIn_ws_bitsTrace]

end Sys2Proof.Machine

/-! ## A stream that never ends

Producers that always yield keep the stream in a frame for ever (rules R48, R97, R168). -/

namespace Sys2Proof.Machine

/-- The producers yield a word at every pull to come (rule R48). -/
structure I2sUnit.Supplied (u : I2sUnit) : Prop where
  left  : u.prodL.All (fun a => a ≠ none) (Config.freePull .left)
  right : u.prodR.All (fun a => a ≠ none) (Config.freePull .right)

theorem pull_of_all {side : Side} {p : Producer} (h : p.All (fun a => a ≠ none) (Config.freePull side)) :
    ∃ w, pull side p = (some w, (p.next (Config.freePull side)).2) := by
  obtain ⟨w, hw⟩ := Option.ne_none_iff_exists'.mp h.next.1
  exact ⟨w, by simp [pull, hw]⟩

section
variable {p : Params} {u : I2sUnit} (h : u.Supplied)
include h

/-- A stream with words to come does not end: each frame start loads a pair (rule R97). -/
theorem I2sUnit.Supplied.startFrame :
    (u.startFrame p .writeStream).io = u.io ∧ (u.startFrame p .writeStream).Supplied := by
  obtain ⟨l, hl⟩ := pull_of_all h.left
  obtain ⟨r, hr⟩ := pull_of_all h.right
  have hstart : u.startFrame p .writeStream = I2sUnit.load p l r
      { u with prodL := (u.prodL.next (Config.freePull .left)).2, prodR := (u.prodR.next (Config.freePull .right)).2 } := by
    simp [I2sUnit.startFrame, hl, hr]
  rw [hstart]
  exact ⟨rfl, h.left.next.2, h.right.next.2⟩

theorem I2sUnit.Supplied.advance (i : Nat) :
    (u.advance p .writeStream i).io = u.io.goto .writeStream (i + 1) ∧ (u.advance p .writeStream i).Supplied := by
  unfold I2sUnit.advance
  split
  · exact I2sUnit.Supplied.startFrame (u := { u with io := u.io.goto .writeStream (i + 1) }) ⟨h.left, h.right⟩
  · split
    · exact I2sUnit.Supplied.startFrame
        (u := { u with io := u.io.goto .writeStream (i + 1), cur := { u.cur with frame := u.cur.frame + 1 } }) ⟨h.left, h.right⟩
    · exact ⟨rfl, h.left, h.right⟩

theorem I2sUnit.Supplied.begin (n : Width) :
    (u.begin p .writeStream n).io = u.io.start .writeStream ∧ (u.begin p .writeStream n).Supplied := by
  by_cases hp : (prologueActs p u.mode).length = 0
  · rw [I2sUnit.begin_frame hp]
    exact I2sUnit.Supplied.startFrame (u := u.opened .writeStream n) ⟨h.left, h.right⟩
  · rw [I2sUnit.begin_prologue hp]
    exact ⟨rfl, h.left, h.right⟩

end

/-- A stream runs at a position of the invariant, every port event to come is answered `ok` and every pull with a word. -/
structure I2sUnit.Endless (p : Params) (u : I2sUnit) : Prop where
  running  : ∃ i, u.io.seq = .running .writeStream i
  inv      : u.Inv p
  allOk    : u.io.AllOk .i2s
  supplied : u.Supplied

/-- One event of such a stream: it goes on, and nothing is handed over. -/
theorem I2sUnit.Endless.event {p : Params} {u : I2sUnit} (h : u.Endless p) :
    ∃ v, u.event p = .ok v ∧ v.Endless p ∧ v.io.outcomes = u.io.outcomes ∧ v.io.trace.length = u.io.trace.length + 1 := by
  obtain ⟨i, hseq⟩ := h.running
  obtain ⟨a, ha⟩ := Option.ne_none_iff_exists'.mp ((I2sUnit.inv_running hseq).mp h.inv).2.actAt_ne_none
  have hev : u.event p = .ok ((u.okAct a).advance p .writeStream i) := by
    rw [I2sUnit.event_running hseq ha, I2sUnit.perform_ok h.allOk, EventEnd.settle_done]
  have hsame := I2sUnit.okAct_sameFrame a u
  obtain ⟨hio, hsupplied⟩ := I2sUnit.Supplied.advance (p := p) (u := u.okAct a)
    ⟨hsame.prodL ▸ h.supplied.left, hsame.prodR ▸ h.supplied.right⟩ i
  refine ⟨_, hev, ⟨⟨i + 1, ?_⟩, I2sUnit.event_inv h.inv hev, ?_, hsupplied⟩, ?_, ?_⟩ <;> rw [hio]
  · rfl
  · exact (I2sUnit.okAct_allOk h.allOk).goto _ _
  · exact hsame.outcomes
  · rw [UnitIo.goto_trace, (I2sUnit.okAct_shows a u).trace, List.length_append, List.length_singleton]

theorem I2sUnit.Endless.iterEvent {p : Params} {u : I2sUnit} (h : u.Endless p) (k : Nat) :
    ∃ v, iterEvent (I2sUnit.event p) k u = .ok v ∧ v.Endless p ∧ v.io.outcomes = u.io.outcomes ∧
      v.io.trace.length = u.io.trace.length + k := by
  induction k generalizing u with
  | zero => exact ⟨u, rfl, h, rfl, rfl⟩
  | succ k ih =>
    obtain ⟨v, hev, hv, hout, htrace⟩ := h.event
    obtain ⟨w, hrun, hw, hout', htrace'⟩ := ih hv
    exact ⟨w, (iterEvent_succ_ok hev k).trans hrun, hw, hout'.trans hout, by omega⟩

/-- Settles O21: the stream starts `Endless`, and every event keeps it so. -/
theorem endlessStream : Obligations.EndlessStream := by
  intro wid s hwid hready hok hl hr
  obtain ⟨n, hn⟩ := exists_widthOf hwid
  obtain ⟨hio, hsupplied⟩ := I2sUnit.Supplied.begin (p := s.params) ⟨hl, hr⟩ n
  have hstart : (s.i2s.begin s.params .writeStream n).Endless s.params :=
    ⟨⟨0, by rw [hio]; rfl⟩, I2sUnit.begin_inv n hready.2 nofun, by rw [hio]; exact hok.start _, hsupplied⟩
  refine ⟨_, exec_i2sWriteStream hn hready, fun k => ?_⟩
  obtain ⟨v, hrun, hv, hout, htrace⟩ := hstart.iterEvent k
  obtain ⟨i, hseq⟩ := hv.running
  rw [hio] at hout htrace
  exact ⟨_, runUnit_i2s_ok hrun, by simp [State.busy, hseq], hout, htrace⟩

end Sys2Proof.Machine

/-! ## Ticks and events of each command

Every port event answered `ok`: the runs of the UART and SPI commands to their end, and the counts of rule R187. -/

namespace Sys2Proof.Machine

theorem runUnit_one (u : UnitId) (s : State) : runUnit u 1 s = unitTurn u s := by
  cases h : unitTurn u s <;> simp [runUnit, h]

theorem exists_of_length_eq_eight {α : Type} {l : List α} (h : l.length = 8) :
    ∃ a b c d e f g i, l = [a, b, c, d, e, f, g, i] := by
  match l, h with
  | [a, b, c, d, e, f, g, i], _ => exact ⟨a, b, c, d, e, f, g, i, rfl⟩

/-! ### Runs of the UART -/

theorem runUnit_uart_ok {k : Nat} {s : State} {u v : UartUnit} (h : iterEvent (UartUnit.event s.params) k u = .ok v) :
    runUnit .uart k { s with uart := u } = .next { s with uart := v } := by
  rw [runUnit_uart]
  exact afterEvent_next.mpr ⟨v, h, rfl⟩

/-- The port events of a write are drives and waits (rule R110). -/
theorem UartUnit.answeredAll_write (p : Params) (b : Byte) (i : Nat) (l : List UartAct) (u : UartUnit)
    (hl : ∀ a ∈ l, a ≠ .poll ∧ a ≠ .sample) : u.AnsweredAll p (.write b) i l := by
  induction l generalizing i u with
  | nil => trivial
  | cons a l ih =>
    refine ⟨?_, ih _ _ fun b hb => hl b (List.mem_cons_of_mem a hb)⟩
    obtain ⟨hpoll, hsample⟩ := hl a List.mem_cons_self
    cases a <;> trivial

theorem uartActs_ne_nil (cmd : UartRun) : uartActs cmd ≠ [] := by
  cases cmd with
  | write b => exact (by decide : uartWriteActs ≠ [])
  | read => exact (by decide : uartReadActs ≠ [])

/-- A whole UART command answered `ok`, by the unit its port events leave. -/
theorem UartUnit.command_run {p : Params} {cmd : UartRun} {u w : UartUnit} (hend : u.okRun p cmd 0 (uartActs cmd) = w)
    (hanswered : u.AnsweredAll p cmd 0 (uartActs cmd)) (hseq : u.io.seq = .running cmd 0) (hok : u.io.AllOk .uart) :
    iterEvent (UartUnit.event p) (uartActs cmd).length u = .ok (w.finish (w.outcome cmd)) := by
  subst hend
  exact UartUnit.run_ok rfl (uartActs_ne_nil cmd) hseq hok hanswered

/-- `UART.WRITE` from its start to its end (rules R108, R110). -/
theorem UartUnit.write_run (p : Params) (byte : Byte) {u : UartUnit} (hok : u.io.AllOk .uart) :
    ∃ tx n, iterEvent (UartUnit.event p) 20 { u with io := u.io.start (.write byte), txsr := byte, bitcnt := 0#4 } =
      .ok (UartUnit.finish .ok { u with
        io     := { u.io with
          seq    := .running (.write byte) 20
          drives := u.io.drives.skip (Config.freeDrive .uart) 10
          ticks  := u.io.ticks.skip (freeTick .uart) 10
          trace  := u.io.trace ++ uartWriteTrace byte }
        lvlTx  := .high
        txsr   := tx
        bitcnt := n }) := by
  obtain ⟨tx, n, hend⟩ := UartUnit.okRun_write p byte u.io.life (.running (.write byte) 0) u.io.drives u.io.ticks u.io.trace
    u.io.outcomes u.io.fresh u.lvlTx u.rx u.rxacc
  have hacts : ∀ a ∈ uartWriteActs, a ≠ .poll ∧ a ≠ .sample := by decide
  exact ⟨tx, n, UartUnit.command_run hend (UartUnit.answeredAll_write p byte 0 _ _ hacts) rfl hok⟩

/-- `UART.READ` from its start to its end: the high polls, then the frame (rules R113 to R116). -/
theorem UartUnit.read_run (p : Params) {polls : Nat} {samples : List Bool} {u : UartUnit} (hlen : samples.length = 8)
    (hok : u.io.AllOk .uart) (hrx : u.rx.Levels .uartRx (List.replicate polls true ++ false :: samples)) :
    iterEvent (UartUnit.event p) (polls + 19) { u with io := u.io.start .read, bitcnt := 0#4 } =
      .ok (UartUnit.finish (.okByte (samples.foldl (assemble p.uartRxOrder) 0#8)) { u with
        io     := { u.io with
          seq   := .running .read 19
          ticks := u.io.ticks.skip (freeTick .uart) 10
          trace := u.io.trace ++ uartReadTrace polls samples }
        rx     := u.rx.skip (Config.freeSample .uart) (polls + 9)
        rxacc  := samples.foldl (assemble p.uartRxOrder) 0#8
        bitcnt := 8#4 }) := by
  have hpolls := UartUnit.polls p polls { u with io := u.io.start .read, bitcnt := 0#4 } (false :: samples) rfl hrx
  have hframe := hrx.append.2
  rw [List.length_replicate] at hframe
  obtain ⟨a, b, c, d, e, f, g, h, rfl⟩ := exists_of_length_eq_eight hlen
  obtain ⟨hanswered, hend⟩ := UartUnit.okRun_read p u.io.life (.running .read 0) u.io.drives u.io.ticks
    (u.io.trace ++ List.replicate polls (sAt .uartRx true)) u.io.outcomes u.io.fresh u.lvlTx
    (u.rx.skip (Config.freeSample .uart) polls) u.txsr u.rxacc a b c d e f g h hframe
  refine (iterEvent_add_ok hpolls 19).trans ((UartUnit.command_run hend hanswered rfl hok).trans ?_)
  simp [UartUnit.outcome, uartReadTrace, Draws.skip_add]

/-! ### Runs of the SPI unit -/

theorem runUnit_spi_ok {k : Nat} {s : State} {u v : SpiUnit} (h : iterEvent (SpiUnit.event s.params) k u = .ok v) :
    runUnit .spi k { s with spi := u } = .next { s with spi := v } := by
  rw [runUnit_spi]
  exact afterEvent_next.mpr ⟨v, h, rfl⟩

/-- `SPI.SEND` from its start to its end (rules R125 to R134). -/
theorem SpiUnit.send_run (p : Params) (byte : Byte) {samples : List Bool} {u : SpiUnit} (hlen : samples.length = 8)
    (hok : u.io.AllOk .spi) (hmiso : u.miso.Levels .spiMiso samples) :
    iterEvent (SpiUnit.event p) 48 { u with io := u.io.start (.send byte), rxacc := 0#8, bitcnt := 0#4 } =
      .ok (SpiUnit.finish .ok { u with
        io      := { u.io with
          seq    := .running (.send byte) 48
          drives := u.io.drives.skip (Config.freeDrive .spi) 24
          ticks  := u.io.ticks.skip (freeTick .spi) 16
          trace  := u.io.trace ++ spiSendTrace u.cpol u.cpha ((List.range 8).map (txBit u.bitOrder byte)) samples }
        lvlSck  := Level.ofBit u.cpol
        lvlMosi := Level.ofBit (txBit u.bitOrder byte 7)
        miso    := u.miso.skip (Config.freeSample .spi) 8
        rxbuf   := samples.foldl shiftIn 0#8
        rxvalid := true
        rxacc   := samples.foldl shiftIn 0#8
        bitcnt  := 8#4 }) := by
  obtain ⟨a, b, c, d, e, f, g, h, rfl⟩ := exists_of_length_eq_eight hlen
  obtain ⟨hanswered, hend⟩ := SpiUnit.okRun_send p byte u.io.life (.running (.send byte) 0) u.io.drives u.io.ticks u.io.trace
    u.io.outcomes u.io.fresh u.lvlSck u.lvlMosi u.miso u.cpol u.cpha u.bitOrder u.rxbuf u.rxvalid a b c d e f g h hmiso
  have hacts : spiSendActs u.cpol u.cpha byte ≠ [] := List.ne_nil_of_length_eq_add_one (spiSendActs_length ..)
  have hrun := SpiUnit.run_ok (p := p) (byte := byte) (i := 0)
    (u := { u with io := u.io.start (.send byte), rxacc := 0#8, bitcnt := 0#4 }) rfl hacts rfl hok hanswered
  rw [SpiUnit.acts, List.drop_zero, spiSendActs_length] at hrun
  exact hrun.trans (congrArg (fun w => Except.ok (SpiUnit.finish .ok w)) hend)

/-! ### Counts -/

theorem uartWriteTrace_counts (b : Byte) : ticksIn (uartWriteTrace b) = 10 ∧ (uartWriteTrace b).length = 20 := ⟨rfl, rfl⟩

theorem uartReadTrace_counts (polls : Nat) {samples : List Bool} (h : samples.length = 8) :
    ticksIn (uartReadTrace polls samples) = 10 ∧ (uartReadTrace polls samples).length = polls + 1 + 8 + 10 := by
  obtain ⟨a, b, c, d, e, f, g, i, rfl⟩ := exists_of_length_eq_eight h
  have hpolls : ticksIn (List.replicate polls (sAt .uartRx true)) = 0 := by
    simp [ticksIn, List.countP_replicate, sAt, Event.isWait]
  constructor
  · rw [uartReadTrace, List.append_assoc, List.append_assoc, ticksIn_append, hpolls]
    rfl
  · simp [uartReadTrace]

theorem spiSendTrace_counts (cpol cpha : Bool) (order : BitOrder) (byte : Byte) {samples : List Bool} (h : samples.length = 8) :
    ticksIn (spiSendTrace cpol cpha ((List.range 8).map (txBit order byte)) samples) = 16 ∧
      (spiSendTrace cpol cpha ((List.range 8).map (txBit order byte)) samples).length = 48 := by
  obtain ⟨a, b, c, d, e, f, g, i, rfl⟩ := exists_of_length_eq_eight h
  cases cpol <;> cases cpha <;> exact ⟨rfl, rfl⟩

/-- The events of a StandardI2S transfer: the prologue's drive and the frames (rules R93, R96, R187). -/
theorem transferTrace_std_length (p : Params) (n : Width) (fs : List (Slot × Slot)) :
    (transferTrace p .standardI2s n fs).length =
      (if p.stdWsPrologue then 1 else 0) + fs.length * (10 * widthBits n + 2) := by
  rw [transferTrace_length p .standardI2s n (stdFrameTrace_length (widthBits_pos n))]
  cases hw : p.stdWsPrologue <;> simp [prologueTrace, hw]

/-- The events of a LeftJustified transfer: WS is driven low in every frame, or once before them (rules R94, R96, R187). -/
theorem transferTrace_lj_length (p : Params) (n : Width) (fs : List (Slot × Slot)) :
    (transferTrace p .leftJustified n fs).length =
      if p.ljWsPerFrame then fs.length * (10 * widthBits n + 2) else 1 + fs.length * (10 * widthBits n + 1) := by
  rw [transferTrace_length p .leftJustified n (ljFrameTrace_length p.ljWsPerFrame (widthBits n))]
  cases hw : p.ljWsPerFrame <;> simp [prologueTrace, hw]

/-- Settles O56: each command runs to its end with the trace whose ticks and events are counted above; the others make none. -/
theorem tickAndEventCounts : Obligations.TickAndEventCounts := by
  refine ⟨?_, ?_, ?_, ?_, ?_, ?_⟩
  · intro i n fs s htransfer hready hok
    obtain ⟨t, _, _, _, _, hexec, hrun⟩ := htransfer.run hready hok
    refine ⟨t, _, _, hexec, hrun, rfl, rfl, ticksIn_transferTrace .., ?_⟩
    cases s.i2s.mode with
    | standardI2s => exact transferTrace_std_length s.params n fs
    | leftJustified => exact transferTrace_lj_length s.params n fs
  · rintro byte s ⟨hseq, hlife⟩ hok
    obtain ⟨_, _, hrun⟩ := UartUnit.write_run s.params byte hok
    exact ⟨_, _, uartWriteTrace byte, exec_next rfl (Seq.not_isIdle.mpr hseq) hlife (fun ⟨_, h⟩ => nomatch h),
      runUnit_uart_ok hrun, rfl, rfl, uartWriteTrace_counts byte⟩
  · rintro polls samples s hlen ⟨hseq, hlife⟩ hok hrx
    have hcounts := uartReadTrace_counts polls hlen
    have hrun := UartUnit.read_run s.params hlen hok hrx
    exact ⟨_, _, uartReadTrace polls samples, _, exec_next rfl (Seq.not_isIdle.mpr hseq) hlife (fun ⟨_, h⟩ => nomatch h),
      hcounts.2 ▸ runUnit_uart_ok hrun, rfl, rfl, hcounts⟩
  · rintro bo m s hbo hnew hok
    obtain ⟨t, _, _, _, _, _, hexec, hturn, rfl⟩ := spiInitResult bo m s hbo hnew hok.1.next.1
    exact ⟨t, _, [dOk .spiSck (m.getLsbD 1)], hexec, (runUnit_one .spi t).trans hturn, rfl, rfl, rfl, rfl⟩
  · rintro byte samples s hlen ⟨hseq, hlife⟩ hok hmiso
    have hcounts := spiSendTrace_counts s.spi.cpol s.spi.cpha s.spi.bitOrder byte hlen
    have hrun := SpiUnit.send_run s.params byte hlen hok hmiso
    exact ⟨_, _, _, exec_next rfl (Seq.not_isIdle.mpr hseq) hlife (fun ⟨_, h⟩ => nomatch h),
      hcounts.2 ▸ runUnit_spi_ok hrun, rfl, rfl, hcounts⟩
  · intro i s t hexec hi
    obtain ⟨-, rfl⟩ := exec_next_iff.mp hexec
    refine ⟨execEffect_traceOf i s i.unit, ?_⟩
    rcases hi with ⟨m, rfl⟩ | rfl | rfl | ⟨b, rfl⟩ | rfl | rfl | rfl <;> exact ⟨rfl, _, rfl⟩

end Sys2Proof.Machine

/-! ## A serial frame written

`UART.WRITE` from the command to its outcome, and the slots of its trace as the bits of the frame (rules R108, R110, R111). -/

namespace Sys2Proof.Machine

section
variable {s : State} (hready : s.uart.io.Ready)
include hready

theorem exec_uartWrite (byte : Byte) : exec (.uartWrite byte) s = .next (execEffect (.uartWrite byte) s) :=
  exec_next rfl (Seq.not_isIdle.mpr hready.1) hready.2 (fun ⟨_, h⟩ => nomatch h)

theorem exec_uartRead : exec .uartRead s = .next (execEffect .uartRead s) :=
  exec_next rfl (Seq.not_isIdle.mpr hready.1) hready.2 (fun ⟨_, h⟩ => nomatch h)

end

/-- The end of a command: `SEQ`, the outcome, and values for what it leaves unspecified (rules R43, R44, R152). -/
theorem UartUnit.exists_finish_eq (o : CmdOutcome) (u : UartUnit) :
    ∃ txsr rxacc bitcnt fresh, u.finish o = { u with
      io     := { u.io with seq := .idle, outcomes := u.io.outcomes ++ [o], fresh := fresh }
      txsr   := txsr
      rxacc  := rxacc
      bitcnt := bitcnt } := ⟨_, _, _, _, rfl⟩

/-- Settles O26: the run ends in `finish`, which puts `SEQ` back to IDLE and changes transient registers alone. -/
theorem uartWriteResult : Obligations.UartWriteResult := by
  intro byte s hready hok
  obtain ⟨_, _, hrun⟩ := UartUnit.write_run s.params byte hok
  obtain ⟨txsr, rxacc, bitcnt, fresh, hfinish⟩ := UartUnit.exists_finish_eq .ok _
  rw [hfinish, ← hready.1] at hrun
  exact ⟨_, _, txsr, rxacc, bitcnt, fresh, exec_uartWrite hready byte, runUnit_uart_ok hrun, rfl⟩

/-! ### Slots -/

/-- The bits of a serial frame in the order of their slots: start, data from bit 0 up, stop (rule R108). -/
def frameBits (b : Byte) : List Bool := false :: (List.range' 0 8).map (fun i => b.getLsbD i) ++ [true]

/-- The trace of a write is a slot for each bit of its frame (rule R110). -/
theorem uartWriteTrace_eq (b : Byte) : uartWriteTrace b = ((frameBits b).map txSlot).flatten := rfl

theorem frameBits_data (b : Byte) {i : Nat} (h : i < 8) : (frameBits b)[1 + i]? = some (b.getLsbD i) := by
  rw [Nat.add_comm, frameBits, List.cons_append, List.getElem?_cons_succ, List.getElem?_append_left (by simpa using h)]
  simp [h]

/-- In the trace of a list of bits, `TX` is at bit `j` during slot `j`, whatever its level was before (rules R13, R26). -/
theorem slotLevel_txSlots {vs : List Bool} {j : Nat} {v : Bool} (h : vs[j]? = some v) (lvl : Level) :
    slotLevel .uartTx lvl (vs.map txSlot).flatten j = Level.ofBit v := by
  induction vs generalizing j lvl with
  | nil => simp at h
  | cons w vs ih =>
    cases j with
    | zero =>
      obtain rfl : w = v := by simpa using h
      rfl
    | succ j => exact ih (by simpa using h) (Level.ofBit w)

theorem slotLevel_uartWriteTrace {b : Byte} {j : Nat} {v : Bool} (h : (frameBits b)[j]? = some v) (lvl : Level) :
    slotLevel .uartTx lvl (uartWriteTrace b) j = Level.ofBit v := by
  rw [uartWriteTrace_eq]
  exact slotLevel_txSlots h lvl

/-- Settles O27: slot `j` of the trace is at bit `j` of the frame. -/
theorem uartSlotLevels : Obligations.UartSlotLevels := by
  intro byte s hready hok
  obtain ⟨t, t', _, _, _, _, hexec, hrun, rfl⟩ := uartWriteResult byte s hready hok
  exact ⟨t, _, uartWriteTrace byte, hexec, hrun, rfl, (uartWriteTrace_counts byte).1,
    slotLevel_uartWriteTrace (v := false) rfl _, fun i hi => slotLevel_uartWriteTrace (frameBits_data byte hi) _,
    slotLevel_uartWriteTrace (v := true) rfl _, rfl⟩

end Sys2Proof.Machine

/-! ## A serial frame read

How samples assemble, `UART.READ` from the command to its outcome or polling for ever, and the byte a writer sent
(rules R113 to R118). -/

namespace Sys2Proof.Machine

/-! ### Assembly -/

/-- `LsbFirst`: the sample enters at bit 7, and every other bit comes from the one above it (rule R116). -/
theorem getLsbD_assemble_lsbFirst (acc : Byte) (v : Bool) {k : Nat} (hk : k < 8) :
    (assemble .lsbFirst acc v).getLsbD k = if k = 7 then v else acc.getLsbD (k + 1) := by
  rw [assemble, BitVec.getLsbD_or, BitVec.getLsbD_ushiftRight, BitVec.getLsbD_shiftLeft, BitVec.getLsbD_setWidth,
    BitVec.getLsbD_ofBool, Nat.add_comm 1 k]
  by_cases h7 : k = 7
  · simp [h7]
  · have hlow : k < 7 := by omega
    simp [h7, hlow]

/-- `MsbFill`: the sample enters at bit 0, and every other bit comes from the one below it (rule R116). -/
theorem getLsbD_assemble_msbFill (acc : Byte) (v : Bool) {k : Nat} (hk : k < 8) :
    (assemble .msbFill acc v).getLsbD k = if k = 0 then v else acc.getLsbD (k - 1) := by
  rw [assemble, BitVec.getLsbD_or, BitVec.getLsbD_shiftLeft, BitVec.getLsbD_setWidth, BitVec.getLsbD_ofBool]
  by_cases h0 : k = 0
  · simp [h0]
  · simp [hk, h0]

/-- The bits of a reversed byte. -/
theorem getLsbD_reverse_byte (b : Byte) {k : Nat} (hk : k < 8) : b.reverse.getLsbD k = b.getLsbD (7 - k) := by
  rw [BitVec.getLsbD_reverse, BitVec.getMsbD_eq_getLsbD, decide_eq_true hk, Bool.true_and]

/-- The two orders mirror each other. -/
theorem assemble_msbFill_reverse (acc : Byte) (v : Bool) :
    assemble .msbFill acc.reverse v = (assemble .lsbFirst acc v).reverse := by
  refine BitVec.eq_of_getLsbD_eq fun k hk => ?_
  rw [getLsbD_assemble_msbFill _ _ hk, getLsbD_reverse_byte _ hk, getLsbD_assemble_lsbFirst _ _ (by omega)]
  rcases Nat.eq_zero_or_pos k with rfl | hpos
  · rfl
  · rw [if_neg (by omega), if_neg (by omega), getLsbD_reverse_byte _ (by omega)]
    congr 1
    omega

theorem foldl_msbFill (acc : Byte) (vs : List Bool) :
    vs.foldl (assemble .msbFill) acc = (vs.foldl (assemble .lsbFirst) acc.reverse).reverse := by
  rw [← List.foldl_hom BitVec.reverse assemble_msbFill_reverse, BitVec.reverse_reverse_eq]

/-- What the accumulator held moves down one bit per sample. -/
theorem getLsbD_foldl_lsbFirst (acc : Byte) (vs : List Bool) {k : Nat} (h : k + vs.length < 8) :
    (vs.foldl (assemble .lsbFirst) acc).getLsbD k = acc.getLsbD (k + vs.length) := by
  induction vs generalizing acc with
  | nil => rfl
  | cons v vs ih =>
    rw [List.length_cons] at h ⊢
    rw [List.foldl_cons, ih _ (by omega), getLsbD_assemble_lsbFirst _ _ (by omega), if_neg (by omega), Nat.add_assoc]

/-- Samples end in order, the last one in bit 7. -/
theorem sample_eq_getLsbD_foldl_lsbFirst (acc : Byte) (vs : List Bool) {k n : Nat} (hn : n + vs.length = 8) (hk : k < vs.length) :
    vs[k]? = some ((vs.foldl (assemble .lsbFirst) acc).getLsbD (n + k)) := by
  induction vs generalizing acc k n with
  | nil => cases hk
  | cons v vs ih =>
    rw [List.length_cons] at hn hk
    cases k with
    | zero =>
      rw [List.foldl_cons, getLsbD_foldl_lsbFirst _ _ (by omega), getLsbD_assemble_lsbFirst _ _ (by omega), if_pos (by omega)]
      rfl
    | succ k =>
      rw [List.getElem?_cons_succ, ih (assemble .lsbFirst acc v) (n := n + 1) (by omega) (by omega), List.foldl_cons,
        Nat.add_right_comm, Nat.add_assoc]

/-- The bit of the byte that sample `k` of eight ends in, whatever the accumulator held (rule R116). -/
theorem sample_eq_getLsbD (order : UartRxOrder) (acc : Byte) {samples : List Bool} (hlen : samples.length = 8) {k : Nat}
    (hk : k < 8) :
    samples[k]? = some ((samples.foldl (assemble order) acc).getLsbD (if order = .lsbFirst then k else 7 - k)) := by
  have hlsb (acc : Byte) := sample_eq_getLsbD_foldl_lsbFirst acc samples (n := 0) (by omega) (hlen ▸ hk)
  simp only [Nat.zero_add] at hlsb
  cases order with
  | lsbFirst => exact hlsb acc
  | msbFill =>
    rw [if_neg nofun, foldl_msbFill, getLsbD_reverse_byte _ (by omega), Nat.sub_sub_self (by omega)]
    exact hlsb _

/-- Settles O29: one sample by the shift of its order, eight by the positions they end in. -/
theorem uartAssembly : Obligations.UartAssembly := by
  refine fun acc => ⟨fun v => ⟨?_, ?_, fun k hk => ⟨?_, ?_⟩⟩, fun samples hlen k hk =>
    ⟨sample_eq_getLsbD .lsbFirst acc hlen hk, sample_eq_getLsbD .msbFill acc hlen hk⟩⟩
  · rw [getLsbD_assemble_lsbFirst _ _ (by omega), if_pos rfl]
  · rw [getLsbD_assemble_msbFill _ _ (by omega), if_pos rfl]
  · rw [getLsbD_assemble_lsbFirst _ _ (by omega), if_neg (by omega)]
  · rw [getLsbD_assemble_msbFill _ _ (by omega), if_neg (by omega), Nat.add_sub_cancel]

/-! ### The command -/

/-- Settles O28: the run ends in `finish` with the eight samples assembled. -/
theorem uartReadResult : Obligations.UartReadResult := by
  intro polls samples s hlen hready hok hrx
  have hrun := UartUnit.read_run s.params hlen hok hrx
  obtain ⟨txsr, rxacc, bitcnt, fresh, hfinish⟩ := UartUnit.exists_finish_eq (.okByte _) _
  rw [hfinish, ← hready.1] at hrun
  exact ⟨_, _, _, txsr, rxacc, bitcnt, fresh, exec_uartRead hready, runUnit_uart_ok hrun,
    fun k hk => sample_eq_getLsbD s.params.uartRxOrder 0#8 hlen hk, rfl⟩

/-- A line that samples at one level for ever, as the levels of its next samples. -/
theorem Draws.All.levels {l : InLine} {v : Bool} {d : Draws SampleAnswer}
    (h : d.All (fun a => a = .level v) (Config.freeSample l.unit)) (n : Nat) : d.Levels l (List.replicate n v) := by
  rw [Draws.Levels, List.length_replicate, List.map_replicate]
  induction n generalizing d with
  | zero => rfl
  | succ n ih =>
    obtain ⟨hnext, hrest⟩ := h.next
    rw [Draws.first, hnext, ih hrest, List.replicate_succ]

/-- Settles O30: every event is a high poll, which keeps the position. -/
theorem uartReadUnbounded : Obligations.UartReadUnbounded := by
  intro s hready hrx
  refine ⟨_, exec_uartRead hready, fun k => ⟨_, runUnit_uart_ok (UartUnit.polls s.params k _ [] rfl ?_), rfl, rfl, rfl⟩⟩
  rw [List.append_nil]
  exact hrx.levels k

/-! ### What the writer sent -/

theorem Level.ofBit_injective : Function.Injective Level.ofBit := by decide

/-- A byte whose bits stand where the order puts the samples is the one sampled, or its reversal (rules R116, R118). -/
theorem eq_of_sampled {order : UartRxOrder} {byte received : Byte}
    (h : ∀ k < 8, received.getLsbD (if order = .lsbFirst then k else 7 - k) = byte.getLsbD k) :
    received = if order = .lsbFirst then byte else byte.reverse := by
  refine BitVec.eq_of_getLsbD_eq fun k hk => ?_
  cases order with
  | lsbFirst => exact h k hk
  | msbFill =>
    have hmirror := h (7 - k) (by omega)
    rw [if_neg nofun, Nat.sub_sub_self (by omega)] at hmirror
    rw [if_neg nofun, getLsbD_reverse_byte _ hk, hmirror]

/-- Settles O31: the samples are the byte's bits, and each stands in the received byte where the order puts it. -/
theorem uartRoundTrip : Obligations.UartRoundTrip := by
  refine ⟨fun byte w r polls samples hwready hwok hready hok hlen hrx hslots => ?_, by decide⟩
  obtain ⟨_, _, _, hwexec, hwrun, htrace, -, -, hdata, -⟩ := uartSlotLevels byte w hwready hwok
  obtain ⟨t, t', received, _, _, _, _, hexec, hrun, hsamples, rfl⟩ := uartReadResult polls samples r hlen hready hok hrx
  have hbyte := eq_of_sampled (order := r.params.uartRxOrder) (byte := byte) (received := received) fun k hk =>
    Level.ofBit_injective ((hslots _ _ _ hwexec hwrun htrace k _ (hsamples k hk)).symm.trans (hdata k hk))
  exact ⟨t, _, hexec, hrun, by rw [← hbyte]⟩

end Sys2Proof.Machine

/-! ## Where the samples of a read fall

The samples in the trace of a read, with the waits before each, and in the time of a peer's frame (rules R113, R114, R183). -/

namespace Sys2Proof.Machine

/-- The events of data samples: each a sample and the wait after it (rule R114). -/
def rxSlots (vs : List Bool) : List Event := (vs.map (fun v => [sAt .uartRx v, wOk])).flatten

theorem uartReadTrace_eq (polls : Nat) (vs : List Bool) :
    uartReadTrace polls vs = List.replicate polls (sAt .uartRx true) ++ [sAt .uartRx false, wOk] ++ rxSlots vs ++ [wOk] := rfl

theorem rxSlots_append (vs ws : List Bool) : rxSlots (vs ++ ws) = rxSlots vs ++ rxSlots ws := by simp [rxSlots]

theorem rxSlots_cons (v : Bool) (vs : List Bool) : rxSlots (v :: vs) = sAt .uartRx v :: wOk :: rxSlots vs := rfl

theorem rxSlots_length (vs : List Bool) : (rxSlots vs).length = 2 * vs.length := by
  simp [rxSlots, Function.comp_def, Nat.mul_comm]

theorem ticksIn_rxSlots (vs : List Bool) : ticksIn (rxSlots vs) = vs.length := by
  have hslot : ∀ v, List.countP Event.isWait [sAt .uartRx v, wOk] = 1 := fun _ => rfl
  simp [rxSlots, ticksIn, List.countP_flatten, Function.comp_def, hslot]

theorem ticksIn_polls (n : Nat) (v : Bool) : ticksIn (List.replicate n (sAt .uartRx v)) = 0 := by
  simp [ticksIn, List.countP_replicate, sAt, Event.isWait]

theorem eq_take_append_cons_drop {α : Type} {l : List α} {k : Nat} {a : α} (h : l[k]? = some a) :
    l = l.take k ++ a :: l.drop (k + 1) := by
  obtain ⟨hk, rfl⟩ := List.getElem?_eq_some_iff.mp h
  rw [List.cons_getElem_drop_succ, List.take_append_drop]

/-- Whole periods move a sample on by as many bits of the peer's frame (rule R183). -/
theorem peerBitAt_uartSampleTime {T : Nat} (hT : 0 < T) (ε δ k : Nat) :
    peerBitAt T (uartSampleTime T ε δ k) = (ε + δ) / T + k :=
  Nat.add_mul_div_right _ _ hT

/-- Settles O58: sample `k` falls `k` bits after the bit in which the first wait ends, and `k + 1` waits stand before it. -/
theorem uartSamplePhase : Obligations.UartSamplePhase := by
  refine ⟨fun T ε δ k hT _ => ?_, fun polls k samples v hv => ?_⟩
  · rw [peerBitAt_uartSampleTime hT]
    refine ⟨?_, fun hearly => by rw [Nat.div_eq_of_lt hearly, Nat.zero_add]⟩
    rw [Nat.add_comm k 1, Nat.add_right_cancel_iff, Nat.div_eq_iff hT]
    omega
  · have hk := (List.getElem?_eq_some_iff.mp hv).1
    have htake : (samples.take k).length = k := List.length_take_of_le hk.le
    have hticks : ticksIn (List.replicate polls (sAt .uartRx true) ++ [sAt .uartRx false, wOk] ++ rxSlots (samples.take k)) =
        k + 1 := by
      rw [ticksIn_append, ticksIn_append, ticksIn_polls, ticksIn_rxSlots, htake]
      exact (Nat.add_comm k 1).symm
    refine ⟨_, wOk :: rxSlots (samples.drop (k + 1)) ++ [wOk], ?_, ?_, hticks, fun T ε δ => by rw [hticks]; rfl⟩
    · conv_lhs => rw [eq_take_append_cons_drop hv]
      simp [uartReadTrace_eq, rxSlots_append, rxSlots_cons]
    · simp only [List.length_append, List.length_replicate, List.length_cons, List.length_nil, rxSlots_length, htake]

end Sys2Proof.Machine

/-! ## Construction that fails, and construction with one polarity

The one drive of `SPI.INIT`, answered with an error, and two constructions side by side (rules R122, R123, R149). -/

namespace Sys2Proof.Machine

/-- The drive of a construction, answered with an error: the command is over and no field is written (rules R122, R149). -/
theorem SpiUnit.event_construct_err {p : Params} {u : SpiUnit} {bo m : BitVec 2} {e : PinError}
    (hseq : u.io.seq = .running (.init bo m) 0) (herr : (u.io.drives.next (Config.freeDrive .spi)).1 = .err e) :
    u.event p = .ok (SpiUnit.finish (.busError e)
      { u with io := (u.io.drive .spiSck (cpolOf m)).2, lvlSck := .x }) := by
  have hanswer : (u.io.drive .spiSck (cpolOf m)).1 = .err e := herr
  have hdrive : u.driveSck (cpolOf m) =
      .raised (.busError e) { u with io := (u.io.drive .spiSck (cpolOf m)).2, lvlSck := .x } := by
    simp only [SpiUnit.driveSck, UnitIo.tryDrive, hanswer, levelAfter]
  rw [SpiUnit.event_running hseq rfl, SpiUnit.perform, hdrive]
  rfl

/-- Settles O33: the command starts at its one drive, whose error ends it before anything is constructed. -/
theorem spiInitFailure : Obligations.SpiInitFailure := by
  rintro bo mode2 s e hbo ⟨hseq, hlife⟩ herr
  refine ⟨_, _, Config.freeByte .spi s.spi.io.fresh, Config.freeCount .spi s.spi.io.fresh, s.spi.io.fresh + 1,
    exec_next hbo (Seq.not_isIdle.mpr hseq) hlife (fun ⟨_, h⟩ => nomatch h),
    afterEvent_next.mpr ⟨_, SpiUnit.event_construct_err rfl herr, rfl⟩, ?_⟩
  rw [execEffect, UnitIo.drive_snd, UnitIo.start_drives, OutLine.unit, herr]
  simp only [hseq]
  rfl

/-- Settles O34: each construction's drive and level are those of its own polarity, and the two polarities are the same. -/
theorem spiInitIdempotent : Obligations.SpiInitIdempotent := by
  intro bo bo' m m' s s' hbo hbo' hnew hnew' hok hok' hpolarity
  obtain ⟨a, _, _, _, _, _, hexec, hturn, rfl⟩ := spiInitResult bo m s hbo hnew hok
  obtain ⟨a', _, _, _, _, _, hexec', hturn', rfl⟩ := spiInitResult bo' m' s' hbo' hnew' hok'
  rw [← hpolarity] at hturn'
  exact ⟨a, _, a', _, hexec, hturn, hexec', hturn', rfl, rfl, rfl, rfl⟩

end Sys2Proof.Machine

/-! ## Commands to a ready SPI unit

The commands but INIT are admitted there; those without port events are over at once (rules R16, R24, R136, R137). -/

namespace Sys2Proof.Machine

/-- A ready unit takes every well-formed command but INIT (rules R16, R24). -/
theorem exec_spi_ready {s : State} (hready : s.spi.io.Ready) {i : Instr} (hunit : i.unit = .spi) (hinit : isInit i = false)
    (hwf : i.wellFormed = true) : exec i s = .next (execEffect i s) := by
  refine exec_next hwf ?_ ?_ ?_
  · rw [hunit]; exact Seq.not_isIdle.mpr hready.1
  · rw [hunit, hinit]; exact hready.2
  · rintro ⟨wid, rfl⟩; cases hunit

/-- Settles O38: the read is admitted, and ends with what `RXVALID` says. -/
theorem spiReadResult : Obligations.SpiReadResult := by
  intro s hready
  rw [exec_spi_ready hready rfl rfl rfl, execEffect, UnitIo.close_of_idle hready.1]
  rfl

/-- Settles O39: the command is admitted, and its effect is the order its field names. -/
theorem spiSetBitOrderResult : Obligations.SpiSetBitOrderResult := by
  intro bo1 s hready
  rw [exec_spi_ready hready rfl rfl rfl, execEffect, UnitIo.close_of_idle hready.1]
  rfl

end Sys2Proof.Machine

/-! ## A byte sent

`SPI.SEND` from the command to its outcome, the event that completes the received byte, and the bits on `MOSI` in the two orders
(rules R125 to R135). -/

namespace Sys2Proof.Machine

/-! ### The whole command -/

/-- The bit of the byte sent as bit `i`: from bit 7 down or from bit 0 up (rule R125). -/
theorem txBit_eq_getLsbD (order : BitOrder) (byte : Byte) (i : Nat) :
    txBit order byte i = byte.getLsbD (if order = .msbFirst then 7 - i else i) := by
  cases order <;> exact BitVec.getLsbD_ushiftRight ..

/-- The first bit sampled ends in bit 7, the last in bit 0 (rule R131): `SampleBit()` shifts as `Assemble` does for `MsbFill`. -/
theorem sample_eq_getLsbD_foldl_shiftIn {samples : List Bool} (hlen : samples.length = 8) {k : Nat} (hk : k < 8) :
    samples[k]? = some ((samples.foldl shiftIn 0#8).getLsbD (7 - k)) :=
  sample_eq_getLsbD .msbFill 0#8 hlen hk

/-- Settles O35: the run ends in `finish`, which puts `SEQ` back to IDLE and takes free values for the transient registers. -/
theorem spiSendResult : Obligations.SpiSendResult := by
  intro byte samples s hlen hready hok hmiso
  refine ⟨_, _, samples.foldl shiftIn 0#8, Config.freeByte .spi s.spi.io.fresh, Config.freeCount .spi s.spi.io.fresh,
    s.spi.io.fresh + 1, exec_spi_ready hready rfl rfl rfl, runUnit_spi_ok (SpiUnit.send_run s.params byte hlen hok hmiso),
    fun k hk => sample_eq_getLsbD_foldl_shiftIn hlen hk, ?_⟩
  have hbits := funext (txBit_eq_getLsbD s.spi.bitOrder byte)
  have hlast : txBit s.spi.bitOrder byte 7 = byte.getLsbD (if s.spi.bitOrder = .msbFirst then 0 else 7) :=
    txBit_eq_getLsbD ..
  rw [hlast, hbits]
  simp only [hready.1, SpiUnit.finish, UnitIo.close]

/-! ### The received byte -/

/-- `RXBUF` and `RXVALID` over the event of a send at position `i`: written by a successful sample at position 45, kept
otherwise (rule R132). -/
def SpiUnit.ByteWrittenAt (i : Nat) (u v : SpiUnit) : Prop :=
  (∃ l, i = 45 ∧ v.io.trace = u.io.trace ++ [sAt .spiMiso l] ∧ v.rxvalid = true ∧ v.rxbuf = shiftIn u.rxacc l) ∨
    ((∀ l, i = 45 → v.io.trace ≠ u.io.trace ++ [sAt .spiMiso l]) ∧ v.rxvalid = u.rxvalid ∧ v.rxbuf = u.rxbuf)

theorem SpiUnit.advance_received (cmd : SpiRun) (i : Nat) (u : SpiUnit) :
    (u.advance cmd i).rxvalid = u.rxvalid ∧ (u.advance cmd i).rxbuf = u.rxbuf := by
  unfold SpiUnit.advance; split <;> exact ⟨rfl, rfl⟩

/-- An event that is no sampled level writes no byte. -/
theorem SpiUnit.Performed.keepsByte {u v : SpiUnit} {ev : Event} (h : u.Performed v ev) (hev : ∀ l, ev ≠ sAt .spiMiso l)
    (hvalid : v.rxvalid = u.rxvalid) (hbuf : v.rxbuf = u.rxbuf) (i : Nat) : u.ByteWrittenAt i v := by
  refine .inr ⟨fun l _ htrace => hev l ?_, hvalid, hbuf⟩
  rw [h.trace] at htrace
  simpa using htrace

/-- A failed event is no sampled level. -/
theorem Event.Failed.ne_sAt {ev : Event} (h : ev.Failed) (l : InLine) (v : Bool) : ev ≠ sAt l v := by
  rintro rfl
  rcases h with ⟨e, he⟩ | ⟨t, ht⟩ <;> contradiction

/-- At a sample of a send `BITCNT` counts to 8 exactly at position 45 (rules R131, R132). -/
theorem SpiUnit.eighth_sample_iff {u : SpiUnit} {byte : Byte} {i : Nat} (hu : u.Inv)
    (hseq : u.io.seq = .running (.send byte) i) (ha : (u.acts (.send byte))[i]? = some .sample) :
    u.bitcnt + 1#4 = 8#4 ↔ i = 45 := by
  obtain ⟨-, hi, hcnt, -⟩ := (SpiUnit.inv_send hseq).mp hu
  have hpos : (i + 1 + 2) / 6 = (i + 2) / 6 + 1 := spiSendActs_position ha
  have hcount : (u.bitcnt + 1#4).toNat = (i + 2) / 6 + 1 := toNat_add_ofNat hcnt (by omega)
  rw [← BitVec.toNat_inj, hcount, BitVec.toNat_ofNat]
  omega

/-- A completed port event of a send (rules R131, R132). -/
theorem SpiUnit.perform_done_byteWrittenAt {p : Params} {u w : SpiUnit} {a : SpiAct} {byte : Byte} {i : Nat} (hu : u.Inv)
    (hseq : u.io.seq = .running (.send byte) i) (ha : (u.acts (.send byte))[i]? = some a) (h : u.perform p a = .done w) :
    u.ByteWrittenAt i w := by
  rcases SpiUnit.perform_cases p a u with
    ⟨v, ev, hd, hw, -, -, ⟨bo, m, rfl, -⟩ | ⟨rfl, -, x, l, rfl, rfl, hacc, hcnt, hbuf, hvalid⟩ |
      ⟨-, -, hev, -, -, -, hbuf, hvalid⟩⟩ | ⟨v, ev, o, hr, -⟩ | ⟨hs, -⟩
  · exact absurd rfl (spiSendActs_ne_construct (List.mem_of_getElem? ha) bo m)
  · cases hd.symm.trans h
    have heighth := SpiUnit.eighth_sample_iff hu hseq ha
    rw [← hcnt] at heighth
    by_cases hi : i = 45
    · obtain ⟨hwbuf, hwvalid⟩ := SpiUnit.takeBit_eighth l x (heighth.mpr hi)
      exact .inl ⟨l, hi, hw.trace, hwvalid, hacc ▸ hwbuf⟩
    · obtain ⟨hwbuf, hwvalid⟩ := SpiUnit.takeBit_before l x (hi ∘ heighth.mp)
      exact .inr ⟨fun _ h45 => absurd h45 hi, hwvalid.trans hvalid, hwbuf.trans hbuf⟩
  · cases hd.symm.trans h
    exact hw.keepsByte hev hvalid hbuf i
  · cases hr.symm.trans h
  · cases hs.symm.trans h

/-- One event of a send: after its port event the sequencer writes neither register (rule R132). -/
theorem SpiUnit.event_byteWrittenAt {p : Params} {u v : SpiUnit} {byte : Byte} {i : Nat} (hu : u.Inv)
    (hseq : u.io.seq = .running (.send byte) i) (h : u.event p = .ok v) : u.ByteWrittenAt i v := by
  rcases SpiUnit.event_cases h with ⟨hidle, -⟩ | ⟨cmd, j, hs, hevent⟩
  · cases hidle.symm.trans hseq
  · cases hs.symm.trans hseq
    rcases hevent with ⟨hover, -⟩ | ⟨a, ha, ⟨w, hd, rfl⟩ | hagain | ⟨o, w, hr, rfl⟩⟩
    · exact absurd hover (hu.act_ne_none hseq)
    · have hw := SpiUnit.perform_done_byteWrittenAt hu hseq ha hd
      obtain ⟨htrace, -⟩ := SpiUnit.advance_shown (.send byte) i w
      obtain ⟨hvalid, hbuf⟩ := SpiUnit.advance_received (.send byte) i w
      rwa [SpiUnit.ByteWrittenAt, htrace, hvalid, hbuf]
    · exact absurd hagain SpiUnit.perform_ne_again
    · obtain ⟨ev, hw, hfailed, -, hbuf, hvalid⟩ := SpiUnit.perform_raised hr
      exact hw.keepsByte (hfailed.ne_sAt .spiMiso) hvalid hbuf i

/-- The samples of a send up to position 45 (rules R126 to R129, R132). -/
theorem spiSendActs_samples (cpol cpha : Bool) (byte : Byte) :
    ((spiSendActs cpol cpha byte).take 46).countP (· == .sample) = 8 := by
  cases cpol <;> cases cpha <;> rfl

/-- What follows the eighth sample, in the order of the mode (rules R126 to R129, R132). -/
theorem spiSendActs_after_samples (cpol cpha : Bool) (byte : Byte) :
    (spiSendActs cpol cpha byte).drop 46 = if cpha then [.sck cpol, .tick] else [.tick, .sck cpol] := by
  cases cpol <;> cases cpha <;> rfl

/-- Settles O36: a sample counts to 8 at position 45 alone, and a failed event writes no byte. -/
theorem spiByteCompletion : Obligations.SpiByteCompletion := by
  intro byte i s t hinv hseq h
  obtain ⟨v, hv, rfl⟩ := afterEvent_next.mp h
  refine ⟨SpiUnit.event_byteWrittenAt hinv hseq hv, spiSendActs_samples s.spi.cpol s.spi.cpha byte, ?_⟩
  rw [SpiUnit.acts, spiSendActs_after_samples]
  cases s.spi.cpha
  · exact .inr rfl
  · exact .inl rfl

/-! ### The bits on `MOSI` -/

/-- One bit drives `MOSI` once (rules R126 to R129). -/
theorem spiBitTrace_mosi (cpol cpha t s : Bool) : (spiBitTrace cpol cpha t s).filterMap Event.mosiBit = [t] := by
  cases cpol <;> cases cpha <;> rfl

/-- The bits of a send on `MOSI` are the bits it is given (rule R133). -/
theorem spiSendTrace_mosi (cpol cpha : Bool) {ts ss : List Bool} (h : ts.length = ss.length) :
    (spiSendTrace cpol cpha ts ss).filterMap Event.mosiBit = ts := by
  induction ts generalizing ss with
  | nil => rfl
  | cons t ts ih =>
    cases ss with
    | nil => cases h
    | cons s ss =>
      have hrest := ih (Nat.succ.inj h)
      rw [spiSendTrace] at hrest ⊢
      rw [List.zipWith_cons_cons, List.flatten_cons, List.filterMap_append, spiBitTrace_mosi, hrest, List.singleton_append]

/-- Without its level on `MOSI`, the trace of a bit is that of a bit 0. -/
theorem spiBitTrace_withoutMosi (cpol cpha t s : Bool) :
    (spiBitTrace cpol cpha t s).map Event.withoutMosi = spiBitTrace cpol cpha false s := by
  cases cpol <;> cases cpha <;> rfl

/-- Without the levels on `MOSI`, the trace of a send is that of as many bits 0 (rule R135). -/
theorem spiSendTrace_withoutMosi (cpol cpha : Bool) (ts ss : List Bool) :
    (spiSendTrace cpol cpha ts ss).map Event.withoutMosi = spiSendTrace cpol cpha (List.replicate ts.length false) ss := by
  rw [spiSendTrace, spiSendTrace, List.map_flatten, List.map_zipWith, ← List.map_const', List.zipWith_map_left]
  simp only [spiBitTrace_withoutMosi]

/-- Settles O37: the bits on `MOSI` are the byte's, read down and read up, and no other event takes a bit of the byte. -/
theorem spiBitOrderReversal : Obligations.SpiBitOrderReversal := by
  rintro byte s hready hok ⟨samples, hlen, hmiso⟩
  obtain ⟨a, _, _, _, _, _, hexec, hrun, -, rfl⟩ :=
    spiSendResult byte samples { s with spi := { s.spi with bitOrder := .msbFirst } } hlen hready hok hmiso
  obtain ⟨b, _, _, _, _, _, hexec', hrun', -, rfl⟩ :=
    spiSendResult byte samples { s with spi := { s.spi with bitOrder := .lsbFirst } } hlen hready hok hmiso
  have hmosi (f : Nat → Bool) :
      (spiSendTrace s.spi.cpol s.spi.cpha ((List.range 8).map f) samples).filterMap Event.mosiBit = (List.range 8).map f :=
    spiSendTrace_mosi _ _ hlen.symm
  refine ⟨a, _, b, _, _, _, hexec, hexec', hrun, hrun', rfl, rfl, ?_, ?_, ?_, ?_⟩
  · rw [hmosi, hmosi]
    rfl
  · rw [hmosi]
    rfl
  · rw [hmosi]
    rfl
  · rw [spiSendTrace_withoutMosi, spiSendTrace_withoutMosi]
    rfl

end Sys2Proof.Machine

/-! ## Refusals

A command's word, its unit's lifecycle and the lengths of its sequences decide whether it is refused and why (rules R24, R77,
R95, R148), and a run past refusals keeps the reason of each (rule R147). -/

namespace Sys2Proof.Machine

/-! ### The order of the refusals -/

/-- Issuing a command starts none by itself (rule R16). -/
theorem State.issued_busy (i : Instr) (c : HostCmd) (s : State) (cs : List HostCmd) (u : UnitId) :
    (State.handOver i c { s.tookTurn with host := cs }).busy u = s.busy u := by
  cases i <;> cases u <;> rfl

/-- Issuing a command leaves every lifecycle to its meaning (rule R24). -/
theorem State.issued_lifeOf (i : Instr) (c : HostCmd) (s : State) (cs : List HostCmd) (u : UnitId) :
    (State.handOver i c { s.tookTurn with host := cs }).lifeOf u = s.lifeOf u := by
  cases i <;> cases u <;> rfl

theorem UnitIo.refusal_notConfigured {c : Type} {io : UnitIo c} (hidle : io.seq = .idle) (hlife : io.life = .unconfigured) :
    io.refusal false = some .notConfigured := by
  simp [UnitIo.refusal, hidle, hlife]

theorem UnitIo.refusal_alreadyConfigured {c : Type} {io : UnitIo c} (hidle : io.seq = .idle) (hlife : io.life = .configured) :
    io.refusal true = some .alreadyConfigured := by
  simp [UnitIo.refusal, hidle, hlife]

/-- Any command but INIT needs a CONFIGURED unit (rule R24). -/
theorem State.unitRefusal_notConfigured {s : State} {u : UnitId} (hidle : s.busy u = false)
    (hlife : s.lifeOf u = .unconfigured) : s.unitRefusal false u = some .notConfigured := by
  cases u <;> exact UnitIo.refusal_notConfigured (Seq.not_isIdle.mp hidle) hlife

/-- INIT needs an UNCONFIGURED unit (rule R24). -/
theorem State.unitRefusal_alreadyConfigured {s : State} {u : UnitId} (hidle : s.busy u = false)
    (hlife : s.lifeOf u = .configured) : s.unitRefusal true u = some .alreadyConfigured := by
  cases u <;> exact UnitIo.refusal_alreadyConfigured (Seq.not_isIdle.mp hidle) hlife

/-- What the unit's check refuses is refused for that reason, whatever the lengths (rule R148). -/
theorem exec_refused_of_unit {i : Instr} {s : State} {r : Refusal} (hwf : i.wellFormed = true)
    (hr : s.unitRefusal (isInit i) i.unit = some r) : exec i s = .refused r := by
  simp only [exec_eq, unlessRefused_refused, execRefusal, hwf, if_true, hr, Option.some_or]

/-- A write that the unit's check admits is refused for sequences of unequal length (rules R95, R148). -/
theorem exec_i2sWrite_lengthMismatch {wid : BitVec 2} {s : State} (hwf : (Instr.i2sWrite wid).wellFormed = true)
    (hunit : s.unitRefusal false .i2s = none) (hlen : s.i2s.seqL.length ≠ s.i2s.seqR.length) :
    exec (.i2sWrite wid) s = .refused .lengthMismatch := by
  have hlength : s.i2s.lengthRefusal = some .lengthMismatch := if_neg hlen
  simp only [exec_eq, unlessRefused_refused, execRefusal, hwf, if_true, isInit, Instr.unit, hunit, Option.none_or, hlength]

/-- Settles O14: a reserved word does not decode; any other is run by `exec`, whose check is the unit's and then that of the
lengths. -/
theorem refusalOrder : Obligations.RefusalOrder := by
  intro s h rest hmoves
  refine ⟨(reservedWordsRefused s h rest hmoves).1, fun i hdec hbusy => ?_⟩
  obtain ⟨-, hwf⟩ := encodeDecode h.word i hdec
  have hidle := (State.issued_busy i h s rest i.unit).trans hbusy
  have hlifeOf := State.issued_lifeOf i h s rest i.unit
  rw [stepRunsCommand s h rest i hmoves hdec hbusy]
  refine ⟨fun hinit hlife => ?_, fun hinit hlife => ?_, ?_, ?_⟩
  · exact exec_refused_of_unit hwf (hinit ▸ State.unitRefusal_notConfigured hidle (hlifeOf.trans hlife))
  · exact exec_refused_of_unit hwf (hinit ▸ State.unitRefusal_alreadyConfigured hidle (hlifeOf.trans hlife))
  · rintro ⟨wid, rfl⟩ hlife hlen
    exact exec_i2sWrite_lengthMismatch hwf (State.unitRefusal_none.mpr ⟨hidle, hlifeOf.trans hlife⟩) hlen
  · rintro (⟨hinit, hlife⟩ | ⟨hinit, hlife, hlen⟩)
    · refine ⟨_, exec_next hwf hidle (by rw [hlifeOf, hlife, hinit]; rfl) ?_⟩
      rintro ⟨wid, rfl⟩
      cases hinit
    · refine ⟨_, exec_next hwf hidle (by rw [hlifeOf, hlife, hinit]; rfl) ?_⟩
      rintro ⟨wid, rfl⟩
      exact hlen ⟨wid, rfl⟩

/-! ### Runs past a refusal -/

section
variable {s : State} (k : Nat)

theorem run_of_next {t : State} (h : step s = .next t) :
    Host.Core.run Sys2Proof.core (k + 1) s = Host.Core.run Sys2Proof.core k t := by
  simp only [Host.Core.run, Sys2Proof.core, h]

theorem run_of_fault {f : Fault} (h : step s = .fault f) : Host.Core.run Sys2Proof.core (k + 1) s = .fault f := by
  simp only [Host.Core.run, Sys2Proof.core, h]

theorem run_of_refused {r : Refusal} (h : step s = .refused r) : Host.Core.run Sys2Proof.core (k + 1) s = .refused r := by
  simp only [Host.Core.run, Sys2Proof.core, h]

theorem runMarked_of_next {t : State} (h : step s = .next t) : runMarked (k + 1) s = runMarked k t := by
  simp only [runMarked, h]

theorem runMarked_of_fault {f : Fault} (h : step s = .fault f) : runMarked (k + 1) s = (s, []) := by
  simp only [runMarked, h]

theorem runMarked_of_refused {r : Refusal} (h : step s = .refused r) :
    runMarked (k + 1) s = ((runMarked k s.dropRefused).1, r :: (runMarked k s.dropRefused).2) := by
  simp only [runMarked, h]

end

/-- Settles O16, by induction on the steps: both runs take the same step, until the first that is none. -/
theorem refusalIsMarked : Obligations.RefusalIsMarked := by
  intro k
  induction k with
  | zero => exact fun s => .inl ⟨s, rfl, rfl⟩
  | succ k ih =>
    intro s
    cases h : step s with
    | next t =>
      rw [run_of_next k h, runMarked_of_next k h]
      exact ih t
    | fault f =>
      rw [run_of_fault k h, runMarked_of_fault k h]
      exact .inr (.inl ⟨f, rfl, rfl⟩)
    | refused r =>
      rw [run_of_refused k h, runMarked_of_refused k h]
      exact .inr (.inr ⟨r, _, rfl, rfl⟩)

end Sys2Proof.Machine

/-! ## A timer that stops

The one fault of a step is a running unit's wait for a timer that stopped (rule R168, 93_implementation_defined.md I23). -/

namespace Sys2Proof.Machine

theorem EventEnd.settle_error {σ : Type} {e : EventEnd σ} {adv : σ → σ} {fin : CmdOutcome → σ → σ} {f : Fault} :
    e.settle adv fin = .error f ↔ e = .stuck f := by
  cases e <;> simp [EventEnd.settle]

/-- A unit faults where the port event of its running command is stuck. -/
theorem I2sUnit.event_error_stuck {p : Params} {u : I2sUnit} {f : Fault} (h : u.event p = .error f) :
    u.io.seq ≠ .idle ∧ ∃ a, u.perform p a = .stuck f := by
  unfold I2sUnit.event at h
  split at h
  · cases h
  · rename_i cmd i hs
    split at h
    · cases h
    · exact ⟨by simp [hs], _, EventEnd.settle_error.mp h⟩

theorem UartUnit.event_error_stuck {p : Params} {u : UartUnit} {f : Fault} (h : u.event p = .error f) :
    u.io.seq ≠ .idle ∧ ∃ a, u.perform p a = .stuck f := by
  unfold UartUnit.event at h
  split at h
  · cases h
  · rename_i cmd i hs
    split at h
    · cases h
    · exact ⟨by simp [hs], _, EventEnd.settle_error.mp h⟩

theorem SpiUnit.event_error_stuck {p : Params} {u : SpiUnit} {f : Fault} (h : u.event p = .error f) :
    u.io.seq ≠ .idle ∧ ∃ a, u.perform p a = .stuck f := by
  unfold SpiUnit.event at h
  split at h
  · cases h
  · rename_i cmd i hs
    split at h
    · cases h
    · exact ⟨by simp [hs], _, EventEnd.settle_error.mp h⟩

/-- A port event is stuck at a wait whose timer stopped (93_implementation_defined.md I23). -/
theorem I2sUnit.perform_stuck {p : Params} {a : I2sAct} {u : I2sUnit} {f : Fault} (h : u.perform p a = .stuck f) :
    f = .timerStopped .i2s ∧ (u.io.ticks.next (freeTick .i2s)).1 = .never := by
  rcases I2sUnit.perform_cases p a u with ⟨v, ev, hd, -⟩ | ⟨v, ev, o, hr, -⟩ | ⟨hs, hnever⟩
  · cases hd.symm.trans h
  · cases hr.symm.trans h
  · cases hs.symm.trans h
    exact ⟨rfl, hnever⟩

theorem UartUnit.perform_stuck {p : Params} {a : UartAct} {u : UartUnit} {f : Fault} (h : u.perform p a = .stuck f) :
    f = .timerStopped .uart ∧ (u.io.ticks.next (freeTick .uart)).1 = .never := by
  rcases UartUnit.perform_cases p a u with ⟨v, ev, hd, -⟩ | ⟨-, v, ha, -⟩ | ⟨v, ev, o, hr, -⟩ | ⟨hs, hnever⟩
  · cases hd.symm.trans h
  · cases ha.symm.trans h
  · cases hr.symm.trans h
  · cases hs.symm.trans h
    exact ⟨rfl, hnever⟩

theorem SpiUnit.perform_stuck {p : Params} {a : SpiAct} {u : SpiUnit} {f : Fault} (h : u.perform p a = .stuck f) :
    f = .timerStopped .spi ∧ (u.io.ticks.next (freeTick .spi)).1 = .never := by
  rcases SpiUnit.perform_cases p a u with ⟨v, ev, hd, -⟩ | ⟨v, ev, o, hr, -⟩ | ⟨hs, hnever⟩
  · cases hd.symm.trans h
  · cases hr.symm.trans h
  · cases hs.symm.trans h
    exact ⟨rfl, hnever⟩

theorem Seq.busy_of_ne_idle {c : Type} {q : Seq c} (h : q ≠ .idle) : (!q.isIdle) = true := by
  cases q with
  | idle => exact absurd rfl h
  | running cmd i => rfl

/-- A unit's turn faults only while the unit runs a command and its timer stopped. -/
theorem unitTurn_fault {u : UnitId} {s : State} {f : Fault} (h : unitTurn u s = .fault f) :
    f = .timerStopped u ∧ s.busy u = true ∧ s.tickAnswer u = .never := by
  cases u with
  | i2s =>
    obtain ⟨hbusy, a, ha⟩ := I2sUnit.event_error_stuck (afterEvent_fault.mp h)
    obtain ⟨hf, hnever⟩ := I2sUnit.perform_stuck ha
    exact ⟨hf, Seq.busy_of_ne_idle hbusy, hnever⟩
  | uart =>
    obtain ⟨hbusy, a, ha⟩ := UartUnit.event_error_stuck (afterEvent_fault.mp h)
    obtain ⟨hf, hnever⟩ := UartUnit.perform_stuck ha
    exact ⟨hf, Seq.busy_of_ne_idle hbusy, hnever⟩
  | spi =>
    obtain ⟨hbusy, a, ha⟩ := SpiUnit.event_error_stuck (afterEvent_fault.mp h)
    obtain ⟨hf, hnever⟩ := SpiUnit.perform_stuck ha
    exact ⟨hf, Seq.busy_of_ne_idle hbusy, hnever⟩

/-- The host's turn never faults: no command does. -/
theorem hostTurn_ne_fault {s : State} {f : Fault} : hostTurn s ≠ .fault f := by
  unfold hostTurn
  split
  · nofun
  · split
    · nofun
    · split
      · nofun
      · exact (execNextIff _ _).2 f

/-- Settles O44: the host's turn does not fault, and a unit's does at a wait whose timer stopped. -/
theorem faultOnlyWhenTimerStops : Obligations.FaultOnlyWhenTimerStops := by
  intro s f h
  cases hm : s.mover (s.sched.next Config.freeTurn).1 with
  | none => exact absurd ((step_host hm).symm.trans h) hostTurn_ne_fault
  | some u =>
    obtain ⟨hf, hbusy, hnever⟩ := unitTurn_fault ((step_unit hm).symm.trans h)
    exact ⟨u, hf, hbusy, by cases u <;> exact hnever⟩

end Sys2Proof.Machine

/-! ## Failed port events

A failed drive or sample ends its command, and a failed wait does by unit and policy (rules R149, R150, R185). -/

namespace Sys2Proof.Machine

/-! ### Failed drives and samples -/

section
variable {c : Type} {a b : UnitIo c} {ev : Event}

/-- The new event of the trace, where there is one, failed as a drive or sample exactly when the command ends with `BusError`
(rule R149). -/
def UnitIo.BusErrorAtFailure (a b : UnitIo c) : Prop :=
  ∀ ev, b.trace = a.trace ++ [ev] →
    (∀ e, ev.pinError = some e → b.outcomes = a.outcomes ++ [.busError e] ∧ (!b.seq.isIdle) = false) ∧
    (∀ e, b.outcomes = a.outcomes ++ [.busError e] → ev.pinError = some e)

theorem UnitIo.BusErrorAtFailure.of_silent (htrace : b.trace = a.trace) : a.BusErrorAtFailure b := by
  intro ev hev
  simp [htrace] at hev

/-- An event that did not fail hands over no error. -/
theorem UnitIo.BusErrorAtFailure.of_passed (htrace : b.trace = a.trace ++ [ev]) (hpin : ev.pinError = none)
    (hout : NoErrorFrom a.outcomes b.outcomes) : a.BusErrorAtFailure b := by
  intro ev' hev'
  obtain rfl : ev = ev' := by simpa [htrace] using hev'
  exact ⟨fun e he => absurd (hpin.symm.trans he) nofun, fun e he => absurd he (hout.ne rfl)⟩

/-- An event that raised an error shows it. -/
theorem UnitIo.BusErrorAtFailure.of_raised {o : CmdOutcome} (htrace : b.trace = a.trace ++ [ev])
    (hout : b.outcomes = a.outcomes ++ [o]) (hidle : b.seq = .idle)
    (ho : (∃ e, o = .busError e ∧ ev.pinError = some e) ∨ ∃ t, o = .timerError t ∧ ev = .wait (some t)) :
    a.BusErrorAtFailure b := by
  intro ev' hev'
  obtain rfl : ev = ev' := by simpa [htrace] using hev'
  rcases ho with ⟨e, rfl, he⟩ | ⟨t, rfl, rfl⟩
  · refine ⟨fun e' he' => ?_, fun e' hout' => ?_⟩
    · obtain rfl : e = e' := Option.some.inj (he.symm.trans he')
      exact ⟨hout, Seq.not_isIdle.mpr hidle⟩
    · obtain rfl : e = e' := by simpa [hout] using hout'
      exact he
  · exact ⟨nofun, fun e' hout' => by simp [hout] at hout'⟩

end

section
variable {p : Params}

theorem I2sUnit.event_busErrorAtFailure {u v : I2sUnit} (h : u.event p = .ok v) : u.io.BusErrorAtFailure v.io := by
  rcases I2sUnit.event_cases h with ⟨-, rfl⟩ | ⟨cmd, i, -, ⟨-, rfl⟩ | ⟨a, -, hev⟩⟩
  · exact .of_silent rfl
  · exact .of_silent rfl
  · rcases I2sUnit.perform_cases p a u with ⟨w, ev, hd, hw, hpin, -⟩ | ⟨w, ev, o, hr, hw, ho⟩ | ⟨hs, -⟩
    · obtain rfl : v = w.advance p cmd i := by simpa [hd] using hev
      obtain ⟨htrace, -⟩ := I2sUnit.advance_io p cmd i w
      exact .of_passed (htrace.trans hw.trace) hpin (hw.outcomes ▸ I2sUnit.advance_noError p cmd i w)
    · obtain rfl : v = w.finish o := by simpa [hr] using hev
      exact .of_raised hw.trace (congrArg (· ++ [o]) hw.outcomes) rfl ho
    · simp [hs] at hev

theorem UartUnit.event_busErrorAtFailure {u v : UartUnit} (h : u.event p = .ok v) : u.io.BusErrorAtFailure v.io := by
  rcases UartUnit.event_cases h with ⟨-, rfl⟩ | ⟨cmd, i, -, ⟨-, rfl⟩ | ⟨a, -, hev⟩⟩
  · exact .of_silent rfl
  · exact .of_silent rfl
  · rcases UartUnit.perform_cases p a u with
      ⟨w, ev, hd, hw, hpin, -⟩ | ⟨-, w, ha, hw, -⟩ | ⟨w, ev, o, hr, hw, ho⟩ | ⟨hs, -⟩
    · obtain rfl : v = w.advance cmd i := by simpa [hd] using hev
      obtain ⟨htrace, -⟩ := UartUnit.advance_shown cmd i w
      exact .of_passed (htrace.trans hw.trace) hpin (hw.outcomes ▸ UartUnit.advance_noError cmd i w)
    · obtain rfl : w = v := by simpa [ha] using hev
      exact .of_passed hw.trace rfl (.inl hw.outcomes)
    · obtain rfl : v = w.finish o := by simpa [hr] using hev
      exact .of_raised hw.trace (congrArg (· ++ [o]) hw.outcomes) rfl (ho.imp_right fun ⟨t, ht, hwait, _⟩ => ⟨t, ht, hwait⟩)
    · simp [hs] at hev

theorem SpiUnit.event_busErrorAtFailure {u v : SpiUnit} (h : u.event p = .ok v) : u.io.BusErrorAtFailure v.io := by
  rcases SpiUnit.event_cases h with ⟨-, rfl⟩ | ⟨cmd, i, -, ⟨-, rfl⟩ | ⟨a, -, hev⟩⟩
  · exact .of_silent rfl
  · exact .of_silent rfl
  · rcases SpiUnit.perform_cases p a u with ⟨w, ev, hd, hw, hpin, -⟩ | ⟨w, ev, o, hr, hw, -, -, -, ho⟩ | ⟨hs, -⟩
    · obtain rfl : v = w.advance cmd i := by simpa [hd] using hev
      obtain ⟨htrace, -⟩ := SpiUnit.advance_shown cmd i w
      exact .of_passed (htrace.trans hw.trace) hpin (hw.outcomes ▸ SpiUnit.advance_noError cmd i w)
    · obtain rfl : v = w.finish o := by simpa [hr] using hev
      exact .of_raised hw.trace (congrArg (· ++ [o]) hw.outcomes) rfl (ho.imp_right fun ⟨t, ht, hwait, _⟩ => ⟨t, ht, hwait⟩)
    · simp [hs] at hev

end

/-- Settles O41: each unit's event does what `BusErrorAtFailure` says. -/
theorem pinErrorEndsCommand : Obligations.PinErrorEndsCommand := by
  intro u s t ev h htrace
  rcases unitTurn_cases h with ⟨rfl, x, hx, rfl⟩ | ⟨rfl, x, hx, rfl⟩ | ⟨rfl, x, hx, rfl⟩
  · exact I2sUnit.event_busErrorAtFailure hx ev htrace
  · exact UartUnit.event_busErrorAtFailure hx ev htrace
  · exact SpiUnit.event_busErrorAtFailure hx ev htrace

end Sys2Proof.Machine

/-! ## Failed waits

A wait whose failure ends the command raises `TimerError`; an ignored failure is as good as a tick (rules R150, R185). -/

namespace Sys2Proof.Machine

/-! ### One wait -/

section
variable {c σ : Type}

/-- The state a port event leaves, unless it is stuck. -/
def EventEnd.after : EventEnd σ → Option σ
  | .done s     => some s
  | .again s    => some s
  | .raised _ s => some s
  | .stuck _    => none

theorem EventEnd.after_andThen {g : σ → σ} {e : EventEnd σ} {s : σ} (h : (e.andThen g).after = some s) :
    e.after = some s ∨ ∃ w, e.after = some w ∧ s = g w := by
  cases e with
  | done w => exact .inr ⟨w, rfl, (Option.some.inj h).symm⟩
  | again w => exact .inl h
  | raised o w => exact .inl h
  | stuck f => exact .inl h

/-- The unit's part after a wait that the trace shows as `failed`. -/
def UnitIo.afterWait (u : UnitId) (failed : Option TimError) (io : UnitIo c) : UnitIo c :=
  UnitIo.record (.wait failed) { io with ticks := (io.ticks.next (freeTick u)).2 }

/-- The unit's part with a tick in the place of the next answer. -/
def UnitIo.tickInstead (u : UnitId) (io : UnitIo c) : UnitIo c :=
  { io with ticks := ⟨.ok :: (io.ticks.next (freeTick u)).2.script, (io.ticks.next (freeTick u)).2.rest⟩ }

variable {u : UnitId} {p : Params} {put keep : UnitIo c → σ} {io : UnitIo c} {e : TimError}

theorem UnitIo.tryWait_fatal (hans : (io.ticks.next (freeTick u)).1 = .err e) (hf : tickFatal p u = true) :
    io.tryWait u p put keep = .raised (.timerError e) (keep (io.afterWait u (some e))) := by
  simp only [UnitIo.tryWait, hans, hf, if_true, UnitIo.afterWait]

theorem UnitIo.tryWait_ignored (hans : (io.ticks.next (freeTick u)).1 = .err e) (hf : tickFatal p u = false) :
    io.tryWait u p put keep = .done (put (io.afterWait u none)) := by
  simp only [UnitIo.tryWait, hans, hf, Bool.false_eq_true, if_false, UnitIo.afterWait]

theorem UnitIo.tryWait_tickInstead : (io.tickInstead u).tryWait u p put keep = .done (put (io.afterWait u none)) := rfl

/-- A failed wait is fatal in the I2S unit and under `AlwaysFatal` (rule R150). -/
theorem tickFatal_of_policy (h : u = .i2s ∨ p.timerFailPolicy = .alwaysFatal) : tickFatal p u = true := by
  rcases h with rfl | h
  · rfl
  · cases u <;> simp [tickFatal, h]

/-- Under `Reference` it is ignored in the other units (rule R150). -/
theorem tickFatal_of_reference (hu : u ≠ .i2s) (h : p.timerFailPolicy = .reference) : tickFatal p u = false := by
  cases u with
  | i2s => exact absurd rfl hu
  | uart | spi => simp [tickFatal, h]

/-! ### A drive or a sample is no wait -/

theorem UnitIo.tryDrive_after {l : OutLine} {v : Bool} {put : UnitIo c → Level → σ} {s : σ}
    (h : (io.tryDrive l v put).after = some s) : ∃ lvl, s = put (io.drive l v).2 lvl := by
  rcases UnitIo.tryDrive_cases l v put io with ⟨-, hd⟩ | ⟨e, -, hr⟩
  · rw [hd] at h
    exact ⟨_, (Option.some.inj h).symm⟩
  · rw [hr] at h
    exact ⟨_, (Option.some.inj h).symm⟩

theorem UnitIo.trySample_after {l : InLine} {ds : Draws SampleAnswer} {put : UnitIo c → Draws SampleAnswer → σ}
    {use : Bool → σ → EventEnd σ} {s : σ} (h : (io.trySample l ds put use).after = some s) :
    ∃ a ds', s = put (io.record (.sample l a)) ds' ∨ ∃ v, (use v (put (io.record (.sample l a)) ds')).after = some s := by
  rcases UnitIo.trySample_cases l ds put use io with ⟨v, -, hd⟩ | ⟨e, -, hr⟩
  · rw [hd] at h
    exact ⟨_, _, .inr ⟨v, h⟩⟩
  · rw [hr] at h
    exact ⟨_, _, .inl (Option.some.inj h).symm⟩

theorem UnitIo.drive_ne_wait {l : OutLine} {v : Bool} {f : Option TimError} :
    (io.drive l v).2.trace ≠ io.trace ++ [.wait f] := by
  simp [UnitIo.drive_snd]

theorem UnitIo.sample_ne_wait {l : InLine} {a : SampleAnswer} {f : Option TimError} :
    (io.record (.sample l a)).trace ≠ io.trace ++ [.wait f] := by
  simp

end

section
variable {p : Params} {f : Option TimError}

/-- The trace shows a wait only of a wait (rules R90, R96). -/
theorem I2sUnit.act_eq_tick {a : I2sAct} {u w : I2sUnit} (h : (u.perform p a).after = some w)
    (htrace : w.io.trace = u.io.trace ++ [.wait f]) : a = .tick := by
  cases a with
  | tick => rfl
  | ws _ | sd _ _ | sckHigh | sckLow _ =>
    rw [I2sUnit.perform] at h
    obtain ⟨lvl, rfl⟩ := UnitIo.tryDrive_after h
    exact absurd htrace UnitIo.drive_ne_wait

theorem SpiUnit.act_eq_tick {a : SpiAct} {u w : SpiUnit} (h : (u.perform p a).after = some w)
    (htrace : w.io.trace = u.io.trace ++ [.wait f]) : a = .tick := by
  cases a with
  | tick => rfl
  | mosi _ _ =>
    rw [SpiUnit.perform, SpiUnit.driveMosi] at h
    obtain ⟨lvl, rfl⟩ := UnitIo.tryDrive_after h
    exact absurd htrace UnitIo.drive_ne_wait
  | sck _ =>
    rw [SpiUnit.perform, SpiUnit.driveSck] at h
    obtain ⟨lvl, rfl⟩ := UnitIo.tryDrive_after h
    exact absurd htrace UnitIo.drive_ne_wait
  | sample =>
    rw [SpiUnit.perform] at h
    obtain ⟨a, ds, rfl | ⟨v, hv⟩⟩ := UnitIo.trySample_after h
    · exact absurd htrace UnitIo.sample_ne_wait
    · obtain rfl := Option.some.inj hv
      rw [SpiUnit.takeBit_io] at htrace
      exact absurd htrace UnitIo.sample_ne_wait
  | construct bo m =>
    rw [SpiUnit.perform, SpiUnit.driveSck] at h
    rcases EventEnd.after_andThen h with hd | ⟨w, hd, rfl⟩
    · obtain ⟨lvl, rfl⟩ := UnitIo.tryDrive_after hd
      exact absurd htrace UnitIo.drive_ne_wait
    · obtain ⟨lvl, rfl⟩ := UnitIo.tryDrive_after hd
      exact absurd htrace UnitIo.drive_ne_wait

/-- The four waits of a UART command differ in what follows the tick (rules R110, R114). -/
theorem UartUnit.perform_eq_wait {a : UartAct} {u w : UartUnit} (h : (u.perform p a).after = some w)
    (htrace : w.io.trace = u.io.trace ++ [.wait f]) :
    ∃ after : UartUnit → UartUnit, (∀ x, (after x).io = x.io) ∧ ∀ x, UartUnit.perform p a x = x.wait p after := by
  cases a with
  | tick => exact ⟨id, fun _ => rfl, fun _ => rfl⟩
  | shiftTick => exact ⟨UartUnit.shiftOut, fun _ => rfl, fun _ => rfl⟩
  | openTick => exact ⟨fun u => { u with rxacc := 0#8 }, fun _ => rfl, fun _ => rfl⟩
  | countTick => exact ⟨fun u => { u with bitcnt := u.bitcnt + 1#4 }, fun _ => rfl, fun _ => rfl⟩
  | start | data | stop =>
    rw [UartUnit.perform, UartUnit.driveTx] at h
    obtain ⟨lvl, rfl⟩ := UnitIo.tryDrive_after h
    exact absurd htrace UnitIo.drive_ne_wait
  | sample =>
    rw [UartUnit.perform, UartUnit.sampleRx] at h
    obtain ⟨a, ds, rfl | ⟨v, hv⟩⟩ := UnitIo.trySample_after h
    · exact absurd htrace UnitIo.sample_ne_wait
    · obtain rfl := Option.some.inj hv
      exact absurd htrace UnitIo.sample_ne_wait
  | poll =>
    rw [UartUnit.perform, UartUnit.sampleRx] at h
    obtain ⟨a, ds, rfl | ⟨v, hv⟩⟩ := UnitIo.trySample_after h
    · exact absurd htrace UnitIo.sample_ne_wait
    · cases v <;> obtain rfl := Option.some.inj hv <;> exact absurd htrace UnitIo.sample_ne_wait

/-! ### The event of a wait -/

theorem I2sUnit.event_of_wait {u v : I2sUnit} (h : u.event p = .ok v) (htrace : v.io.trace = u.io.trace ++ [.wait f]) :
    ∃ cmd i, u.io.seq = .running cmd i ∧ u.actAt p i = some .tick := by
  rcases I2sUnit.event_cases h with ⟨-, rfl⟩ | ⟨cmd, i, hs, ⟨-, rfl⟩ | ⟨a, ha, ⟨w, hd, rfl⟩ | hagain | ⟨o, w, hr, rfl⟩⟩⟩
  · simp at htrace
  · simp at htrace
  · rw [(I2sUnit.advance_io p cmd i w).1] at htrace
    exact ⟨cmd, i, hs, I2sUnit.act_eq_tick (by rw [hd]; rfl) htrace ▸ ha⟩
  · exact absurd hagain I2sUnit.perform_ne_again
  · exact ⟨cmd, i, hs, I2sUnit.act_eq_tick (w := w) (by rw [hr]; rfl) htrace ▸ ha⟩

theorem SpiUnit.event_of_wait {u v : SpiUnit} (h : u.event p = .ok v) (htrace : v.io.trace = u.io.trace ++ [.wait f]) :
    ∃ cmd i, u.io.seq = .running cmd i ∧ (u.acts cmd)[i]? = some .tick := by
  rcases SpiUnit.event_cases h with ⟨-, rfl⟩ | ⟨cmd, i, hs, ⟨-, rfl⟩ | ⟨a, ha, ⟨w, hd, rfl⟩ | hagain | ⟨o, w, hr, rfl⟩⟩⟩
  · simp at htrace
  · simp at htrace
  · rw [(SpiUnit.advance_shown cmd i w).1] at htrace
    exact ⟨cmd, i, hs, SpiUnit.act_eq_tick (by rw [hd]; rfl) htrace ▸ ha⟩
  · exact absurd hagain SpiUnit.perform_ne_again
  · exact ⟨cmd, i, hs, SpiUnit.act_eq_tick (w := w) (by rw [hr]; rfl) htrace ▸ ha⟩

theorem UartUnit.event_of_wait {u v : UartUnit} (h : u.event p = .ok v) (htrace : v.io.trace = u.io.trace ++ [.wait f]) :
    ∃ cmd i a, u.io.seq = .running cmd i ∧ (uartActs cmd)[i]? = some a ∧
      ∃ after : UartUnit → UartUnit, (∀ x, (after x).io = x.io) ∧ ∀ x, UartUnit.perform p a x = x.wait p after := by
  rcases UartUnit.event_cases h with ⟨-, rfl⟩ | ⟨cmd, i, hs, ⟨-, rfl⟩ | ⟨a, ha, ⟨w, hd, rfl⟩ | hagain | ⟨o, w, hr, rfl⟩⟩⟩
  · simp at htrace
  · simp at htrace
  · rw [(UartUnit.advance_shown cmd i w).1] at htrace
    exact ⟨cmd, i, a, hs, ha, UartUnit.perform_eq_wait (by rw [hd]; rfl) htrace⟩
  · exact ⟨cmd, i, a, hs, ha, UartUnit.perform_eq_wait (by rw [hagain]; rfl) htrace⟩
  · exact ⟨cmd, i, a, hs, ha, UartUnit.perform_eq_wait (w := w) (by rw [hr]; rfl) htrace⟩

end

/-! ### A failure that ends the command -/

/-- The command ended with `TimerError`, and the trace shows the failed wait as `failed` (rule R150). -/
structure UnitIo.TimerErrorEnds {c : Type} (a : UnitIo c) (failed : Option TimError) (e : TimError) (b : UnitIo c) : Prop where
  failed   : failed = some e
  outcomes : b.outcomes = a.outcomes ++ [.timerError e]
  idle     : (!b.seq.isIdle) = false

section
variable {p : Params} {f : Option TimError} {e : TimError}

/-- A fatal wait of the trace is the `W!` of its failure. -/
theorem UnitIo.TimerErrorEnds.close {c : Type} {u : UnitId} {io : UnitIo c} {n : Nat}
    (htrace : ((io.afterWait u (some e)).close (.timerError e) n).trace = io.trace ++ [.wait f]) :
    io.TimerErrorEnds f e ((io.afterWait u (some e)).close (.timerError e) n) := by
  have hf : some e = f := by simpa [UnitIo.afterWait] using htrace
  exact ⟨hf.symm, rfl, rfl⟩

theorem I2sUnit.event_timerError {u v : I2sUnit} (h : u.event p = .ok v) (htrace : v.io.trace = u.io.trace ++ [.wait f])
    (hans : (u.io.ticks.next (freeTick .i2s)).1 = .err e) : u.io.TimerErrorEnds f e v.io := by
  obtain ⟨cmd, i, hs, ha⟩ := I2sUnit.event_of_wait h htrace
  rw [I2sUnit.event_running hs ha, I2sUnit.perform, UnitIo.tryWait_fatal hans rfl] at h
  obtain rfl := Except.ok.inj h
  exact .close htrace

theorem SpiUnit.event_timerError {u v : SpiUnit} (h : u.event p = .ok v) (htrace : v.io.trace = u.io.trace ++ [.wait f])
    (hans : (u.io.ticks.next (freeTick .spi)).1 = .err e) (hf : tickFatal p .spi = true) : u.io.TimerErrorEnds f e v.io := by
  obtain ⟨cmd, i, hs, ha⟩ := SpiUnit.event_of_wait h htrace
  rw [SpiUnit.event_running hs ha, SpiUnit.perform, UnitIo.tryWait_fatal hans hf] at h
  obtain rfl := Except.ok.inj h
  exact .close htrace

theorem UartUnit.event_timerError {u v : UartUnit} (h : u.event p = .ok v) (htrace : v.io.trace = u.io.trace ++ [.wait f])
    (hans : (u.io.ticks.next (freeTick .uart)).1 = .err e) (hf : tickFatal p .uart = true) : u.io.TimerErrorEnds f e v.io := by
  obtain ⟨cmd, i, a, hs, ha, after, -, hwait⟩ := UartUnit.event_of_wait h htrace
  rw [UartUnit.event_running hs ha, hwait, UartUnit.wait, UnitIo.tryWait_fatal hans hf] at h
  obtain rfl := Except.ok.inj h
  exact .close htrace

/-! ### A failure that is ignored -/

theorem UartUnit.advance_ticks (cmd : UartRun) (i : Nat) (u : UartUnit) : (u.advance cmd i).io.ticks = u.io.ticks := by
  unfold UartUnit.advance; split <;> rfl

theorem SpiUnit.advance_ticks (cmd : SpiRun) (i : Nat) (u : SpiUnit) : (u.advance cmd i).io.ticks = u.io.ticks := by
  unfold SpiUnit.advance; split <;> rfl

/-- An ignored failure of the UART leaves a plain `W` and the unit a tick leaves (rule R185). -/
theorem UartUnit.event_ignored {u v : UartUnit} (h : u.event p = .ok v) (htrace : v.io.trace = u.io.trace ++ [.wait f])
    (hans : (u.io.ticks.next (freeTick .uart)).1 = .err e) (hf : tickFatal p .uart = false) :
    f = none ∧ v.io.ticks = (u.io.ticks.next (freeTick .uart)).2 ∧
      UartUnit.event p { u with io := u.io.tickInstead .uart } = .ok v := by
  obtain ⟨cmd, i, a, hs, ha, after, hafter, hwait⟩ := UartUnit.event_of_wait h htrace
  rw [UartUnit.event_running hs ha, hwait, UartUnit.wait, UnitIo.tryWait_ignored hans hf] at h
  obtain rfl := Except.ok.inj h
  refine ⟨?_, ?_, ?_⟩
  · rw [(UartUnit.advance_shown cmd i _).1, hafter] at htrace
    simpa [UnitIo.afterWait] using htrace.symm
  · rw [UartUnit.advance_ticks, hafter]
    rfl
  · rw [UartUnit.event_running (u := { u with io := u.io.tickInstead .uart }) hs ha, hwait, UartUnit.wait,
      UnitIo.tryWait_tickInstead]
    rfl

/-- An ignored failure of the SPI unit, likewise (rule R185). -/
theorem SpiUnit.event_ignored {u v : SpiUnit} (h : u.event p = .ok v) (htrace : v.io.trace = u.io.trace ++ [.wait f])
    (hans : (u.io.ticks.next (freeTick .spi)).1 = .err e) (hf : tickFatal p .spi = false) :
    f = none ∧ v.io.ticks = (u.io.ticks.next (freeTick .spi)).2 ∧
      SpiUnit.event p { u with io := u.io.tickInstead .spi } = .ok v := by
  obtain ⟨cmd, i, hs, ha⟩ := SpiUnit.event_of_wait h htrace
  rw [SpiUnit.event_running hs ha, SpiUnit.perform, UnitIo.tryWait_ignored hans hf] at h
  obtain rfl := Except.ok.inj h
  refine ⟨?_, ?_, ?_⟩
  · rw [(SpiUnit.advance_shown cmd i _).1] at htrace
    simpa [UnitIo.afterWait] using htrace.symm
  · rw [SpiUnit.advance_ticks]
    rfl
  · rw [SpiUnit.event_running (u := { u with io := u.io.tickInstead .spi }) hs (a := .tick) ha, SpiUnit.perform,
      UnitIo.tryWait_tickInstead]
    rfl

end

/-- Settles O42: the event is a wait, whose failure `tickFatal` makes the end of the command or as good as a tick. -/
theorem tickFailure : Obligations.TickFailure := by
  intro u s t e f h htrace hans
  rcases unitTurn_cases h with ⟨rfl, x, hx, rfl⟩ | ⟨rfl, x, hx, rfl⟩ | ⟨rfl, x, hx, rfl⟩
  · obtain ⟨hf, hout, hidle⟩ := I2sUnit.event_timerError hx htrace hans
    exact ⟨fun _ => ⟨hf, hout, hidle⟩, fun _ => ⟨nofun, nofun⟩⟩
  · refine ⟨fun hp => ?_, fun hp => ⟨fun _ => ?_, nofun⟩⟩
    · obtain ⟨hf, hout, hidle⟩ := UartUnit.event_timerError hx htrace hans (tickFatal_of_policy hp)
      exact ⟨hf, hout, hidle⟩
    · obtain ⟨hf, hticks, htick⟩ := UartUnit.event_ignored hx htrace hans (tickFatal_of_reference (by decide) hp)
      rw [hticks]
      exact ⟨hf, afterEvent_next.mpr ⟨x, htick, rfl⟩⟩
  · refine ⟨fun hp => ?_, fun hp => ⟨nofun, fun _ => ?_⟩⟩
    · obtain ⟨hf, hout, hidle⟩ := SpiUnit.event_timerError hx htrace hans (tickFatal_of_policy hp)
      exact ⟨hf, hout, hidle⟩
    · obtain ⟨hf, hticks, htick⟩ := SpiUnit.event_ignored hx htrace hans (tickFatal_of_reference (by decide) hp)
      rw [hticks]
      exact ⟨hf, afterEvent_next.mpr ⟨x, htick, rfl⟩⟩

end Sys2Proof.Machine
